-- ==== Sys2Proof/Word.lean ====
section
/-! DEFINITION. The words of the machine: bytes, 32-bit bus words, binary32 bit patterns and bus addresses
(spec/20_memory.md R80, R86, R87). -/

namespace Sys2Proof

/-- One byte lane of a word (R87). -/
abbrev Byte := BitVec 8

/-- One 32-bit word of the bus port (R80). -/
abbrev Word := BitVec 32

/-- A binary32 value, as the bit pattern that fills a word (R12, R87). -/
abbrev F32 := BitVec 32

/-- A byte address of the block's own 16-bit address space: an offset from its base address (R86). The host's own
addresses are `Nat`. -/
abbrev Addr := BitVec 16

end Sys2Proof
end

