-- ==== Sys2Proof/Syntax.lean ====
section
/-! DEFINITION. The six commands of the CORE (spec/30_encoding.md R100 to R105), one constructor per row of
spec/opcode_table.json. Every operand is held at the width its field has, so that an `Instr` is well formed by its type. -/

namespace Sys2Proof

/-- The commands, with the operands of R105: `ts` the timestamp, `tail` the allowTailOff bit T, `vel` the velocity,
`note` the MIDI note number, `n` the number of frames. -/
inductive Instr where
  /-- NOTE_ON, format N (R101). -/
  | noteOn (ts : BitVec 12) (vel : BitVec 7) (note : BitVec 7)
  /-- NOTE_OFF, format N (R101). -/
  | noteOff (ts : BitVec 12) (tail : Bool) (vel : BitVec 7) (note : BitVec 7)
  /-- RENDER, format R (R102). -/
  | render (n : BitVec 16)
  /-- PREPARE, format Z (R103). -/
  | prepare
  /-- RESET_FILTERS, format Z (R103). -/
  | resetFilters
  /-- RELEASE, format Z (R103). -/
  | release
  deriving DecidableEq, Repr

end Sys2Proof
end

