-- ==== Sys2Proof/Decode.lean ====
section
/-! DEFINITION. The decoder of command words, total on every 32-bit word, and the encoder (spec/30_encoding.md R100 to
R107). -/

namespace Sys2Proof

/-- Why a word is reserved (R107). Both do `raise BADCMD` (R100). -/
inductive Reject where
  /-- Opcode 0x0 or 0x7 to 0xF. -/
  | reservedOpcode
  /-- A reserved field of the opcode's format is not zero. -/
  | reservedField
  deriving DecidableEq, Repr

/-- The bits a row of the opcode map fixes (R104, column `mask`), by its opcode. -/
def opcodeMask (op : BitVec 4) : Word :=
  if op = 0x1#4 then 0xF0008080#32
  else if op = 0x2#4 then 0xF0000080#32
  else if op = 0x3#4 then 0xFFFF0000#32
  else 0xFFFFFFFF#32

/-- What those bits are (R104, column `match`): the opcode above zeros. -/
def opcodeMatch (op : BitVec 4) : Word := op ++ 0#28

/-- `op = w[31:28]` (R100). -/
def fieldOp (w : Word) : BitVec 4 := w.extractLsb' 28 4

/-- `TS = w[27:16]` (R105). -/
def fieldTs (w : Word) : BitVec 12 := w.extractLsb' 16 12

/-- `T = w[15]` (R105). -/
def fieldT (w : Word) : Bool := w.getLsbD 15

/-- `VEL = w[14:8]` (R105). -/
def fieldVel (w : Word) : BitVec 7 := w.extractLsb' 8 7

/-- `NOTE = w[6:0]` (R105). -/
def fieldNote (w : Word) : BitVec 7 := w.extractLsb' 0 7

/-- `N = w[15:0]` (R105). -/
def fieldN (w : Word) : BitVec 16 := w.extractLsb' 0 16

/-- The command an opcode names, with the operands of its format (R101 to R105); none for a reserved opcode. -/
def opcodeInstr (w : Word) : Option Instr :=
  match (fieldOp w).toNat with
  | 1 => some (.noteOn (fieldTs w) (fieldVel w) (fieldNote w))
  | 2 => some (.noteOff (fieldTs w) (fieldT w) (fieldVel w) (fieldNote w))
  | 3 => some (.render (fieldN w))
  | 4 => some .prepare
  | 5 => some .resetFilters
  | 6 => some .release
  | _ => none

/-- Decoding (R100): the opcode selects the format, then every reserved field of the format must be zero. -/
def decode (w : Word) : Except Reject Instr :=
  match opcodeInstr w with
  | none => .error .reservedOpcode
  | some i =>
    if w &&& opcodeMask (fieldOp w) = opcodeMatch (fieldOp w) then .ok i else .error .reservedField

/-- The encoder (R101 to R103, R109): the fields of the format side by side, bit 31 first. -/
def encode : Instr → Word
  | .noteOn ts vel note => 0x1#4 ++ ts ++ 0#1 ++ vel ++ 0#1 ++ note
  | .noteOff ts tail vel note => 0x2#4 ++ ts ++ BitVec.ofBool tail ++ vel ++ 0#1 ++ note
  | .render n => 0x3#4 ++ 0#12 ++ n
  | .prepare => 0x40000000#32
  | .resetFilters => 0x50000000#32
  | .release => 0x60000000#32

/-- The decoder on an instruction numbered as spec/opcode_table.json numbers it. Every command is one 32-bit word
(R100), so a number of more than 32 bits is none. -/
def decodeTableWord (nbits w : Nat) : Option Instr :=
  let v := w % 2 ^ nbits
  if v < 2 ^ 32 then (decode (BitVec.ofNat 32 v)).toOption else none

end Sys2Proof
end

