-- ==== Sys2Proof/Config.lean ====
section
/-! DEFINITION. What this hardware fixes (spec/00_scope.md R7) and what its spec leaves open. The open values are
constants with no body: a claim about the machine holds whatever they are. -/

namespace Sys2Proof.Config

/-- MAXBLOCK: the largest block, in frames (R7). -/
def maxBlock : Nat := 4096

/-- EVQ_DEPTH: the capacity of the note-event queue (R7). -/
def evqDepth : Nat := 32

/-- SR_MIN: a legal sample rate is above it (R7). -/
def srMin : Nat := 40000

/-- SR_MAX: a legal sample rate is at most it (R7). -/
def srMax : Nat := 192000

/-- The reference value of the OPEN parameter NV (R7). DESIGN CHOICE (log 1), unsafe for a claim about
`State.reset` alone: `State.reset` has this many voices; everything else reads NV from the state. -/
def nvReference : Nat := 5

/-- The base address of `State.reset` on the host's bus. R86 leaves the base to the platform, as a parameter of the
model: DESIGN CHOICE (log 15), unsafe for a claim about `State.reset` alone; everything else reads the base from the
state. -/
def baseReference : Nat := 0

/-- SIN32, OPEN (R7, R12): any function from binary32 to binary32 (log 2, safe). -/
opaque sin32 : F32 → F32

/-- TAN32, OPEN (R7, R12): any function from binary32 to binary32 (log 2, safe). -/
opaque tan32 : F32 → F32

/-- The four binary32 operations of R12. -/
inductive ArithOp where
  | add
  | sub
  | mul
  | div
  deriving DecidableEq, Repr

/-- FREE VALUE (log 6, safe): the sign and the payload of the NaN that an operation makes of its operands. -/
opaque nanBits : ArithOp → F32 → F32 → Word

/-- FREE VALUE (log 7, safe): `rint` of a NaN or an infinity, for which R12 states no result. -/
opaque rintNonFinite : F32 → Int

/-- FREE VALUE (log 8, safe): what `wrap` gives for a value on which its loops never end (R163). -/
opaque wrapDiverges : F32 → F32

end Sys2Proof.Config
end

