-- ==== Sys2Proof/Machine/State.lean ====
section
/-! DEFINITION. The state of the CORE as plain data, its reset, and the reasons a step can stop (spec/10_state.md R30 to
R56). There is no program counter and no general register (R30, R32). -/

namespace Sys2Proof.Machine

/-! ## Kinds and enumerations -/

/-- The waveforms, in the order of their codes 0, 1, 2 (R43). -/
inductive Waveform where
  | sine
  | saw
  | square
  deriving DecidableEq, Repr

/-- The filter topologies, in the order of their codes 0, 1, 2 (R43). -/
inductive FilterType where
  | lowpass
  | bandpass
  | highpass
  deriving DecidableEq, Repr

/-- The envelope stages, in the order of their VSTAT codes 0 to 4 (R44, R130). -/
inductive Stage where
  | idle
  | attack
  | decay
  | sustain
  | release
  deriving DecidableEq, Repr

/-- The voice states, in the order of their VSTAT codes 0 to 2 (R44, R210). -/
inductive VState where
  | idle
  | sounding
  | tailingOff
  deriving DecidableEq, Repr

/-- The two kinds of note event (R46). -/
inductive EventKind where
  | noteOn
  | noteOff
  deriving DecidableEq, Repr

/-- The error causes, in the order of their ERR bits 0 to 7 (R36, R301 to R308). -/
inductive Err where
  | precond
  | noFreeVoice
  | badCmd
  | badConfig
  | badLen
  | evqOvf
  | badParam
  | badAddr
  deriving DecidableEq, Repr

/-- The real parameter registers P[1..10], P[12], P[13], by their names (R40). -/
inductive RealParam where
  | fmFreq
  | fmDepth
  | attack
  | decay
  | sustain
  | release
  | modAttack
  | modDecay
  | modSustain
  | modRelease
  | filterFreq
  | filterRes
  deriving DecidableEq, Repr

/-! ## Registers and queue -/

/-- The 14 parameter registers P[0..13] (R39, R40). The two enum registers hold one of three legal values (R42, log 10). -/
structure Params where
  oscWaveType : Waveform
  fmFreq : F32
  fmDepth : F32
  attack : F32
  decay : F32
  sustain : F32
  release : F32
  modAttack : F32
  modDecay : F32
  modSustain : F32
  modRelease : F32
  filterType : FilterType
  filterFreq : F32
  filterRes : F32
  deriving DecidableEq, Repr

/-- A queued note event (R46). -/
structure Event where
  kind : EventKind
  ts : BitVec 12
  note : BitVec 7
  vel : BitVec 7
  tail : Bool
  seq : Nat
  deriving DecidableEq, Repr

/-! ## Voices -/

/-- The oscillator of a voice (R50); the note it derives from is `Voice.note`. -/
structure Oscillator where
  kind : Waveform
  f : F32
  phi : F32
  fmFreq : F32
  fmDepth : F32
  phiFm : F32
  fmOffset : F32
  deriving DecidableEq, Repr

/-- An envelope generator (R51): stage, level L, held parameters A, D, S, R, and the current segment L0, k, n. -/
structure Envelope where
  stage : Stage
  level : F32
  a : F32
  d : F32
  s : F32
  r : F32
  level0 : F32
  k : Nat
  n : Nat
  deriving DecidableEq, Repr

/-- The integrator pair of one channel (R52). -/
structure Integrators where
  s1 : F32
  s2 : F32
  deriving DecidableEq, Repr

/-- The filter of a voice (R52): configuration, block coefficients, and one integrator pair per channel. -/
structure Filter where
  fType : FilterType
  fBase : F32
  fRes : F32
  g : F32
  r2 : F32
  h : F32
  c0 : Integrators
  c1 : Integrators
  deriving DecidableEq, Repr

/-- A voice (R48, R49). -/
structure Voice where
  vstate : VState
  note : BitVec 7
  osc : Oscillator
  amp : Envelope
  mod : Envelope
  filt : Filter
  deriving DecidableEq, Repr

/-! ## Memory and the bus port -/

/-- The bytes of the output buffer OUT (R47) at their bus addresses, rising, none of them zero: a byte not listed
reads 0, the byte of +0.0 that OUT holds after reset (R55, log 9). -/
abbrev Memory := List Host.Cell

/-- The canonical form of a memory: addresses strictly rising, no entry equal to what an unlisted address reads as. -/
abbrev Memory.wf (m : Memory) : Prop :=
  m.Pairwise (fun x y => x.1 < y.1) ∧ ∀ c ∈ m, c.2 ≠ 0#8

/-- What can happen at the block's pins: an access at an offset from the base (spec/20_memory.md R80, R86), or an
assertion of the reset input (spec/70_reset_and_hazards.md R330, log 14). -/
inductive Access where
  | read (addr : Addr)
  | write (addr : Addr) (w : Word)
  | reset
  deriving DecidableEq, Repr

/-- What the host and the platform do: an access at an address of the host's own address space, of which the block's
64 KiB start at the base (R86, log 15), or an assertion of the reset input. -/
inductive HostAccess where
  | read (addr : Nat)
  | write (addr : Nat) (w : Word)
  | reset
  deriving DecidableEq, Repr

/-! ## The state -/

/-- Everything the spec gives the machine, and the bus port (`port`, `readData`; logs 3 and 4). The two parameters of the
block are NV, the length of `voices` (log 1), and its base address on the host's bus, `base` (R86, log 15). -/
structure State where
  prepared : Bool
  curSr : Word
  curBlock : Word
  curNch : Word
  lastN : Word
  err : BitVec 8
  prepSr : Word
  prepBlock : Word
  prepNch : Word
  params : Params
  evq : List Event
  mem : Memory
  voices : List Voice
  base : Nat
  port : List HostAccess
  readData : List Word
  deriving DecidableEq, Repr

/-- Why a step stops with a fault. -/
inductive Fault where
  /-- Raised by RENDER while PREPARED = 0 (spec/60_exceptions.md R301, R313): the spec makes it a fault of a model.
  It carries the state the step computes on the way, ERR.PRECOND set and nothing else changed (log 5). Safe. -/
  | precond (faulted : State)
  deriving DecidableEq, Repr

/-- Why a step is refused. Every word and every access of this hardware has a defined outcome, so nothing is. -/
inductive Refusal where
  /-- Raised by `exec` alone, for an instruction that has no meaning yet; no instruction is left without one. Safe. -/
  | notModelled (mnemonic : String)
  deriving DecidableEq, Repr

/-! ## Reset (R40, R55) -/

/-- The parameter registers after reset (R40). -/
def Params.reset : Params where
  oscWaveType := .sine
  fmFreq := 0x00000000#32
  fmDepth := 0x00000000#32
  attack := 0x3DCCCCCD#32
  decay := 0x3DCCCCCD#32
  sustain := 0x3F800000#32
  release := 0x3DCCCCCD#32
  modAttack := 0x3DCCCCCD#32
  modDecay := 0x3DCCCCCD#32
  modSustain := 0x3F800000#32
  modRelease := 0x3DCCCCCD#32
  filterType := .lowpass
  filterFreq := 0x469C4000#32
  filterRes := 0x3F800000#32

/-- An oscillator after reset (R55). -/
def Oscillator.reset : Oscillator where
  kind := .sine
  f := 0x00000000#32
  phi := 0x00000000#32
  fmFreq := 0x00000000#32
  fmDepth := 0x00000000#32
  phiFm := 0x00000000#32
  fmOffset := 0x00000000#32

/-- An envelope after reset (R55). -/
def Envelope.reset : Envelope where
  stage := .idle
  level := 0x00000000#32
  a := 0x3DCCCCCD#32
  d := 0x3DCCCCCD#32
  s := 0x3F800000#32
  r := 0x3DCCCCCD#32
  level0 := 0x00000000#32
  k := 0
  n := 0

/-- An integrator pair at rest (R55, R196). -/
def Integrators.rest : Integrators where
  s1 := 0x00000000#32
  s2 := 0x00000000#32

/-- A filter after reset (R55). -/
def Filter.reset : Filter where
  fType := .lowpass
  fBase := 0x469C4000#32
  fRes := 0x3F800000#32
  g := 0x00000000#32
  r2 := 0x00000000#32
  h := 0x00000000#32
  c0 := Integrators.rest
  c1 := Integrators.rest

/-- The voice reset state (R55, R56). -/
def Voice.reset : Voice where
  vstate := .idle
  note := 0#7
  osc := Oscillator.reset
  amp := Envelope.reset
  mod := Envelope.reset
  filt := Filter.reset

/-- The block with `nv` voices at base address `base` after reset (R55), its port idle. -/
def State.resetN (nv base : Nat) : State where
  prepared := false
  curSr := 0#32
  curBlock := 0#32
  curNch := 0#32
  lastN := 0#32
  err := 0#8
  prepSr := 44100#32
  prepBlock := 512#32
  prepNch := 2#32
  params := Params.reset
  evq := []
  mem := []
  voices := List.replicate nv Voice.reset
  base := base
  port := []
  readData := []

/-- The block right after reset, with the reference number of voices (R7, R55; log 1) and base address (log 15). -/
def State.reset : State := State.resetN Config.nvReference Config.baseReference

end Sys2Proof.Machine
end

