-- ==== Sys2Proof/Machine/Flags.lean ====
section
/-! DEFINITION. The sticky error bits and the words computed from state: ERR, CAPS, STATUS and VSTAT (spec/10_state.md R34
to R36, R44). The block has no condition codes (R53). -/

namespace Sys2Proof.Machine

/-- The cause code of an error: its ERR bit number (R36, spec/60_exceptions.md R301 to R308). -/
def Err.code : Err → Nat
  | .precond => 0
  | .noFreeVoice => 1
  | .badCmd => 2
  | .badConfig => 3
  | .badLen => 4
  | .evqOvf => 5
  | .badParam => 6
  | .badAddr => 7

/-- The ERR bits with cause `e` set; every other bit stays (R36). -/
def setErr (err : BitVec 8) (e : Err) : BitVec 8 := err ||| 1#8 <<< e.code

/-- Write-one-to-clear: `ERR <- ERR and not zext_32(w[7:0])` (R36). -/
def clearErr (err : BitVec 8) (w : Word) : BitVec 8 := err &&& ~~~(w.extractLsb' 0 8)

/-- ERR as read: bits [31:8] are 0 (R36). -/
def errWord (err : BitVec 8) : Word := 0#24 ++ err

/-- CAPS: MAXBLOCK, EVQ_DEPTH, NV from the top down (R34). -/
def capsWord (nv : Nat) : Word :=
  BitVec.ofNat 16 Config.maxBlock ++ BitVec.ofNat 8 Config.evqDepth ++ BitVec.ofNat 8 nv

/-- STATUS.ACTIVE: bit v is 1 when voice v is not Idle, 0 for v at or above NV (R35). -/
def activeBits : List Voice → BitVec 16
  | [] => 0#16
  | v :: vs => activeBits vs <<< 1 ||| (if v.vstate = .idle then 0#16 else 1#16)

/-- STATUS: ACTIVE, EVQ_COUNT, seven zeros, PREPARED from the top down (R35). -/
def statusWord (prepared : Bool) (count : Nat) (voices : List Voice) : Word :=
  activeBits voices ++ BitVec.ofNat 8 count ++ 0#7 ++ BitVec.ofBool prepared

/-- The VSTATE code (R44). -/
def VState.code : VState → BitVec 2
  | .idle => 0#2
  | .sounding => 1#2
  | .tailingOff => 2#2

/-- The AMP_STAGE and MOD_STAGE code (R44, R130). -/
def Stage.code : Stage → BitVec 3
  | .idle => 0#3
  | .attack => 1#3
  | .decay => 2#3
  | .sustain => 3#3
  | .release => 4#3

/-- VSTAT of a voice: 17 zeros, NOTE, MOD_STAGE, AMP_STAGE, VSTATE from the top down (R44). -/
def vstatWord (v : Voice) : Word :=
  0#17 ++ v.note ++ v.mod.stage.code ++ v.amp.stage.code ++ v.vstate.code

end Sys2Proof.Machine
end

