-- ==== Sys2Proof/Machine/Float.lean ====
section
/-! DEFINITION. IEEE 754 binary32 arithmetic as spec/00_scope.md R12 uses it: round to nearest, ties to even, each
operation rounded separately, subnormals kept, no exception flag. A finite value is a whole number of units of 2^-149;
an operation is computed exactly on these numbers and rounded once. -/

namespace Sys2Proof.Machine.F32

/-! ## Named constants (R13) -/

def zero : F32 := 0x00000000#32
def negZero : F32 := 0x80000000#32
def one : F32 := 0x3F800000#32
def negOne : F32 := 0xBF800000#32
def pi : F32 := 0x40490FDB#32
def negPi : F32 := 0xC0490FDB#32
def twoPi : F32 := 0x40C90FDB#32
def gain : F32 := 0x3E99999A#32
def f20 : F32 := 0x41A00000#32
def f20000 : F32 := 0x469C4000#32

/-! ## The fields of a pattern (R87) -/

/-- The sign bit. -/
@[irreducible] def neg? (x : F32) : Bool := x.msb

/-- The exponent and fraction bits, as one number: it orders the magnitudes. -/
@[irreducible] def mag (x : F32) : Nat := x.toNat % 2 ^ 31

/-- The magnitude bits of infinity. -/
def infMag : Nat := 0x7F800000

def isNaN (x : F32) : Bool := infMag < mag x
def isInf (x : F32) : Bool := mag x = infMag
def isFinite (x : F32) : Bool := mag x < infMag

/-- The value with a given sign and given magnitude bits. -/
@[irreducible] def ofMag (neg : Bool) (m : Nat) : F32 := BitVec.ofNat 32 (if neg then 2 ^ 31 + m else m)

/-- The magnitude of a finite value with magnitude bits `m`, in units of 2^-149. -/
@[irreducible] def unitsOf (m : Nat) : Nat :=
  if m < 2 ^ 23 then m else (2 ^ 23 + m % 2 ^ 23) * 2 ^ (m / 2 ^ 23 - 1)

/-- A finite value as a whole number of units of 2^-149. -/
def toInt (x : F32) : Int := if neg? x then -(unitsOf (mag x) : Int) else unitsOf (mag x)

/-! ## Rounding -/

/-- `num / den` rounded to the nearest whole number, ties to the even one. -/
@[irreducible] def nearestEven (num den : Nat) : Nat :=
  let q := num / den
  let r := num % den
  if den < 2 * r ∨ (2 * r = den ∧ q % 2 = 1) then q + 1 else q

/-- The magnitude bits of `num / den` units rounded to nearest, ties to even. A value of 24 bits or fewer is its own
magnitude bits; a longer one is rounded at its 24th bit; a value past the largest finite one is infinity. -/
@[irreducible] def roundMag (num den : Nat) : Nat :=
  let k := (num / den).log2 - 23
  min (2 ^ 23 * k + nearestEven num (den * 2 ^ k)) infMag

/-! ## Operations (R12) -/

/-- The NaN an operation makes: quiet, its sign and payload left open (log 6). -/
def nan (op : Config.ArithOp) (x y : F32) : F32 := Config.nanBits op x y ||| 0x7FC00000#32

/-- `abs(x)` clears the sign bit (R12). -/
@[irreducible] def abs (x : F32) : F32 := ofMag false (mag x)

/-- The value with the other sign bit. -/
@[irreducible] def negate (x : F32) : F32 := ofMag (!neg? x) (mag x)

/-- The sum of two values that are no NaN, and `invalid` for infinities of opposite signs. An exact sum of zero is
+0.0 unless both operands are negative (log 17). -/
@[irreducible] def addNum (invalid x y : F32) : F32 :=
  if isInf x then (if isInf y && (neg? x != neg? y) then invalid else x)
  else if isInf y then y
  else
    let z := toInt x + toInt y
    if z = 0 then (if neg? x && neg? y then negZero else zero)
    else ofMag (z < 0) (roundMag z.natAbs 1)

/-- `x + y` (R12). -/
@[irreducible] def add (x y : F32) : F32 :=
  if isNaN x || isNaN y then nan .add x y else addNum (nan .add x y) x y

/-- `x - y` (R12). -/
@[irreducible] def sub (x y : F32) : F32 :=
  if isNaN x || isNaN y then nan .sub x y else addNum (nan .sub x y) x (negate y)

/-- `x * y` (R12). -/
@[irreducible] def mul (x y : F32) : F32 :=
  let s := neg? x != neg? y
  if isNaN x || isNaN y then nan .mul x y
  else if isInf x || isInf y then
    (if mag x = 0 ∨ mag y = 0 then nan .mul x y else ofMag s infMag)
  else ofMag s (roundMag (unitsOf (mag x) * unitsOf (mag y)) (2 ^ 149))

/-- `x / y` (R12). -/
@[irreducible] def div (x y : F32) : F32 :=
  let s := neg? x != neg? y
  if isNaN x || isNaN y then nan .div x y
  else if isInf x then (if isInf y then nan .div x y else ofMag s infMag)
  else if isInf y then ofMag s 0
  else if mag y = 0 then (if mag x = 0 then nan .div x y else ofMag s infMag)
  else ofMag s (roundMag (2 ^ 149 * unitsOf (mag x)) (unitsOf (mag y)))

/-! ## Comparisons (R12: IEEE, `-0 == +0`, false on a NaN) -/

/-- The signed magnitude of a pattern: it orders all values that are no NaN. -/
def key (x : F32) : Int := if neg? x then -(mag x : Int) else mag x

def lt (x y : F32) : Bool := !isNaN x && !isNaN y && key x < key y
def le (x y : F32) : Bool := !isNaN x && !isNaN y && key x ≤ key y
def eq (x y : F32) : Bool := !isNaN x && !isNaN y && key x = key y

/-- `clamp(x, lo, hi)` (R12). -/
def clamp (x lo hi : F32) : F32 := if lt x lo then lo else if lt hi x then hi else x

/-! ## Conversions (R12) -/

/-- `f32(k)`: exact for k up to 2^24, the only ones the rules use (above, rounded to nearest even: log 13). -/
@[irreducible] def ofNat (k : Nat) : F32 := ofMag false (roundMag (2 ^ 149 * k) 1)

/-- `rint(x)`: the whole number nearest a finite `x`, ties to the even one; open elsewhere (log 7). -/
@[irreducible] def rint (x : F32) : Int :=
  if isFinite x then
    (if neg? x then -(nearestEven (unitsOf (mag x)) (2 ^ 149) : Int)
     else nearestEven (unitsOf (mag x)) (2 ^ 149))
  else Config.rintNonFinite x

end Sys2Proof.Machine.F32
end

