-- ==== Sys2Proof/Machine/Ops.lean ====
section
/-! DEFINITION. The shared operations: recording an error (this block's only form of an exception,
spec/60_exceptions.md R300), the output memory, the port's answer to a read, and the sample rate. -/

namespace Sys2Proof.Machine

/-! ## Errors (spec/00_scope.md R15, spec/60_exceptions.md R300) -/

/-- `flag E`: set bit E of ERR; the command or access goes on (R15). -/
def State.flag (s : State) (e : Err) : State := { s with err := setErr s.err e }

/-- `raise E`: set bit E of ERR and end the command or access with no other effect on state (R15). Nothing is saved
and control goes nowhere (R300), so there is no return operation: the host clears the bit (R312). -/
def raise (e : Err) (s : State) : Host.Outcome State Fault Refusal := .next (s.flag e)

/-- Write-one-to-clear of ERR by the host (spec/10_state.md R36, R312). -/
def State.clearErrBits (s : State) (w : Word) : State := { s with err := clearErr s.err w }

/-! ## The output memory (spec/10_state.md R47, spec/20_memory.md R87) -/

/-- What an unlisted address of OUT reads as: a byte of +0.0 (R47, R55). -/
def Memory.unlisted : Byte := 0#8

/-- One byte of the output memory. -/
def Memory.readByte : Memory → Nat → Byte
  | [], _ => Memory.unlisted
  | (k, b) :: m, a => if k = a then b else Memory.readByte m a

/-- One word of the output memory, byte lane 0 in bits [7:0] (R87). -/
def Memory.readWord (m : Memory) (a : Nat) : Word :=
  m.readByte (a + 3) ++ m.readByte (a + 2) ++ m.readByte (a + 1) ++ m.readByte a

/-- A byte stored at an address: no entry when it is what an unlisted address reads as. -/
def Memory.cell (a : Nat) (b : Byte) : Memory := if b = Memory.unlisted then [] else [(a, b)]

/-- A word stored at an address, byte lane 0 first (R87). -/
def Memory.cells (a : Nat) (w : Word) : Memory :=
  Memory.cell a (w.extractLsb' 0 8) ++ Memory.cell (a + 1) (w.extractLsb' 8 8) ++
    Memory.cell (a + 2) (w.extractLsb' 16 8) ++ Memory.cell (a + 3) (w.extractLsb' 24 8)

/-- Words stored one after another from an address up. -/
def Memory.ofWords : Nat → List Word → Memory
  | _, [] => []
  | a, w :: ws => Memory.cells a w ++ Memory.ofWords (a + 4) ws

/-- The byte address of `OUT[c][i]` (R47). -/
def outAddr (c i : Nat) : Nat := 0x1000 + 4 * (c * Config.maxBlock + i)

/-- `OUT[c][i]` (R47). -/
def State.out (s : State) (c i : Nat) : F32 := s.mem.readWord (outAddr c i)

/-- OUT with the given words in the two channels from frame 0 on, and +0.0 everywhere else. -/
def Memory.ofChannels (c0 c1 : List F32) : Memory :=
  Memory.ofWords (outAddr 0 0) c0 ++ Memory.ofWords (outAddr 1 0) c1

/-! ## The port and the sample rate -/

/-- The port's answer to a read (spec/20_memory.md R81; log 4). -/
def State.respond (s : State) (w : Word) : State := { s with readData := w :: s.readData }

/-- `FS = f32(CUR_SR)` (spec/10_state.md R45). -/
def State.fs (s : State) : F32 := F32.ofNat s.curSr.toNat

end Sys2Proof.Machine
end

