-- ==== Sys2Proof/Machine/Envelope.lean ====
section
/-! DEFINITION. The ADSR envelope generator (spec/41_envelope.md). `fs` is the binary32 sample rate FS. -/

namespace Sys2Proof.Machine

/-- `nsamp(t) = max(1, rint(t * FS))` (R133). -/
def nsamp (fs t : F32) : Nat := max 1 (F32.rint (F32.mul t fs)).toNat

/-- `startSeg(E, t)` (R133). -/
def Envelope.startSeg (fs t : F32) (e : Envelope) : Envelope :=
  { e with level0 := e.level, k := 0, n := nsamp fs t }

/-- Whether `configure` restarts the running segment, and with which time: only a changed parameter of the current
stage does (R131). -/
def Envelope.restart? (e : Envelope) (a d s r : F32) : Option F32 :=
  match e.stage with
  | .attack => if F32.eq a e.a then none else some a
  | .decay => if F32.eq d e.d && F32.eq s e.s then none else some d
  | .release => if F32.eq r e.r then none else some r
  | .idle => none
  | .sustain => none

/-- `E.configure(a, d, s, r)` (R131). -/
def Envelope.configure (fs a d s r : F32) (e : Envelope) : Envelope :=
  let e1 := match e.restart? a d s r with
    | some t => e.startSeg fs t
    | none => e
  { e1 with a := a, d := d, s := s, r := r }

/-- `E.noteOn()` (R132). -/
def Envelope.noteOn (fs : F32) (e : Envelope) : Envelope :=
  Envelope.startSeg fs e.a { e with stage := .attack }

/-- `E.noteOff()` (R134): no effect on an idle envelope. -/
def Envelope.noteOff (fs : F32) (e : Envelope) : Envelope :=
  if e.stage = .idle then e else Envelope.startSeg fs e.r { e with stage := .release }

/-- `E.forceIdle()` (R135): the held parameters are kept. -/
def Envelope.forceIdle (e : Envelope) : Envelope :=
  { e with stage := .idle, level := F32.zero, level0 := F32.zero, k := 0, n := 0 }

/-- `E.isActive()` (R136). -/
def Envelope.isActive (e : Envelope) : Bool := e.stage != .idle

/-- `seg(E, T)`: the level of the running segment toward target `T` (R138). -/
def Envelope.seg (e : Envelope) (t : F32) : F32 :=
  F32.clamp
    (F32.add e.level0 (F32.div (F32.mul (F32.sub t e.level0) (F32.ofNat e.k)) (F32.ofNat e.n)))
    F32.zero F32.one

/-- The attack step (R140), after `E.k` has been advanced. -/
def Envelope.attackStep (fs : F32) (e : Envelope) : Envelope :=
  let lc := e.seg F32.one
  if e.n ≤ e.k ∨ F32.le F32.one lc then
    Envelope.startSeg fs e.d { e with level := F32.one, stage := .decay }
  else { e with level := lc }

/-- The decay step (R141), after `E.k` has been advanced. -/
def Envelope.decayStep (e : Envelope) : Envelope :=
  let lc := e.seg e.s
  if e.n ≤ e.k ∨ F32.le lc e.s then { e with level := e.s, stage := .sustain }
  else { e with level := lc }

/-- The release step (R143), after `E.k` has been advanced. -/
def Envelope.releaseStep (e : Envelope) : Envelope :=
  let lc := e.seg F32.zero
  if e.n ≤ e.k ∨ F32.le lc F32.zero then { e with level := F32.zero, stage := .idle }
  else { e with level := lc }

/-- The envelope after `E.nextSample()` (R137, R139 to R143). -/
def Envelope.advance (fs : F32) (e : Envelope) : Envelope :=
  match e.stage with
  | .idle => e
  | .attack => Envelope.attackStep fs { e with k := e.k + 1 }
  | .decay => Envelope.decayStep { e with k := e.k + 1 }
  | .sustain => { e with level := e.s }
  | .release => Envelope.releaseStep { e with k := e.k + 1 }

/-- `E.nextSample()`: the advanced envelope and the level returned (R137); an idle envelope returns 0.0 (R139). -/
def Envelope.nextSample (fs : F32) (e : Envelope) : Envelope × F32 :=
  let e' := e.advance fs
  (e', if e.stage = .idle then F32.zero else e'.level)

/-- `n` calls of `nextSample`: the envelope after them and the levels returned, in order (R144). -/
def Envelope.samples (fs : F32) : Nat → Envelope → Envelope × List F32
  | 0, e => (e, [])
  | n + 1, e =>
    let step := e.nextSample fs
    let rest := Envelope.samples fs n step.1
    (rest.1, step.2 :: rest.2)

/-- `n` calls of `nextSample`, their results discarded (spec/44_voice.md R216). -/
def Envelope.skip (fs : F32) : Nat → Envelope → Envelope
  | 0, e => e
  | n + 1, e => Envelope.skip fs n (e.nextSample fs).1

end Sys2Proof.Machine
end

