-- ==== Sys2Proof/Machine/Filter.lean ====
section
/-! DEFINITION. The state-variable filter (spec/43_filter.md). `fs` is the binary32 sample rate FS and `tan` the function
TAN32. -/

namespace Sys2Proof.Machine

/-- The configuration half of `setParameters` (R190): no coefficient and no integrator changes. -/
def Filter.configure (fType : FilterType) (fBase fRes : F32) (q : Filter) : Filter :=
  { q with fType := fType, fBase := fBase, fRes := fRes }

/-- The effective cutoff `fc = clamp(fBase * m, 20, 20000)` (R191). -/
def cutoff (fBase m : F32) : F32 := F32.clamp (F32.mul fBase m) F32.f20 F32.f20000

/-- `filterSet(m)`: the coefficients of the block (R192). -/
def Filter.set (tan : F32 → F32) (fs m : F32) (q : Filter) : Filter :=
  let fc := cutoff q.fBase m
  let g := tan (F32.div (F32.mul F32.pi fc) fs)
  let r2 := F32.div F32.one q.fRes
  let h := F32.div F32.one (F32.add (F32.add F32.one (F32.mul r2 g)) (F32.mul g g))
  { q with g := g, r2 := r2, h := h }

/-- One sample of the recurrence on one integrator pair, with its tap (R193, R194). -/
def Filter.sample (q : Filter) (p : Integrators) (x : F32) : Integrators × F32 :=
  let yHP := F32.mul q.h (F32.sub (F32.sub x (F32.mul p.s1 (F32.add q.g q.r2))) p.s2)
  let yBP := F32.add (F32.mul yHP q.g) p.s1
  let s1 := F32.add (F32.mul yHP q.g) yBP
  let yLP := F32.add (F32.mul yBP q.g) p.s2
  let s2 := F32.add (F32.mul yBP q.g) yLP
  ({ s1 := s1, s2 := s2 },
   match q.fType with
   | .lowpass => yLP
   | .bandpass => yBP
   | .highpass => yHP)

/-- `process` on the samples of one channel (R195). -/
def Filter.processChannel (q : Filter) : Integrators → List F32 → Integrators × List F32
  | p, [] => (p, [])
  | p, x :: xs =>
    let step := q.sample p x
    let rest := Filter.processChannel q step.1 xs
    (rest.1, step.2 :: rest.2)

/-- `reset()`: the integrators of both channels to +0.0, everything else kept (R196). -/
def Filter.clear (q : Filter) : Filter := { q with c0 := Integrators.rest, c1 := Integrators.rest }

end Sys2Proof.Machine
end

