-- ==== Sys2Proof/Machine/Operands.lean ====
section
/-! DEFINITION. The operands of commands that come from registers (spec/30_encoding.md R106): the parameter registers, the
values a write to them stores, and the arguments of PREPARE. The operands in a command word are decoded in
Sys2Proof/Decode.lean. -/

namespace Sys2Proof.Machine

/-- A parameter register P[k]: enum for k = 0 and 11, real for the others (spec/10_state.md R40). -/
inductive Param where
  | oscWaveType
  | filterType
  | real (p : RealParam)
  deriving DecidableEq, Repr

/-- The register with index k (R40). -/
def paramAt : Nat → Option Param
  | 0 => some .oscWaveType
  | 1 => some (.real .fmFreq)
  | 2 => some (.real .fmDepth)
  | 3 => some (.real .attack)
  | 4 => some (.real .decay)
  | 5 => some (.real .sustain)
  | 6 => some (.real .release)
  | 7 => some (.real .modAttack)
  | 8 => some (.real .modDecay)
  | 9 => some (.real .modSustain)
  | 10 => some (.real .modRelease)
  | 11 => some .filterType
  | 12 => some (.real .filterFreq)
  | 13 => some (.real .filterRes)
  | _ => none

/-- LO[k] (R40): 0, 0.1, 20 or 1. -/
def RealParam.lo : RealParam → F32
  | .fmFreq => 0x00000000#32
  | .fmDepth => 0x00000000#32
  | .attack => 0x3DCCCCCD#32
  | .decay => 0x3DCCCCCD#32
  | .sustain => 0x3DCCCCCD#32
  | .release => 0x3DCCCCCD#32
  | .modAttack => 0x3DCCCCCD#32
  | .modDecay => 0x3DCCCCCD#32
  | .modSustain => 0x3DCCCCCD#32
  | .modRelease => 0x3DCCCCCD#32
  | .filterFreq => 0x41A00000#32
  | .filterRes => 0x3F800000#32

/-- HI[k] (R40): 1000, 1, 3, 20000 or 10. -/
def RealParam.hi : RealParam → F32
  | .fmFreq => 0x447A0000#32
  | .fmDepth => 0x447A0000#32
  | .attack => 0x3F800000#32
  | .decay => 0x3F800000#32
  | .sustain => 0x3F800000#32
  | .release => 0x40400000#32
  | .modAttack => 0x3F800000#32
  | .modDecay => 0x3F800000#32
  | .modSustain => 0x3F800000#32
  | .modRelease => 0x40400000#32
  | .filterFreq => 0x469C4000#32
  | .filterRes => 0x41200000#32

/-- The stored bits of a real parameter register. -/
def Params.get (ps : Params) : RealParam → F32
  | .fmFreq => ps.fmFreq
  | .fmDepth => ps.fmDepth
  | .attack => ps.attack
  | .decay => ps.decay
  | .sustain => ps.sustain
  | .release => ps.release
  | .modAttack => ps.modAttack
  | .modDecay => ps.modDecay
  | .modSustain => ps.modSustain
  | .modRelease => ps.modRelease
  | .filterFreq => ps.filterFreq
  | .filterRes => ps.filterRes

/-- The registers with one real register replaced. -/
def Params.set (ps : Params) (x : F32) : RealParam → Params
  | .fmFreq => { ps with fmFreq := x }
  | .fmDepth => { ps with fmDepth := x }
  | .attack => { ps with attack := x }
  | .decay => { ps with decay := x }
  | .sustain => { ps with sustain := x }
  | .release => { ps with release := x }
  | .modAttack => { ps with modAttack := x }
  | .modDecay => { ps with modDecay := x }
  | .modSustain => { ps with modSustain := x }
  | .modRelease => { ps with modRelease := x }
  | .filterFreq => { ps with filterFreq := x }
  | .filterRes => { ps with filterRes := x }

/-- The code of a waveform (R43). -/
def Waveform.code : Waveform → Word
  | .sine => 0#32
  | .saw => 1#32
  | .square => 2#32

/-- The code of a topology (R43). -/
def FilterType.code : FilterType → Word
  | .lowpass => 0#32
  | .bandpass => 1#32
  | .highpass => 2#32

/-- The waveform a written word names; none outside 0, 1, 2 (R42, R43). -/
def Waveform.ofCode (w : Word) : Option Waveform :=
  match w.toNat with
  | 0 => some .sine
  | 1 => some .saw
  | 2 => some .square
  | _ => none

/-- The topology a written word names; none outside 0, 1, 2 (R42, R43). -/
def FilterType.ofCode (w : Word) : Option FilterType :=
  match w.toNat with
  | 0 => some .lowpass
  | 1 => some .bandpass
  | 2 => some .highpass
  | _ => none

/-- P[k] as read (R39, R41, R42). -/
def Params.word (ps : Params) : Param → Word
  | .oscWaveType => ps.oscWaveType.code
  | .filterType => ps.filterType.code
  | .real p => ps.get p

/-- What a write of `w` stores in a real register: the value clamped to its range, a zero as +0.0; none for a NaN
(R41). -/
def RealParam.stored (p : RealParam) (w : Word) : Option F32 :=
  if F32.isNaN w then none
  else
    let y := F32.clamp w p.lo p.hi
    some (if F32.eq y F32.zero then F32.zero else y)

/-- The registers after a write of `w` to one of them; none where the write is refused with BADPARAM (R41, R42). -/
def Params.write (ps : Params) (w : Word) : Param → Option Params
  | .oscWaveType => (Waveform.ofCode w).map fun k => { ps with oscWaveType := k }
  | .filterType => (FilterType.ofCode w).map fun k => { ps with filterType := k }
  | .real p => (p.stored w).map fun x => ps.set x p

/-- A host write to P[k] (R41, R42). -/
def State.writeParam (s : State) (p : Param) (w : Word) : State :=
  match s.params.write w p with
  | some ps => { s with params := ps }
  | none => s.flag .badParam

/-- PREPARE's check of its three arguments together (spec/46_host_commands.md R271, spec/60_exceptions.md R309). -/
def configLegal (sr blk nch : Word) : Bool :=
  Config.srMin < sr.toNat && sr.toNat ≤ Config.srMax && 1 ≤ blk.toNat && blk.toNat ≤ Config.maxBlock &&
    (nch.toNat == 1 || nch.toNat == 2)

end Sys2Proof.Machine
end

