-- ==== Sys2Proof/Machine/Oscillator.lean ====
section
/-! DEFINITION. The FM oscillator with phase accumulator (spec/42_oscillator.md). `fs` is the binary32 sample rate FS and
`sin` the function SIN32. -/

namespace Sys2Proof.Machine

/-- The waveform functions (R161). -/
def wave (sin : F32 → F32) (kind : Waveform) (x : F32) : F32 :=
  match kind with
  | .sine => sin x
  | .saw => F32.div x F32.pi
  | .square => if F32.lt x F32.zero then F32.negOne else F32.one

/-- The bit patterns of `noteHz` for notes 0 to 11 (R162). -/
def noteHzBase (r : Nat) : Nat :=
  match r with
  | 0 => 0x4102D013
  | 1 => 0x410A9760
  | 2 => 0x4112D517
  | 3 => 0x411B9041
  | 4 => 0x4124D054
  | 5 => 0x412E9D37
  | 6 => 0x4138FF49
  | 7 => 0x4143FF6A
  | 8 => 0x414FA700
  | 9 => 0x415C0000
  | 10 => 0x416914F6
  | _ => 0x4176F110

/-- `noteHz(n)`: each octave adds one to the exponent of the octave below (R162). -/
def noteHz (n : BitVec 7) : F32 :=
  BitVec.ofNat 32 (noteHzBase (n.toNat % 12) + 2 ^ 23 * (n.toNat / 12))

/-- More turns than either loop of `wrap` makes on any value on which it ends (log 8). -/
def wrapFuel : Nat := 2 ^ 25

/-- `while t > PI: t <- t - TWO_PI` (R163). -/
def wrapDown : Nat → F32 → F32
  | 0, t => Config.wrapDiverges t
  | n + 1, t => if F32.lt F32.pi t then wrapDown n (F32.sub t F32.twoPi) else t

/-- `while t <= -PI: t <- t + TWO_PI` (R163). -/
def wrapUp : Nat → F32 → F32
  | 0, t => Config.wrapDiverges t
  | n + 1, t => if F32.le t F32.negPi then wrapUp n (F32.add t F32.twoPi) else t

/-- `wrap(t)` (R163). -/
def wrap (t : F32) : F32 := wrapUp wrapFuel (wrapDown wrapFuel t)

/-- `inc(f) = (TWO_PI * f) / FS` (R164). -/
def phaseInc (fs f : F32) : F32 := F32.div (F32.mul F32.twoPi f) fs

/-- `|noteHz(n) + fmOffset|` (R165, R166). -/
def mainFreq (note : BitVec 7) (fmOffset : F32) : F32 := F32.abs (F32.add (noteHz note) fmOffset)

/-- `setWaveform(kind)` (R160). -/
def Oscillator.setWaveform (kind : Waveform) (o : Oscillator) : Oscillator := { o with kind := kind }

/-- The oscillator's part of `setFrequency(n)` (R165); the note is stored by the voice. -/
def Oscillator.setFrequency (note : BitVec 7) (o : Oscillator) : Oscillator :=
  { o with f := mainFreq note o.fmOffset }

/-- `setFmParams(freq, depth)` of a voice holding `note` (R166). -/
def Oscillator.setFmParams (note : BitVec 7) (freq depth : F32) (o : Oscillator) : Oscillator :=
  { o with fmFreq := freq, fmDepth := depth, f := mainFreq note o.fmOffset }

/-- The note-on reset of both phases (R167). -/
def Oscillator.resetPhases (o : Oscillator) : Oscillator := { o with phi := F32.zero, phiFm := F32.zero }

/-- One frame of `renderBlock`: output at the current phase, then advance (R168). `incM` and `incFm` are the
increments of the block. -/
def Oscillator.frame (sin : F32 → F32) (incM incFm : F32) (o : Oscillator) : Oscillator × F32 :=
  ({ o with
      phiFm := wrap (F32.add o.phiFm incFm)
      fmOffset := F32.mul (sin o.phiFm) o.fmDepth
      phi := wrap (F32.add o.phi incM) },
   wave sin o.kind o.phi)

/-- `n` frames with fixed increments: the oscillator after them and the samples, in order (R168). -/
def Oscillator.frames (sin : F32 → F32) (incM incFm : F32) : Nat → Oscillator → Oscillator × List F32
  | 0, o => (o, [])
  | n + 1, o =>
    let step := o.frame sin incM incFm
    let rest := Oscillator.frames sin incM incFm n step.1
    (rest.1, step.2 :: rest.2)

/-- `renderBlock` of the oscillator: the increments are fixed for the whole block (R168, R169). -/
def Oscillator.render (sin : F32 → F32) (fs : F32) (n : Nat) (o : Oscillator) : Oscillator × List F32 :=
  o.frames sin (phaseInc fs o.f) (phaseInc fs o.fmFreq) n

end Sys2Proof.Machine
end

