-- ==== Sys2Proof/Machine/Voice.lean ====
section
/-! DEFINITION. The voice (spec/44_voice.md): parameter update, note events, and rendering a block of `n` frames on
`nch` channels. `fs`, `sin`, `tan` are FS, SIN32, TAN32. -/

namespace Sys2Proof.Machine

/-! ## Parameter update and note events -/

/-- `updateControlParams`, on every voice whatever its state (R212). -/
def Voice.update (fs : F32) (ps : Params) (v : Voice) : Voice :=
  { v with
    amp := v.amp.configure fs ps.attack ps.decay ps.sustain ps.release
    filt := v.filt.configure ps.filterType ps.filterFreq ps.filterRes
    mod := v.mod.configure fs ps.modAttack ps.modDecay ps.modSustain ps.modRelease
    osc := (v.osc.setWaveform ps.oscWaveType).setFmParams v.note ps.fmFreq ps.fmDepth }

/-- `noteOn(n)` (R213). -/
def Voice.noteOn (fs : F32) (note : BitVec 7) (v : Voice) : Voice :=
  { v with
    note := note
    osc := (v.osc.setFrequency note).resetPhases
    amp := v.amp.noteOn fs
    mod := v.mod.noteOn fs
    vstate := .sounding }

/-- `noteOff(allowTailOff)` (R214). -/
def Voice.noteOff (fs : F32) (tail : Bool) (v : Voice) : Voice :=
  let amp := v.amp.noteOff fs
  let mod := v.mod.noteOff fs
  if !tail || !amp.isActive then
    { v with amp := amp.forceIdle, mod := mod.forceIdle, vstate := .idle }
  else { v with amp := amp, mod := mod, vstate := .tailingOff }

/-! ## Rendering a block -/

/-- The samples of the two channels: the scratch SCR (spec/10_state.md R49), or the frames of OUT being mixed. A
channel of SCR at or above CUR_NCH holds no sample. -/
structure Buffer where
  c0 : List F32
  c1 : List F32
  deriving DecidableEq, Repr

/-- The modulation step: `n` samples discarded, then the block's modulator (R216). -/
def modulationStep (fs : F32) (n : Nat) (e : Envelope) : Envelope × F32 :=
  (Envelope.skip fs n e).nextSample fs

/-- The oscillator's samples in every channel c < CUR_NCH (R218). -/
def Buffer.fill (nch : Nat) (w : List F32) : Buffer where
  c0 := if 0 < nch then w else []
  c1 := if 1 < nch then w else []

/-- Frame i of every channel times the i-th envelope level (R219). -/
def Buffer.applyLevels (levels : List F32) (b : Buffer) : Buffer where
  c0 := List.zipWith F32.mul b.c0 levels
  c1 := List.zipWith F32.mul b.c1 levels

/-- The filter on each channel through its own integrators (R220); a channel with no sample keeps its pair. -/
def Filter.process (q : Filter) (b : Buffer) : Filter × Buffer :=
  let r0 := q.processChannel q.c0 b.c0
  let r1 := q.processChannel q.c1 b.c1
  ({ q with c0 := r0.1, c1 := r1.1 }, { c0 := r0.2, c1 := r1.2 })

/-- The fixed gain (R221). -/
def Buffer.applyGain (b : Buffer) : Buffer where
  c0 := b.c0.map (F32.mul · F32.gain)
  c1 := b.c1.map (F32.mul · F32.gain)

/-- `OUT[c][i] + SCR[c][i]` where there is a sample, `OUT[c][i]` elsewhere (R222). -/
def mixChannel : List F32 → List F32 → List F32
  | o :: os, y :: ys => F32.add o y :: mixChannel os ys
  | os, [] => os
  | [], _ :: _ => []

/-- The mix of a voice's scratch into the frames of OUT (R222). -/
def Buffer.mix (out scr : Buffer) : Buffer where
  c0 := mixChannel out.c0 scr.c0
  c1 := mixChannel out.c1 scr.c1

/-- End of block: an inactive amplitude envelope makes the voice Idle (R223). -/
def Voice.endOfBlock (v : Voice) : Voice := if v.amp.isActive then v else { v with vstate := .idle }

/-- What a voice that is not Idle does in a block: the voice after it, and its contribution to OUT (R215 to R221,
R223). -/
def Voice.sound (sin tan : F32 → F32) (fs : F32) (nch n : Nat) (v : Voice) : Voice × Buffer :=
  let md := modulationStep fs n v.mod
  let osc := v.osc.render sin fs n
  let env := Envelope.samples fs n v.amp
  let flt := (v.filt.set tan fs md.2).process ((Buffer.fill nch osc.2).applyLevels env.2)
  (Voice.endOfBlock { v with mod := md.1, osc := osc.1, amp := env.1, filt := flt.1 }, flt.2.applyGain)

/-- `renderBlock(OUT, 0, n)` (R215): nothing for an Idle voice (R211), else the block's contribution added in. -/
def Voice.renderBlock (sin tan : F32 → F32) (fs : F32) (nch n : Nat) (v : Voice) (out : Buffer) : Voice × Buffer :=
  if v.vstate = .idle then (v, out)
  else
    let r := v.sound sin tan fs nch n
    (r.1, out.mix r.2)

end Sys2Proof.Machine
end

