-- ==== Sys2Proof/Machine/Lifecycle.lean ====
section
/-! DEFINITION. The lifecycle commands PREPARE, RELEASE and RESET_FILTERS (spec/46_host_commands.md R271 to R274). -/

namespace Sys2Proof.Machine

/-- What PREPARE and RELEASE both do: the queue emptied, OUT all +0.0, LAST_N 0 and every voice in the voice reset
state (R271, R273, spec/10_state.md R56). -/
def State.clearRun (s : State) : State :=
  { s with
    evq := []
    mem := []
    lastN := 0#32
    voices := s.voices.map fun _ => Voice.reset }

/-- PREPARE (R271). -/
def execPrepare (s : State) : Host.Outcome State Fault Refusal :=
  if configLegal s.prepSr s.prepBlock s.prepNch then
    .next { s.clearRun with
      prepared := true
      curSr := s.prepSr
      curBlock := s.prepBlock
      curNch := s.prepNch }
  else raise .badConfig s

/-- RELEASE (R273). -/
def execRelease (s : State) : Host.Outcome State Fault Refusal :=
  .next { s.clearRun with
    prepared := false
    curSr := 0#32
    curBlock := 0#32
    curNch := 0#32 }

/-- RESET_FILTERS (R274). -/
def execResetFilters (s : State) : Host.Outcome State Fault Refusal :=
  .next { s with voices := s.voices.map fun v => { v with filt := v.filt.clear } }

end Sys2Proof.Machine
end

