-- ==== Sys2Proof/Machine/VoicePool.lean ====
section
/-! DEFINITION. The voice pool and the note-event and render commands (spec/45_voice_pool.md): NOTE_ON, NOTE_OFF, RENDER. -/

namespace Sys2Proof.Machine

/-! ## Queuing note events -/

/-- Append an event to EVQ, or `raise EVQOVF` when the queue is full (R240, R241). -/
def enqueue (e : Event) (s : State) : Host.Outcome State Fault Refusal :=
  if s.evq.length = Config.evqDepth then raise .evqOvf s else .next { s with evq := s.evq ++ [e] }

/-- NOTE_ON (R240). -/
def execNoteOn (ts : BitVec 12) (vel note : BitVec 7) (s : State) : Host.Outcome State Fault Refusal :=
  enqueue { kind := .noteOn, ts := ts, note := note, vel := vel, tail := false, seq := s.evq.length } s

/-- NOTE_OFF (R241). -/
def execNoteOff (ts : BitVec 12) (tail : Bool) (vel note : BitVec 7) (s : State) :
    Host.Outcome State Fault Refusal :=
  enqueue { kind := .noteOff, ts := ts, note := note, vel := vel, tail := tail, seq := s.evq.length } s

/-! ## Dispatch -/

/-- Ascending `(ts, seq)` order (R244). -/
def Event.before (a b : Event) : Bool := a.ts.toNat < b.ts.toNat || (a.ts = b.ts && a.seq ≤ b.seq)

/-- An event put in its place among events already in order. -/
def insertEvent (e : Event) : List Event → List Event
  | [] => [e]
  | x :: xs => if e.before x then e :: x :: xs else x :: insertEvent e xs

/-- The events in dispatch order (R244). -/
def sortEvents : List Event → List Event
  | [] => []
  | e :: es => insertEvent e (sortEvents es)

/-- Pool note-on: the lowest-index Idle voice takes the note; none when no voice is Idle (R242). -/
def poolNoteOn (fs : F32) (note : BitVec 7) : List Voice → Option (List Voice)
  | [] => none
  | v :: vs =>
    if v.vstate = .idle then some (v.noteOn fs note :: vs) else (poolNoteOn fs note vs).map (v :: ·)

/-- Pool note-off: every Sounding voice that plays the note receives it (R243). -/
def poolNoteOff (fs : F32) (note : BitVec 7) (tail : Bool) (vs : List Voice) : List Voice :=
  vs.map fun v => if v.vstate = .sounding ∧ v.note = note then v.noteOff fs tail else v

/-- One event: the voices after it, and whether a note-on was dropped (R242, R243, spec/60_exceptions.md R302). -/
def dispatchEvent (fs : F32) (e : Event) (vs : List Voice) : List Voice × Bool :=
  match e.kind with
  | .noteOn =>
    match poolNoteOn fs e.note vs with
    | some vs' => (vs', false)
    | none => (vs, true)
  | .noteOff => (poolNoteOff fs e.note e.tail vs, false)

/-- The events one after another: the voices after them, and whether any note-on was dropped (R244). -/
def dispatch (fs : F32) : List Event → List Voice → List Voice × Bool
  | [], vs => (vs, false)
  | e :: es, vs =>
    let step := dispatchEvent fs e vs
    let rest := dispatch fs es step.1
    (rest.1, step.2 || rest.2)

/-! ## Rendering -/

/-- The voices render in ascending index, each adding its block into OUT after the one before (R246). -/
def renderVoices (sin tan : F32 → F32) (fs : F32) (nch n : Nat) : List Voice → Buffer → List Voice × Buffer
  | [], out => ([], out)
  | v :: vs, out =>
    let step := v.renderBlock sin tan fs nch n out
    let rest := renderVoices sin tan fs nch n vs step.2
    (step.1 :: rest.1, rest.2)

/-- The frames of OUT before any voice has added into them (R245). -/
def Buffer.zeros (n : Nat) : Buffer where
  c0 := List.replicate n F32.zero
  c1 := List.replicate n F32.zero

/-- The voices and the dropped flag after the block's parameter update and dispatch (R245). -/
def State.dispatched (s : State) : List Voice × Bool :=
  dispatch s.fs (sortEvents s.evq) (s.voices.map (Voice.update s.fs s.params))

/-- RENDER of a legal length on a prepared block (R245): parameter update, dispatch, OUT cleared in full, the voices in
order, LAST_N. -/
def State.renderBlock (sin tan : F32 → F32) (n : BitVec 16) (s : State) : State :=
  let d := s.dispatched
  let r := renderVoices sin tan s.fs s.curNch.toNat n.toNat d.1 (Buffer.zeros n.toNat)
  { (if d.2 then s.flag .noFreeVoice else s) with
    voices := r.1
    evq := []
    mem := Memory.ofChannels r.2.c0 r.2.c1
    lastN := n.zeroExtend 32 }

/-- RENDER with the functions SIN32 and TAN32 as arguments: PREPARED is checked before the length (R245,
spec/60_exceptions.md R301, R305, R309). -/
def renderWith (sin tan : F32 → F32) (n : BitVec 16) (s : State) : Host.Outcome State Fault Refusal :=
  if s.prepared = false then .fault (.precond (s.flag .precond))
  else if n.toNat = 0 ∨ s.curBlock.toNat < n.toNat then raise .badLen s
  else .next (s.renderBlock sin tan n)

/-- RENDER (R245). -/
def execRender (n : BitVec 16) (s : State) : Host.Outcome State Fault Refusal :=
  renderWith Config.sin32 Config.tan32 n s

end Sys2Proof.Machine
end

