-- ==== Sys2Proof/Machine/Dispatch.lean ====
section
/-! DEFINITION. The dispatch of a command to its meaning (spec/30_encoding.md R104). -/

namespace Sys2Proof.Machine

def exec (i : Instr) (s : State) : Host.Outcome State Fault Refusal :=
  match i with
  | .noteOn ts vel note => Sys2Proof.Machine.execNoteOn ts vel note s
  | .noteOff ts tail vel note => Sys2Proof.Machine.execNoteOff ts tail vel note s
  | .render n => Sys2Proof.Machine.execRender n s
  | .prepare => Sys2Proof.Machine.execPrepare s
  | .resetFilters => Sys2Proof.Machine.execResetFilters s
  | .release => Sys2Proof.Machine.execRelease s

end Sys2Proof.Machine
end

