-- ==== Sys2Proof/Machine/HostAccess.lean ====
section
/-! DEFINITION. The host's accesses through the bus port (spec/20_memory.md R80 to R86, spec/46_host_commands.md R270, R275,
R276) and the reset input (spec/70_reset_and_hazards.md R330). -/

namespace Sys2Proof.Machine

/-- The mapped words of the address space (spec/10_state.md R33). -/
inductive Reg where
  | caps
  | status
  | err
  | cmd
  | prepSr
  | prepBlock
  | prepNch
  | curSr
  | curBlock
  | curNch
  | lastN
  | param (p : Param)
  | vstat (v : Nat)
  | out (c i : Nat)
  deriving DecidableEq, Repr

/-- The register at word index `k` below 0x0030 (R33); 0x001C is unmapped. -/
def controlReg : Nat → Option Reg
  | 0 => some .caps
  | 1 => some .status
  | 2 => some .err
  | 3 => some .cmd
  | 4 => some .prepSr
  | 5 => some .prepBlock
  | 6 => some .prepNch
  | 8 => some .curSr
  | 9 => some .curBlock
  | 10 => some .curNch
  | 11 => some .lastN
  | _ => none

/-- The mapped word that holds byte address `a`; none where the address is unmapped (R33, spec/20_memory.md R83). -/
def regAt (a : Nat) : Option Reg :=
  if a < 0x30 then controlReg (a / 4)
  else if 0x40 ≤ a ∧ a < 0x78 then (paramAt ((a - 0x40) / 4)).map .param
  else if 0x100 ≤ a ∧ a < 0x140 then some (.vstat ((a - 0x100) / 4))
  else if 0x1000 ≤ a ∧ a < 0x9000 then
    some (.out ((a - 0x1000) / 4 / Config.maxBlock) ((a - 0x1000) / 4 % Config.maxBlock))
  else none

/-- The word an aligned access to `addr` reaches: alignment first, then the map (R84, spec/60_exceptions.md R309). -/
def target (addr : Addr) : Option Reg := if addr.toNat % 4 = 0 then regAt addr.toNat else none

/-- VSTAT[v]: 0 for v at or above NV (spec/10_state.md R31, R44). -/
def State.vstat (s : State) (v : Nat) : Word :=
  match s.voices[v]? with
  | some x => vstatWord x
  | none => 0#32

/-- The value of a mapped word (R81; spec/10_state.md R34 to R47). -/
def State.readReg (s : State) : Reg → Word
  | .caps => capsWord s.voices.length
  | .status => statusWord s.prepared s.evq.length s.voices
  | .err => errWord s.err
  | .cmd => 0#32
  | .prepSr => s.prepSr
  | .prepBlock => s.prepBlock
  | .prepNch => s.prepNch
  | .curSr => s.curSr
  | .curBlock => s.curBlock
  | .curNch => s.curNch
  | .lastN => s.lastN
  | .param p => s.params.word p
  | .vstat v => s.vstat v
  | .out c i => s.out c i

/-- `MemRead(addr, 4)` (R81): a mapped word is returned and nothing else happens; elsewhere 0 is returned and BADADDR
flagged (R83, R84). -/
def busRead (addr : Addr) (s : State) : State :=
  match target addr with
  | some r => s.respond (s.readReg r)
  | none => (s.flag .badAddr).respond 0#32

/-- A write of a command word (R270): a reserved word does `raise BADCMD`, a legal one is executed to completion. -/
def runCommand (w : Word) (s : State) : Host.Outcome State Fault Refusal :=
  match decode w with
  | .ok i => exec i s
  | .error _ => raise .badCmd s

/-- A write to a mapped word (R82); a read-only word ignores it and BADADDR is flagged. -/
def writeReg (r : Reg) (w : Word) (s : State) : Host.Outcome State Fault Refusal :=
  match r with
  | .err => .next (s.clearErrBits w)
  | .cmd => runCommand w s
  | .prepSr => .next { s with prepSr := w }
  | .prepBlock => .next { s with prepBlock := w }
  | .prepNch => .next { s with prepNch := w }
  | .param p => .next (s.writeParam p w)
  | .caps | .status | .curSr | .curBlock | .curNch | .lastN | .vstat _ | .out _ _ => .next (s.flag .badAddr)

/-- `MemWrite(addr, 4, w)` (R82 to R84). -/
def busWrite (addr : Addr) (w : Word) (s : State) : Host.Outcome State Fault Refusal :=
  match target addr with
  | some r => writeReg r w s
  | none => .next (s.flag .badAddr)

/-- The reset input (spec/70_reset_and_hazards.md R330): every item as after reset, whatever it held. The voices stay
as many as the block has, at the same base address, and the port's own record stays (log 14). -/
def resetInput (s : State) : State :=
  { State.resetN s.voices.length s.base with port := s.port, readData := s.readData }

/-- What happens at the pins (R80, R330). -/
def perform (a : Access) (s : State) : Host.Outcome State Fault Refusal :=
  match a with
  | .read addr => .next (busRead addr s)
  | .write addr w => busWrite addr w s
  | .reset => .next (resetInput s)

/-! ## The base address (R86) -/

/-- The offset of a host address from the block's base; none for an address outside the block's 64 KiB (R86). -/
def offset? (base a : Nat) : Option Addr :=
  if base ≤ a ∧ a < base + 0x10000 then some (BitVec.ofNat 16 (a - base)) else none

/-- What the block sees at its pins of what the host does: an access to an address of its own, at its offset; none of
an access elsewhere (R86). -/
def HostAccess.atPins? (base : Nat) : HostAccess → Option Access
  | .read a => (offset? base a).map .read
  | .write a w => (offset? base a).map fun off => .write off w
  | .reset => some .reset

/-- The host's access that reaches the block's pins as `a`: the address is the base plus the offset (R86). -/
def Access.atBase (base : Nat) : Access → HostAccess
  | .read addr => .read (base + addr.toNat)
  | .write addr w => .write (base + addr.toNat) w
  | .reset => .reset

/-- What the host does, performed: an access that is not the block's leaves the block as it is (log 15). -/
def performHost (h : HostAccess) (s : State) : Host.Outcome State Fault Refusal :=
  match h.atPins? s.base with
  | some a => perform a s
  | none => .next s

end Sys2Proof.Machine
end

