-- ==== Sys2Proof/Machine/Step.lean ====
section
/-! DEFINITION. One step of the machine: the port performs the oldest access that waits (spec/20_memory.md R85). -/

namespace Sys2Proof.Machine

/-- One step (R85, spec/00_scope.md R9): the oldest access is taken off the port and performed to completion. With
none waiting the CORE takes no step, and the state stays as it is (log 3). -/
def step (s : State) : Host.Outcome State Fault Refusal :=
  match s.port with
  | [] => .next s
  | h :: rest => performHost h { s with port := rest }

/-- The address of CMD (spec/10_state.md R33). -/
def cmdAddr : Addr := 0x000C#16

/-- `s` with a host write of the command word `w` as the access the next step performs (log 3). -/
def State.withFetchWord (s : State) (_nbits w : Nat) : State :=
  { s with port := (Access.write cmdAddr (BitVec.ofNat 32 w)).atBase s.base :: s.port }

end Sys2Proof.Machine
end

