-- ==== Sys2Proof/WellFormed.lean ====
section
/-! DEFINITION. Well-formedness of a command as a host program writes it (spec/30_encoding.md R109): the operands are
numbers of any size, and an assembler refuses the ones that do not fit their field. An `Instr` is what is left after
the check: its operands have the widths of their fields. -/

namespace Sys2Proof

/-- The command statements of R109, in the operand order written there. -/
inductive Command where
  /-- `NOTE_ON ts, note, vel`. -/
  | noteOn (ts note vel : Nat)
  /-- `NOTE_OFF ts, note, tail[, vel]`; `vel` defaults to 0. -/
  | noteOff (ts note tail : Nat) (vel : Nat := 0)
  /-- `RENDER n`. -/
  | render (n : Nat)
  /-- `PREPARE`. -/
  | prepare
  /-- `RESET_FILTERS`. -/
  | resetFilters
  /-- `RELEASE`. -/
  | release
  deriving DecidableEq, Repr

/-- The assembler's check (R109): it refuses ts > 4095, note > 127, vel > 127, tail > 1 and n > 65535. -/
def Command.wf : Command → Bool
  | .noteOn ts note vel => ts ≤ 4095 && note ≤ 127 && vel ≤ 127
  | .noteOff ts note tail vel => ts ≤ 4095 && note ≤ 127 && tail ≤ 1 && vel ≤ 127
  | .render n => n ≤ 65535
  | .prepare => true
  | .resetFilters => true
  | .release => true

/-- The command a statement's operand fields make, each field holding the low bits of its operand (R109:
`ts[11:0]`, `vel[6:0]`, `note[6:0]`, `n[15:0]`). -/
def Command.fields : Command → Instr
  | .noteOn ts note vel => .noteOn (BitVec.ofNat 12 ts) (BitVec.ofNat 7 vel) (BitVec.ofNat 7 note)
  | .noteOff ts note tail vel =>
      .noteOff (BitVec.ofNat 12 ts) (tail == 1) (BitVec.ofNat 7 vel) (BitVec.ofNat 7 note)
  | .render n => .render (BitVec.ofNat 16 n)
  | .prepare => .prepare
  | .resetFilters => .resetFilters
  | .release => .release

/-- The assembler: the command a well-formed statement stands for; an ill-formed one is refused (R109). -/
def Command.instr? (c : Command) : Option Instr :=
  if c.wf then some c.fields else none

end Sys2Proof
end

