-- ==== Sys2Proof/Machine/HostProgram.lean ====
section
/-! DEFINITION. Host programs as the spec writes them (spec/30_encoding.md R109, R110): statements and pseudo-instructions,
and the bus accesses each stands for, at offsets from the base (spec/20_memory.md R86). A program is loaded by putting its
accesses on the port, at the block's base address (log 3). -/

namespace Sys2Proof.Machine

/-- The index k of a parameter register (spec/10_state.md R40). -/
def Param.index : Param → Nat
  | .oscWaveType => 0
  | .real .fmFreq => 1
  | .real .fmDepth => 2
  | .real .attack => 3
  | .real .decay => 4
  | .real .sustain => 5
  | .real .release => 6
  | .real .modAttack => 7
  | .real .modDecay => 8
  | .real .modSustain => 9
  | .real .modRelease => 10
  | .filterType => 11
  | .real .filterFreq => 12
  | .real .filterRes => 13

/-- The byte address of a mapped word (spec/10_state.md R33). -/
def Reg.addr : Reg → Nat
  | .caps => 0x0000
  | .status => 0x0004
  | .err => 0x0008
  | .cmd => 0x000C
  | .prepSr => 0x0010
  | .prepBlock => 0x0014
  | .prepNch => 0x0018
  | .curSr => 0x0020
  | .curBlock => 0x0024
  | .curNch => 0x0028
  | .lastN => 0x002C
  | .param p => 0x0040 + 4 * p.index
  | .vstat v => 0x0100 + 4 * v
  | .out c i => outAddr c i

/-- The statements of a host program (R109), with the pseudo-instructions of R110. The operand of SETP on a real
parameter is the bit pattern that `f32(x)` names. -/
inductive HostStmt where
  /-- A command statement. -/
  | command (c : Command)
  /-- `WR reg, value`, by address. -/
  | wr (addr : Addr) (value : Word)
  /-- `RD reg`, by address. -/
  | rd (addr : Addr)
  /-- `SETP name, x` and `SETP name, k`. -/
  | setp (p : Param) (value : Word)
  /-- `CONFIG sr, blk, nch`. -/
  | config (sr blk nch : Word)
  /-- `CLRERR`. -/
  | clrErr
  /-- `PLAY note`. -/
  | play (note : Nat)
  /-- `STOP note`. -/
  | stop (note : Nat)
  /-- `KILL note`. -/
  | kill (note : Nat)
  deriving DecidableEq, Repr

/-- A write of a named register (R109). -/
def Reg.write (r : Reg) (w : Word) : Access := .write (BitVec.ofNat 16 r.addr) w

/-- The access of a command statement: a write of its word to CMD; none where an assembler refuses it (R109). -/
def commandAccess? (c : Command) : Option Access := c.instr?.map fun i => Reg.cmd.write (encode i)

/-- The accesses a statement stands for (R109, R110); none where an assembler refuses it. -/
def HostStmt.accesses? : HostStmt → Option (List Access)
  | .command c => (commandAccess? c).map ([·])
  | .wr addr value => some [.write addr value]
  | .rd addr => some [.read addr]
  | .setp p value => some [(Reg.param p).write value]
  | .config sr blk nch =>
      some [Reg.prepSr.write sr, Reg.prepBlock.write blk, Reg.prepNch.write nch, Reg.cmd.write (encode .prepare)]
  | .clrErr => some [Reg.err.write 0x000000FF#32]
  | .play note => (commandAccess? (.noteOn 0 note 100)).map ([·])
  | .stop note => (commandAccess? (.noteOff 0 note 1)).map ([·])
  | .kill note => (commandAccess? (.noteOff 0 note 0)).map ([·])

/-- The accesses of a program, in order; none where an assembler refuses one of its statements. -/
def assemble : List HostStmt → Option (List Access)
  | [] => some []
  | t :: ts => do
    let a ← t.accesses?
    let as ← assemble ts
    pure (a ++ as)

/-- A program loaded: its accesses, each at the base plus its offset, wait on the port after those already there
(log 3). -/
def State.load (s : State) (accesses : List Access) : State :=
  { s with port := s.port ++ accesses.map (Access.atBase s.base) }

end Sys2Proof.Machine
end

