-- ==== Sys2Proof/Safety.lean ====
section
/-! DEFINITION. What counts as a safe state and a safe run: the ranges the spec gives each item of state, and the one
fault. Each invariant is kept by every step of the machine, from any state that has it. -/

namespace Sys2Proof.Machine

/-! ## The open functions -/

/-- The range assumption on a sine function: `|sin(x)| <= 1` for every binary32 x (spec/42_oscillator.md R161). -/
def SinBounded (sin : F32 → F32) : Prop := ∀ x, F32.le (F32.abs (sin x)) F32.one = true

/-! ## Ranges -/

/-- `lo <= x <= hi` in the IEEE order; in particular `x` is no NaN. -/
def F32.Between (lo hi x : F32) : Prop := F32.le lo x = true ∧ F32.le x hi = true

/-- PREPARED and the configuration (spec/10_state.md R45); the last block is no longer than the largest. -/
def State.ConfigInv (s : State) : Prop :=
  if s.prepared then
    Config.srMin < s.curSr.toNat ∧ s.curSr.toNat ≤ Config.srMax ∧ 1 ≤ s.curBlock.toNat ∧
      s.curBlock.toNat ≤ Config.maxBlock ∧ (s.curNch = 1#32 ∨ s.curNch = 2#32) ∧
      s.lastN.toNat ≤ s.curBlock.toNat
  else s.curSr = 0#32 ∧ s.curBlock = 0#32 ∧ s.curNch = 0#32 ∧ s.lastN = 0#32

/-- NV lies in 1..16 (spec/00_scope.md R7). -/
def State.PoolInv (s : State) : Prop := 1 ≤ s.voices.length ∧ s.voices.length ≤ 16

/-- The queue holds at most EVQ_DEPTH events, each with its arrival position as `seq` (spec/10_state.md R46). -/
def State.QueueInv (s : State) : Prop :=
  s.evq.length ≤ Config.evqDepth ∧ ∀ (i : Nat) (e : Event), s.evq[i]? = some e → e.seq = i

/-- Every real parameter register lies in its range and holds no -0.0 (spec/10_state.md R40, R41). -/
def State.ParamInv (s : State) : Prop :=
  ∀ p : RealParam, F32.Between p.lo p.hi (s.params.get p) ∧ s.params.get p ≠ F32.negZero

/-- The output memory is canonical, lies in OUT, and every word at `i >= LAST_N` or `c >= CUR_NCH` is +0.0
(spec/10_state.md R47, spec/70_reset_and_hazards.md R341). -/
def State.OutInv (s : State) : Prop :=
  s.mem.wf ∧ (∀ c ∈ s.mem, 0x1000 ≤ c.1 ∧ c.1 < 0x9000) ∧
    ∀ c i, c < 2 → i < Config.maxBlock → s.curNch.toNat ≤ c ∨ s.lastN.toNat ≤ i → s.out c i = F32.zero

/-- The amplitude envelope goes with the voice state (spec/44_voice.md R224 items 1 to 3). -/
def Voice.ControlInv (v : Voice) : Prop :=
  match v.vstate with
  | .idle => v.amp.stage = .idle ∧ v.amp.level = F32.zero
  | .sounding => v.amp.stage = .attack ∨ v.amp.stage = .decay ∨ v.amp.stage = .sustain
  | .tailingOff => v.amp.stage = .release

/-- R224 items 1 to 3 of every voice. -/
def State.ControlInv (s : State) : Prop := ∀ v ∈ s.voices, v.ControlInv

/-- With two channels both integrator pairs of every voice are equal and both channels of OUT are equal word for word
(spec/43_filter.md R195, spec/44_voice.md R224 item 4). -/
def State.StereoInv (s : State) : Prop :=
  (s.prepared = true → s.curNch = 2#32) →
    (∀ v ∈ s.voices, v.filt.c0 = v.filt.c1) ∧ ∀ i, i < Config.maxBlock → s.out 0 i = s.out 1 i

/-- The envelope's ranges: levels in [0, 1], a running segment not past its end, and lengths at most 576000
(spec/10_state.md R51, spec/41_envelope.md R133, R145). -/
def Envelope.RangeInv (e : Envelope) : Prop :=
  F32.Between F32.zero F32.one e.level ∧ F32.Between F32.zero F32.one e.level0 ∧
    F32.Between RealParam.attack.lo RealParam.attack.hi e.a ∧ F32.Between RealParam.decay.lo RealParam.decay.hi e.d ∧
    F32.Between RealParam.sustain.lo RealParam.sustain.hi e.s ∧
    F32.Between RealParam.release.lo RealParam.release.hi e.r ∧ e.k ≤ e.n ∧ e.n ≤ 576000 ∧
    (e.stage = .attack ∨ e.stage = .decay ∨ e.stage = .release → e.k < e.n)

/-- The ranges of both envelopes of every voice. -/
def State.EnvelopeInv (s : State) : Prop := ∀ v ∈ s.voices, v.amp.RangeInv ∧ v.mod.RangeInv

/-- The oscillator's ranges (spec/10_state.md R50): phases in (-PI, PI], the FM offset in [-1000, 1000] Hz, the main
frequency non-negative and at most 12543.8535 + 1000 Hz (spec/42_oscillator.md R166). -/
def Oscillator.RangeInv (o : Oscillator) : Prop :=
  (F32.lt F32.negPi o.phi = true ∧ F32.le o.phi F32.pi = true) ∧
    (F32.lt F32.negPi o.phiFm = true ∧ F32.le o.phiFm F32.pi = true) ∧
    F32.Between F32.zero (F32.ofNat 1000) o.fmFreq ∧ F32.Between F32.zero (F32.ofNat 1000) o.fmDepth ∧
    F32.Between (F32.negate (F32.ofNat 1000)) (F32.ofNat 1000) o.fmOffset ∧
    F32.Between F32.zero (F32.add (noteHz 127#7) (F32.ofNat 1000)) o.f

/-- The ranges of every oscillator. -/
def State.OscillatorInv (s : State) : Prop := ∀ v ∈ s.voices, v.osc.RangeInv

/-! ## What a block adds to OUT -/

/-- The samples a buffer holds for channel c. -/
def Buffer.channel (b : Buffer) (c : Nat) : List F32 := if c = 0 then b.c0 else b.c1

/-- What voice `v` adds to `OUT[c][i]` in a block of `n` frames, as the machine's open functions make it: nothing while
Idle (spec/44_voice.md R211, R215 to R221). -/
def Voice.contribution? (s : State) (n c i : Nat) (v : Voice) : Option F32 :=
  if v.vstate = .idle then none
  else ((v.sound Config.sin32 Config.tan32 s.fs s.curNch.toNat n).2.channel c)[i]?

/-- `(...((+0.0 + y_0) + y_1) + ...)` over the voices in ascending index (spec/45_voice_pool.md R246). -/
def mixOf (s : State) (n c i : Nat) (vs : List Voice) : F32 :=
  (vs.filterMap (Voice.contribution? s n c i)).foldl F32.add F32.zero

/-- The error causes that a step sets newly. -/
def newErrors (s t : State) : List Err :=
  [Err.precond, .noFreeVoice, .badCmd, .badConfig, .badLen, .evqOvf, .badParam, .badAddr].filter fun e =>
    !s.err.getLsbD e.code && t.err.getLsbD e.code

/-! ## Safe runs -/

/-- The next step is a RENDER of an unprepared block: the one step that faults (spec/60_exceptions.md R301, R313). -/
def State.AtUnpreparedRender (s : State) : Prop :=
  s.prepared = false ∧ ∃ n rest, s.port = .write (s.base + 0x000C) (encode (.render n)) :: rest

end Sys2Proof.Machine
end

