-- ==== Sys2Proof/Certificates/Slice0/Obligations.lean ====
section
/-! DEFINITION. The statements about the CORE, each from the numbered rules of spec/ that its docstring names. -/

open Sys2Proof Sys2Proof.Machine

/-! ## Encoding and decoding -/

/-- Every command's word decodes to that command, with every operand at every value its field admits (R100 to R105). -/
def Obligations.EncodedCommandsDecode : Prop := ∀ i : Instr, decode (encode i) = .ok i

/-- A word that decodes is the encoding of its command, so no two words are one command (R100 to R105). -/
def Obligations.DecodedWordsAreEncodings : Prop := ∀ (w : Word) (i : Instr), decode w = .ok i → encode i = w

/-- R104: a word is the instruction of a row exactly when its bits under the row's mask are the row's match, and at
most one row matches any word. -/
def Obligations.OpcodeMapSelectsCommands : Prop :=
  (∀ w : Word,
    (w &&& 0xF0008080#32 = 0x10000000#32 ↔ ∃ ts vel note, decode w = .ok (.noteOn ts vel note)) ∧
    (w &&& 0xF0000080#32 = 0x20000000#32 ↔ ∃ ts tail vel note, decode w = .ok (.noteOff ts tail vel note)) ∧
    (w &&& 0xFFFF0000#32 = 0x30000000#32 ↔ ∃ n, decode w = .ok (.render n)) ∧
    (w &&& 0xFFFFFFFF#32 = 0x40000000#32 ↔ decode w = .ok .prepare) ∧
    (w &&& 0xFFFFFFFF#32 = 0x50000000#32 ↔ decode w = .ok .resetFilters) ∧
    (w &&& 0xFFFFFFFF#32 = 0x60000000#32 ↔ decode w = .ok .release)) ∧
  [(0x10000000#32, 0xF0008080#32), (0x20000000#32, 0xF0000080#32), (0x30000000#32, 0xFFFF0000#32),
    (0x40000000#32, 0xFFFFFFFF#32), (0x50000000#32, 0xFFFFFFFF#32), (0x60000000#32, 0xFFFFFFFF#32)].Pairwise
    fun r r' : Word × Word => ∀ w : Word, ¬(w &&& r.2 = r.1 ∧ w &&& r'.2 = r'.1)

/-- R107: exactly the words with opcode 0x0 or 0x7 to 0xF, a NOTE_ON word with bit 15 or bit 7 set, a NOTE_OFF word
with bit 7 set, a RENDER word with a bit of [27:16] set, and a PREPARE, RESET_FILTERS or RELEASE word with a bit of
[27:0] set are reserved; each raises BADCMD and does nothing else; every other word decodes. -/
def Obligations.ReservedWordsRaiseBadCmd : Prop :=
  ∀ (w : Word) (s : State),
    let op := (w.extractLsb' 28 4).toNat
    let reserved := op = 0 ∨ 7 ≤ op ∨
      (op = 1 ∧ (w.getLsbD 15 = true ∨ w.getLsbD 7 = true)) ∨ (op = 2 ∧ w.getLsbD 7 = true) ∨
      (op = 3 ∧ w.extractLsb' 16 12 ≠ 0#12) ∨ (4 ≤ op ∧ op ≤ 6 ∧ w.extractLsb' 0 28 ≠ 0#28)
    (reserved → perform (.write cmdAddr w) s = .next { s with err := s.err ||| 0x04#8 }) ∧
      (¬reserved → ∃ i, decode w = .ok i)

/-- The worked encodings of R110 and of 95_test_vectors.md section 8, decoded. -/
def Obligations.WorkedEncodingsDecode : Prop :=
  decode 0x10006445#32 = .ok (.noteOn 0 100 69) ∧ decode 0x10057F3C#32 = .ok (.noteOn 5 127 60) ∧
    decode 0x20008045#32 = .ok (.noteOff 0 true 0 69) ∧ decode 0x20000045#32 = .ok (.noteOff 0 false 0 69) ∧
    decode 0x30000200#32 = .ok (.render 512) ∧ decode 0x30000004#32 = .ok (.render 4) ∧
    decode 0x40000000#32 = .ok .prepare ∧ decode 0x50000000#32 = .ok .resetFilters ∧
    decode 0x60000000#32 = .ok .release ∧ decode 0x00000000#32 = .error .reservedOpcode ∧
    decode 0x70000000#32 = .error .reservedOpcode ∧ decode 0x40000001#32 = .error .reservedField

/-- The assembler of R109: a statement whose operands fit stands for the one command word that holds them side by
side; a statement with an operand that does not fit is refused. -/
def Obligations.AssemblerPlacesOperands : Prop :=
  (∀ ts note vel : Nat, ts ≤ 4095 → note ≤ 127 → vel ≤ 127 →
    ∃ i, (Command.noteOn ts note vel).instr? = some i ∧
      (encode i).toNat = 0x1 * 2 ^ 28 + ts * 2 ^ 16 + vel * 2 ^ 8 + note) ∧
  (∀ ts note tail vel : Nat, ts ≤ 4095 → note ≤ 127 → tail ≤ 1 → vel ≤ 127 →
    ∃ i, (Command.noteOff ts note tail vel).instr? = some i ∧
      (encode i).toNat = 0x2 * 2 ^ 28 + ts * 2 ^ 16 + tail * 2 ^ 15 + vel * 2 ^ 8 + note) ∧
  (∀ n : Nat, n ≤ 65535 →
    ∃ i, (Command.render n).instr? = some i ∧ (encode i).toNat = 0x3 * 2 ^ 28 + n) ∧
  (∀ ts note tail vel n : Nat,
    (ts > 4095 ∨ note > 127 ∨ vel > 127 → (Command.noteOn ts note vel).instr? = none) ∧
    (ts > 4095 ∨ note > 127 ∨ tail > 1 ∨ vel > 127 → (Command.noteOff ts note tail vel).instr? = none) ∧
    (n > 65535 → (Command.render n).instr? = none))

/-! ## Steps and accesses -/

/-- A step takes the oldest waiting access off the port and performs it; a write to CMD of a word that decodes executes
the command, to completion (R9, R85, R270). The port as a list, and a step with nothing waiting, are the model's own
choices (log 3). Every address of the spec is an offset from the base address, the parameter `base` (R86): a host access
at the base plus an offset of the 16-bit space is the block's access at that offset. That an access anywhere else, which
does not reach the block, changes nothing of it is the model's own choice too (log 15). -/
def Obligations.StepRunsDecodedCommand : Prop :=
  (∀ s : State, s.port = [] → step s = .next s) ∧
  (∀ (s : State) (rest : List HostAccess) (w : Word),
    (∀ off : Addr,
      (s.port = .read (s.base + off.toNat) :: rest → step s = perform (.read off) { s with port := rest }) ∧
      (s.port = .write (s.base + off.toNat) w :: rest → step s = perform (.write off w) { s with port := rest })) ∧
    (s.port = .reset :: rest → step s = perform .reset { s with port := rest }) ∧
    ∀ a : Nat, a < s.base ∨ s.base + 0xFFFF < a →
      s.port = .read a :: rest ∨ s.port = .write a w :: rest → step s = .next { s with port := rest }) ∧
  (∀ (s : State) (w : Word) (i : Instr) (rest : List HostAccess),
    s.port = .write (s.base + 0x000C) w :: rest → decode w = .ok i → step s = exec i { s with port := rest }) ∧
  ∀ (s : State) (i : Instr), step (s.withFetchWord 32 (encode i).toNat) = exec i s

/-- R313: the one fault is a RENDER of an unprepared block; every other step answers a next state, and none is
refused. -/
def Obligations.OnlyUnpreparedRenderFaults : Prop :=
  ∀ s : State,
    (s.AtUnpreparedRender → ∃ f, step s = .fault f) ∧ (¬s.AtUnpreparedRender → ∃ t, step s = .next t)

/-- R81: an aligned read of a mapped word returns its current value and changes nothing but the port's record of
returned words (the model's own field, log 4); a read of CMD returns 0. The 14 parameter registers stand at the addresses
of R40. -/
def Obligations.MappedReadsReturnRegisters : Prop :=
  ∀ s : State,
    perform (.read 0x0000#16) s = .next (s.respond (capsWord s.voices.length)) ∧
    perform (.read 0x0004#16) s = .next (s.respond (statusWord s.prepared s.evq.length s.voices)) ∧
    perform (.read 0x0008#16) s = .next (s.respond (0#24 ++ s.err)) ∧
    perform (.read 0x000C#16) s = .next (s.respond 0#32) ∧
    perform (.read 0x0010#16) s = .next (s.respond s.prepSr) ∧
    perform (.read 0x0014#16) s = .next (s.respond s.prepBlock) ∧
    perform (.read 0x0018#16) s = .next (s.respond s.prepNch) ∧
    perform (.read 0x0020#16) s = .next (s.respond s.curSr) ∧
    perform (.read 0x0024#16) s = .next (s.respond s.curBlock) ∧
    perform (.read 0x0028#16) s = .next (s.respond s.curNch) ∧
    perform (.read 0x002C#16) s = .next (s.respond s.lastN) ∧
    perform (.read 0x0040#16) s = .next (s.respond s.params.oscWaveType.code) ∧
    perform (.read 0x0044#16) s = .next (s.respond s.params.fmFreq) ∧
    perform (.read 0x0048#16) s = .next (s.respond s.params.fmDepth) ∧
    perform (.read 0x004C#16) s = .next (s.respond s.params.attack) ∧
    perform (.read 0x0050#16) s = .next (s.respond s.params.decay) ∧
    perform (.read 0x0054#16) s = .next (s.respond s.params.sustain) ∧
    perform (.read 0x0058#16) s = .next (s.respond s.params.release) ∧
    perform (.read 0x005C#16) s = .next (s.respond s.params.modAttack) ∧
    perform (.read 0x0060#16) s = .next (s.respond s.params.modDecay) ∧
    perform (.read 0x0064#16) s = .next (s.respond s.params.modSustain) ∧
    perform (.read 0x0068#16) s = .next (s.respond s.params.modRelease) ∧
    perform (.read 0x006C#16) s = .next (s.respond s.params.filterType.code) ∧
    perform (.read 0x0070#16) s = .next (s.respond s.params.filterFreq) ∧
    perform (.read 0x0074#16) s = .next (s.respond s.params.filterRes) ∧
    (∀ v, v < 16 → perform (.read (BitVec.ofNat 16 (0x100 + 4 * v))) s = .next (s.respond (s.vstat v))) ∧
    ∀ c i, c < 2 → i < 4096 →
      perform (.read (BitVec.ofNat 16 (0x1000 + 4 * (c * 4096 + i)))) s = .next (s.respond (s.out c i))

/-- R83 and R84: a misaligned access, or an access to an address the register map does not list, reads 0 or writes
nothing, and flags BADADDR; so does a write to a read-only word (R82: CAPS, STATUS, CUR_SR, CUR_BLOCK, CUR_NCH, LAST_N,
VSTAT, OUT). -/
def Obligations.BadAccessesFlagBadAddr : Prop :=
  (∀ (a : Addr) (w : Word) (s : State),
    (a.toNat % 4 ≠ 0 ∨
      ¬(a.toNat < 0x1C ∨ (0x20 ≤ a.toNat ∧ a.toNat < 0x30) ∨ (0x40 ≤ a.toNat ∧ a.toNat < 0x78) ∨
        (0x100 ≤ a.toNat ∧ a.toNat < 0x140) ∨ (0x1000 ≤ a.toNat ∧ a.toNat < 0x9000))) →
    perform (.read a) s = .next ({ s with err := s.err ||| 0x80#8 }.respond 0#32) ∧
      perform (.write a w) s = .next { s with err := s.err ||| 0x80#8 }) ∧
  ∀ (a : Addr) (w : Word) (s : State), a.toNat % 4 = 0 →
    a.toNat = 0x0 ∨ a.toNat = 0x4 ∨ (0x20 ≤ a.toNat ∧ a.toNat < 0x30) ∨
      (0x100 ≤ a.toNat ∧ a.toNat < 0x140) ∨ (0x1000 ≤ a.toNat ∧ a.toNat < 0x9000) →
    perform (.write a w) s = .next { s with err := s.err ||| 0x80#8 }

/-- A write to ERR clears the bits written as one, sets none, and changes nothing else (R36); a write to PREP_SR,
PREP_BLOCK or PREP_NCH stores all 32 bits and has no other effect (R38). -/
def Obligations.ErrAndPrepWrites : Prop :=
  ∀ (w : Word) (s : State),
    (∃ e : BitVec 8, perform (.write 0x0008#16 w) s = .next { s with err := e } ∧
      ∀ k, k < 8 → e.getLsbD k = (s.err.getLsbD k && !w.getLsbD k)) ∧
    perform (.write 0x0010#16 w) s = .next { s with prepSr := w } ∧
    perform (.write 0x0014#16 w) s = .next { s with prepBlock := w } ∧
    perform (.write 0x0018#16 w) s = .next { s with prepNch := w }

/-- R41: a write to a real parameter register stores the value clamped to its range, a zero as +0.0; a NaN leaves it
and flags BADPARAM; no other register changes. A read returns the stored bits. The 12 registers are listed with their
addresses and the bits of their bounds, as R40 gives them; which item of state each is, MappedReadsReturnRegisters says. -/
def Obligations.RealParameterWrite : Prop :=
  ∀ row ∈ ([(0x0044#16, .fmFreq, 0x00000000#32, 0x447A0000#32), (0x0048#16, .fmDepth, 0x00000000#32, 0x447A0000#32),
      (0x004C#16, .attack, 0x3DCCCCCD#32, 0x3F800000#32), (0x0050#16, .decay, 0x3DCCCCCD#32, 0x3F800000#32),
      (0x0054#16, .sustain, 0x3DCCCCCD#32, 0x3F800000#32), (0x0058#16, .release, 0x3DCCCCCD#32, 0x40400000#32),
      (0x005C#16, .modAttack, 0x3DCCCCCD#32, 0x3F800000#32), (0x0060#16, .modDecay, 0x3DCCCCCD#32, 0x3F800000#32),
      (0x0064#16, .modSustain, 0x3DCCCCCD#32, 0x3F800000#32), (0x0068#16, .modRelease, 0x3DCCCCCD#32, 0x40400000#32),
      (0x0070#16, .filterFreq, 0x41A00000#32, 0x469C4000#32), (0x0074#16, .filterRes, 0x3F800000#32, 0x41200000#32)] :
      List (Addr × RealParam × F32 × F32)),
  ∀ (w : Word) (s : State),
    let a := row.1; let p := row.2.1; let lo := row.2.2.1; let hi := row.2.2.2
    (F32.isNaN w = true → perform (.write a w) s = .next { s with err := s.err ||| 0x40#8 }) ∧
    (F32.isNaN w = false → ∃ ps : Params,
      perform (.write a w) s = .next { s with params := ps } ∧
        (let y := if F32.lt w lo then lo else if F32.lt hi w then hi else w
         ps.get p = if F32.mag y = 0 then 0x00000000#32 else y) ∧
        (∀ q, q ≠ p → ps.get q = s.params.get q) ∧ ps.oscWaveType = s.params.oscWaveType ∧
        ps.filterType = s.params.filterType) ∧
    perform (.read a) s = .next (s.respond (s.params.get p))

/-- R42: a write of 0, 1 or 2 to an enum parameter register stores it; any other value leaves it and flags BADPARAM. A
read returns the stored value, always 0, 1 or 2. R43: 0 is sine, 1 saw, 2 square; 0 is lowpass, 1 bandpass, 2 highpass. -/
def Obligations.EnumParameterWrite : Prop :=
  ∀ (w : Word) (s : State),
    perform (.write 0x0040#16 0#32) s = .next { s with params := { s.params with oscWaveType := .sine } } ∧
    perform (.write 0x0040#16 1#32) s = .next { s with params := { s.params with oscWaveType := .saw } } ∧
    perform (.write 0x0040#16 2#32) s = .next { s with params := { s.params with oscWaveType := .square } } ∧
    perform (.write 0x006C#16 0#32) s = .next { s with params := { s.params with filterType := .lowpass } } ∧
    perform (.write 0x006C#16 1#32) s = .next { s with params := { s.params with filterType := .bandpass } } ∧
    perform (.write 0x006C#16 2#32) s = .next { s with params := { s.params with filterType := .highpass } } ∧
    [Waveform.sine, .saw, .square].map Waveform.code = [0#32, 1#32, 2#32] ∧
    [FilterType.lowpass, .bandpass, .highpass].map FilterType.code = [0#32, 1#32, 2#32] ∧
    (2 < w.toNat →
      perform (.write 0x0040#16 w) s = .next { s with err := s.err ||| 0x40#8 } ∧
        perform (.write 0x006C#16 w) s = .next { s with err := s.err ||| 0x40#8 }) ∧
    perform (.read 0x0040#16) s = .next (s.respond s.params.oscWaveType.code) ∧
    perform (.read 0x006C#16) s = .next (s.respond s.params.filterType.code) ∧
    s.params.oscWaveType.code.toNat ≤ 2 ∧ s.params.filterType.code.toNat ≤ 2

/-! ## Computed words -/

/-- CAPS (R34): NV, EVQ_DEPTH and MAXBLOCK in their fields. STATUS (R35): PREPARED in bit 0, bits [7:1] zero, EVQ_COUNT
in [15:8], and bit 16 + v set exactly when voice v exists and is not Idle. -/
def Obligations.CapsAndStatusFields : Prop :=
  (∀ nv : Nat, 1 ≤ nv → nv ≤ 16 →
    ((capsWord nv).extractLsb' 0 8).toNat = nv ∧ ((capsWord nv).extractLsb' 8 8).toNat = 32 ∧
      ((capsWord nv).extractLsb' 16 16).toNat = 4096) ∧
  capsWord 5 = 0x10002005#32 ∧
  ∀ (prepared : Bool) (count : Nat) (vs : List Voice), count ≤ 32 → vs.length ≤ 16 →
    (statusWord prepared count vs).getLsbD 0 = prepared ∧
      (statusWord prepared count vs).extractLsb' 1 7 = 0#7 ∧
      ((statusWord prepared count vs).extractLsb' 8 8).toNat = count ∧
      ∀ v, v < 16 →
        ((statusWord prepared count vs).getLsbD (16 + v) = true ↔ ∃ x, vs[v]? = some x ∧ x.vstate ≠ .idle)

/-- R44: the fields of VSTAT[v] for v < NV and their codes, 0 for the others, the codes that never occur; a read returns
the word, and a write is ignored and flags BADADDR. -/
def Obligations.VoiceStatusFields : Prop :=
  ∀ (s : State) (v : Nat),
    (∀ x, s.voices[v]? = some x →
      (s.vstat v).extractLsb' 0 2 = x.vstate.code ∧ (s.vstat v).extractLsb' 2 3 = x.amp.stage.code ∧
        (s.vstat v).extractLsb' 5 3 = x.mod.stage.code ∧ (s.vstat v).extractLsb' 8 7 = x.note ∧
        (s.vstat v).extractLsb' 15 17 = 0#17) ∧
    (s.voices.length ≤ v → s.vstat v = 0#32) ∧
    (s.vstat v).extractLsb' 0 2 ≠ 3#2 ∧ ((s.vstat v).extractLsb' 2 3).toNat ≤ 4 ∧
    ((s.vstat v).extractLsb' 5 3).toNat ≤ 4 ∧
    [VState.idle, .sounding, .tailingOff].map VState.code = [0#2, 1#2, 2#2] ∧
    [Stage.idle, .attack, .decay, .sustain, .release].map Stage.code = [0#3, 1#3, 2#3, 3#3, 4#3] ∧
    (v < 16 → perform (.read (BitVec.ofNat 16 (0x100 + 4 * v))) s = .next (s.respond (s.vstat v)) ∧
      ∀ w, perform (.write (BitVec.ofNat 16 (0x100 + 4 * v)) w) s = .next { s with err := s.err ||| 0x80#8 })

/-! ## Reset -/

/-- R332, for every number of voices: after reset no voice sounds, the queue is empty, STATUS and ERR read 0, OUT reads
+0.0 everywhere, CAPS reads its constant, and the block does nothing until the host's first access. PREP_* read 44100,
512, 2, CUR_SR, CUR_BLOCK, CUR_NCH and LAST_N read 0, and the parameter registers read their reset bits (R40, R55).
Every voice is in the voice reset state, written out value by value (R55, R56), as it is after a PREPARE with legal
arguments (R271) and after a RELEASE (R273). -/
def Obligations.ResetReadsAsSpecified : Prop :=
  ∀ nv base : Nat, 1 ≤ nv → nv ≤ 16 →
    let s := State.resetN nv base
    let envelope : Envelope :=
      { stage := .idle, level := 0x00000000#32, a := 0x3DCCCCCD#32, d := 0x3DCCCCCD#32, s := 0x3F800000#32,
        r := 0x3DCCCCCD#32, level0 := 0x00000000#32, k := 0, n := 0 }
    let voice : Voice :=
      { vstate := .idle, note := 0#7,
        osc := { kind := .sine, f := 0x00000000#32, phi := 0x00000000#32, fmFreq := 0x00000000#32,
                 fmDepth := 0x00000000#32, phiFm := 0x00000000#32, fmOffset := 0x00000000#32 },
        amp := envelope, mod := envelope,
        filt := { fType := .lowpass, fBase := 0x469C4000#32, fRes := 0x3F800000#32, g := 0x00000000#32,
                  r2 := 0x00000000#32, h := 0x00000000#32, c0 := { s1 := 0x00000000#32, s2 := 0x00000000#32 },
                  c1 := { s1 := 0x00000000#32, s2 := 0x00000000#32 } } }
    s.voices = List.replicate nv voice ∧
      (∀ u : State,
        (configLegal u.prepSr u.prepBlock u.prepNch = true →
          ∃ t, exec .prepare u = .next t ∧ t.voices = List.replicate u.voices.length voice) ∧
        ∃ t, exec .release u = .next t ∧ t.voices = List.replicate u.voices.length voice) ∧
      s.voices.length = nv ∧ (∀ v ∈ s.voices, v.vstate = .idle) ∧ s.evq = [] ∧ step s = .next s ∧
      s.readReg .status = 0#32 ∧ s.readReg .err = 0#32 ∧ s.readReg .caps = capsWord nv ∧
      s.readReg .prepSr = 44100#32 ∧ s.readReg .prepBlock = 512#32 ∧ s.readReg .prepNch = 2#32 ∧
      s.readReg .curSr = 0#32 ∧ s.readReg .curBlock = 0#32 ∧ s.readReg .curNch = 0#32 ∧ s.readReg .lastN = 0#32 ∧
      (∀ c i, s.readReg (.out c i) = 0#32) ∧ (∀ v, s.readReg (.vstat v) = 0#32) ∧
      [s.readReg (.param .oscWaveType), s.readReg (.param (.real .fmFreq)), s.readReg (.param (.real .fmDepth)),
        s.readReg (.param (.real .attack)), s.readReg (.param (.real .decay)), s.readReg (.param (.real .sustain)),
        s.readReg (.param (.real .release)), s.readReg (.param (.real .modAttack)),
        s.readReg (.param (.real .modDecay)), s.readReg (.param (.real .modSustain)),
        s.readReg (.param (.real .modRelease)), s.readReg (.param .filterType),
        s.readReg (.param (.real .filterFreq)), s.readReg (.param (.real .filterRes))] =
      [0x00000000#32, 0x00000000#32, 0x00000000#32, 0x3DCCCCCD#32, 0x3DCCCCCD#32, 0x3F800000#32, 0x3DCCCCCD#32,
        0x3DCCCCCD#32, 0x3DCCCCCD#32, 0x3F800000#32, 0x3DCCCCCD#32, 0x00000000#32, 0x469C4000#32, 0x3F800000#32]

/-- The reset input puts every item in its reset state, whatever it held (R330, R55); what the port still holds and
has returned stays, and so do the number of voices and the base address (the model's own choice, log 14). -/
def Obligations.ResetInputRestoresReset : Prop :=
  ∀ s : State, perform .reset s =
    .next { State.resetN s.voices.length s.base with port := s.port, readData := s.readData }

/-! ## Note events -/

/-- R240: NOTE_ON, with its encoding, appends its event, with its arrival position, and changes nothing else; on a full queue it raises
EVQOVF and the event is dropped. -/
def Obligations.NoteOnQueuesEvent : Prop :=
  ∀ (ts : BitVec 12) (vel note : BitVec 7) (s : State),
    decode (0x1#4 ++ ts ++ 0#1 ++ vel ++ 0#1 ++ note) = .ok (.noteOn ts vel note) ∧
    (s.evq.length ≠ 32 → exec (.noteOn ts vel note) s = .next { s with
      evq := s.evq ++ [{ kind := .noteOn, ts := ts, note := note, vel := vel, tail := false, seq := s.evq.length }] }) ∧
    (s.evq.length = 32 → exec (.noteOn ts vel note) s = .next { s with err := s.err ||| 0x20#8 })

/-- R241: NOTE_OFF, with its encoding, appends its event with the allowTailOff bit, and changes nothing else; on a full queue it raises
EVQOVF and the event is dropped. -/
def Obligations.NoteOffQueuesEvent : Prop :=
  ∀ (ts : BitVec 12) (tail : Bool) (vel note : BitVec 7) (s : State),
    decode (0x2#4 ++ ts ++ BitVec.ofBool tail ++ vel ++ 0#1 ++ note) = .ok (.noteOff ts tail vel note) ∧
    (s.evq.length ≠ 32 → exec (.noteOff ts tail vel note) s = .next { s with
      evq := s.evq ++ [{ kind := .noteOff, ts := ts, note := note, vel := vel, tail := tail, seq := s.evq.length }] }) ∧
    (s.evq.length = 32 → exec (.noteOff ts tail vel note) s = .next { s with err := s.err ||| 0x20#8 })

/-- R242: a dispatched note-on goes to the Idle voice of the smallest index; with none Idle it is dropped. -/
def Obligations.NoteOnTakesLowestIdleVoice : Prop :=
  ∀ (fs : F32) (e : Event) (vs : List Voice), e.kind = .noteOn →
    (∀ (i : Nat) (v : Voice), vs[i]? = some v → v.vstate = .idle →
      (∀ (j : Nat) (u : Voice), j < i → vs[j]? = some u → u.vstate ≠ .idle) →
      dispatchEvent fs e vs = (vs.set i (v.noteOn fs e.note), false)) ∧
    ((∀ v ∈ vs, v.vstate ≠ .idle) → dispatchEvent fs e vs = (vs, true))

/-- R243: a dispatched note-off reaches every Sounding voice that plays its note, and no other voice. -/
def Obligations.NoteOffReachesBoundVoices : Prop :=
  ∀ (fs : F32) (e : Event) (vs : List Voice), e.kind = .noteOff →
    (dispatchEvent fs e vs).2 = false ∧ (dispatchEvent fs e vs).1.length = vs.length ∧
      ∀ (i : Nat) (v : Voice), vs[i]? = some v →
        (v.vstate = .sounding ∧ v.note = e.note →
          (dispatchEvent fs e vs).1[i]? = some (v.noteOff fs e.tail)) ∧
        (¬(v.vstate = .sounding ∧ v.note = e.note) → (dispatchEvent fs e vs).1[i]? = some v)

/-- The events of a RENDER are dispatched in ascending timestamp order, and in arrival order within a timestamp, each
once and each before the next (R244); NOFREEVOICE is due when any one of them was a dropped note-on, and does not stop
the others (R302). What one event does, NoteOnTakesLowestIdleVoice and NoteOffReachesBoundVoices say. -/
def Obligations.EventsDispatchInOrder : Prop :=
  (∀ es : List Event, (sortEvents es).Perm es ∧
    (sortEvents es).Pairwise fun a b => a.ts.toNat < b.ts.toNat ∨ (a.ts = b.ts ∧ a.seq ≤ b.seq)) ∧
  ∀ (fs : F32) (vs : List Voice),
    dispatch fs [] vs = (vs, false) ∧
    (∀ (e : Event) (es : List Event),
      let r := dispatchEvent fs e vs
      dispatch fs (e :: es) vs = ((dispatch fs es r.1).1, r.2 || (dispatch fs es r.1).2)) ∧
    ∀ es es' : List Event,
      let r := dispatch fs es vs
      dispatch fs (es ++ es') vs = ((dispatch fs es' r.1).1, r.2 || (dispatch fs es' r.1).2)

/-- The velocity of queued events has no effect on a block (R240 to R242, decision D18). -/
def Obligations.VelocityHasNoEffect : Prop :=
  ∀ (n : BitVec 16) (s : State) (f : Event → BitVec 7), s.prepared = true → 1 ≤ n.toNat →
    n.toNat ≤ s.curBlock.toNat →
    exec (.render n) { s with evq := s.evq.map fun e => { e with vel := f e } } = exec (.render n) s

/-! ## RENDER -/

/-- R301: a RENDER while PREPARED = 0 is a fault, on the way to which only ERR.PRECOND is set, whatever N is. R305: on a
prepared block a RENDER of 0 frames or of more than CUR_BLOCK raises BADLEN and changes nothing else. -/
def Obligations.IllegalRenders : Prop :=
  ∀ (n : BitVec 16) (s : State),
    (s.prepared = false → exec (.render n) s = .fault (.precond { s with err := s.err ||| 0x01#8 })) ∧
      (s.prepared = true → (n.toNat = 0 ∨ s.curBlock.toNat < n.toNat) →
        exec (.render n) s = .next { s with err := s.err ||| 0x10#8 })

/-- A RENDER of a legal length on a prepared block completes (R245): the voices are updated from the parameter
registers, the queue is dispatched and emptied, the voices render in order, LAST_N is N; ERR gains NOFREEVOICE exactly
when a note-on was dropped; every other item but OUT is unchanged, and OUT is RenderMixesVoicesInOrder's. The update of a
voice, whatever its state (R212): ATTACK to RELEASE configure the amplitude envelope and MOD_ATTACK to MOD_RELEASE the
modulation envelope (what a configure does, ConfigureRestartsOwnSegment says); FILTER_TYPE, FILTER_FREQ and FILTER_RES are
the filter's configuration (R190); OSC_WAVE_TYPE is the waveform (R160); FM_FREQ and FM_DEPTH are the FM parameters, and
the main frequency follows the note and the FM offset (R166); nothing else of the voice changes. -/
def Obligations.RenderCompletes : Prop :=
  ∀ (n : BitVec 16) (s : State), s.prepared = true → 1 ≤ n.toNat → n.toNat ≤ s.curBlock.toNat →
    let ps := s.params
    let update := fun v : Voice => { v with
      amp := v.amp.configure s.fs ps.attack ps.decay ps.sustain ps.release,
      mod := v.mod.configure s.fs ps.modAttack ps.modDecay ps.modSustain ps.modRelease,
      filt := { v.filt with fType := ps.filterType, fBase := ps.filterFreq, fRes := ps.filterRes },
      osc := { v.osc with kind := ps.oscWaveType, fmFreq := ps.fmFreq, fmDepth := ps.fmDepth,
                          f := F32.abs (F32.add (noteHz v.note) v.osc.fmOffset) } }
    s.dispatched = dispatch s.fs (sortEvents s.evq) (s.voices.map update) ∧
    ∃ t, exec (.render n) s = .next t ∧ t.evq = [] ∧ t.lastN.toNat = n.toNat ∧
      t.voices = s.dispatched.1.map
        (fun v => if v.vstate = .idle then v
          else (v.sound Config.sin32 Config.tan32 s.fs s.curNch.toNat n.toNat).1) ∧
      t.err = (if s.dispatched.2 then s.err ||| 0x02#8 else s.err) ∧
      t.prepared = s.prepared ∧ t.curSr = s.curSr ∧ t.curBlock = s.curBlock ∧ t.curNch = s.curNch ∧
      t.prepSr = s.prepSr ∧ t.prepBlock = s.prepBlock ∧ t.prepNch = s.prepNch ∧ t.params = s.params ∧
      t.base = s.base ∧ t.port = s.port ∧ t.readData = s.readData

/-- After a RENDER of n frames, OUT[c][i] for c < CUR_NCH and i < n is the sum of the active voices' contributions in
ascending voice order from +0.0, each addition rounded (R246), and every other word of OUT is +0.0 (R245, R47). -/
def Obligations.RenderMixesVoicesInOrder : Prop :=
  ∀ (n : BitVec 16) (s t : State), s.ConfigInv → s.prepared = true → 1 ≤ n.toNat →
    n.toNat ≤ s.curBlock.toNat → exec (.render n) s = .next t →
    ∀ c i, c < 2 → i < 4096 →
      t.out c i = if c < s.curNch.toNat ∧ i < n.toNat then mixOf s n.toNat c i s.dispatched.1 else 0x00000000#32

/-- Superposition of two active voices (R247), in a pool of any size with Idle voices before, between and after the two:
a block in which two voices sound is, word for word, the binary32 sum of the block with only the first and the block with
only the second, or both are NaN (a NaN's payload is open, log 6). -/
def Obligations.TwoVoicesSuperpose : Prop :=
  ∀ (n : BitVec 16) (s : State) (p q r : List Voice) (a b idle : Voice), s.ConfigInv → s.prepared = true →
    1 ≤ n.toNat → n.toNat ≤ s.curBlock.toNat → s.evq = [] → (∀ v ∈ p ++ q ++ r, v.vstate = .idle) →
    a.vstate ≠ .idle → b.vstate ≠ .idle → idle.vstate = .idle →
    ∃ t ta tb, exec (.render n) { s with voices := p ++ a :: (q ++ b :: r) } = .next t ∧
      exec (.render n) { s with voices := p ++ a :: (q ++ idle :: r) } = .next ta ∧
      exec (.render n) { s with voices := p ++ idle :: (q ++ b :: r) } = .next tb ∧
      ∀ c i, c < 2 → i < 4096 →
        let sum := F32.add (ta.out c i) (tb.out c i)
        t.out c i = sum ∨ (F32.isNaN (t.out c i) = true ∧ F32.isNaN sum = true)

/-! ## Lifecycle commands -/

/-- R271: PREPARE with legal arguments takes them, prepares the block, empties the queue, clears OUT and LAST_N, and
puts every voice in the voice reset state; with an illegal one it raises BADCONFIG and changes nothing else. -/
def Obligations.PrepareConfigures : Prop :=
  ∀ s : State,
    let legal := 40000 < s.prepSr.toNat ∧ s.prepSr.toNat ≤ 192000 ∧ 1 ≤ s.prepBlock.toNat ∧
      s.prepBlock.toNat ≤ 4096 ∧ (s.prepNch = 1#32 ∨ s.prepNch = 2#32)
    decode 0x40000000#32 = .ok .prepare ∧
    (legal → exec .prepare s = .next { s with
      curSr := s.prepSr, curBlock := s.prepBlock, curNch := s.prepNch, prepared := true, lastN := 0#32, evq := [],
      mem := [], voices := List.replicate s.voices.length Voice.reset }) ∧
    (¬legal → exec .prepare s = .next { s with err := s.err ||| 0x08#8 })

/-- A PREPARE that succeeds leaves the same state when it is issued again (R272). -/
def Obligations.PrepareIsIdempotent : Prop :=
  ∀ s : State, configLegal s.prepSr s.prepBlock s.prepNch = true →
    ∃ t, exec .prepare s = .next t ∧ exec .prepare t = .next t

/-- R273: RELEASE unprepares the block, empties the queue, clears OUT, CUR_* and LAST_N, and puts every voice in the
voice reset state, in every state; P, PREP_* and ERR are kept. -/
def Obligations.ReleaseClearsBlock : Prop :=
  ∀ s : State, decode 0x60000000#32 = .ok .release ∧ exec .release s = .next { s with
    prepared := false, curSr := 0#32, curBlock := 0#32, curNch := 0#32, lastN := 0#32, evq := [], mem := [],
    voices := List.replicate s.voices.length Voice.reset }

/-- R274: RESET_FILTERS clears both integrators of both channels of every voice and changes nothing else. -/
def Obligations.ResetFiltersClearsIntegrators : Prop :=
  ∀ s : State, decode 0x50000000#32 = .ok .resetFilters ∧ exec .resetFilters s = .next { s with
    voices := s.voices.map fun v => { v with
      filt := { v.filt with c0 := { s1 := 0x00000000#32, s2 := 0x00000000#32 },
                            c1 := { s1 := 0x00000000#32, s2 := 0x00000000#32 } } } }

/-! ## The voice -/

/-- R213 and R214: a voice's note-on; and its note-off, a release with allowTailOff on an active amplitude envelope, else
silence at once. R134: a release starts a segment from the current level, of the length of the release time; an idle
envelope stays as it is. -/
def Obligations.VoiceNoteEvents : Prop :=
  (∀ (fs : F32) (note : BitVec 7) (v : Voice),
    v.noteOn fs note = { v with
      vstate := .sounding, note := note,
      osc := { v.osc with f := F32.abs (F32.add (noteHz note) v.osc.fmOffset), phi := 0x00000000#32,
                          phiFm := 0x00000000#32 },
      amp := { v.amp with stage := .attack, level0 := v.amp.level, k := 0, n := nsamp fs v.amp.a },
      mod := { v.mod with stage := .attack, level0 := v.mod.level, k := 0, n := nsamp fs v.mod.a } }) ∧
  (∀ (fs : F32) (e : Envelope), (e.stage = .idle → e.noteOff fs = e) ∧
    (e.stage ≠ .idle → e.noteOff fs = { e with stage := .release, level0 := e.level, k := 0, n := nsamp fs e.r })) ∧
  ∀ (fs : F32) (tail : Bool) (v : Voice),
    (tail = true → v.amp.stage ≠ .idle →
      v.noteOff fs tail = { v with
        vstate := .tailingOff,
        amp := { v.amp with stage := .release, level0 := v.amp.level, k := 0, n := nsamp fs v.amp.r },
        mod := if v.mod.stage = .idle then v.mod
          else { v.mod with stage := .release, level0 := v.mod.level, k := 0, n := nsamp fs v.mod.r } }) ∧
    (tail = false ∨ v.amp.stage = .idle →
      v.noteOff fs tail = { v with
        vstate := .idle,
        amp := { v.amp with stage := .idle, level := 0x00000000#32, level0 := 0x00000000#32, k := 0, n := 0 },
        mod := { v.mod with stage := .idle, level := 0x00000000#32, level0 := 0x00000000#32, k := 0, n := 0 } })

/-- What a sounding voice does in a block (R215 to R223): the modulator is the last of n + 1 samples of the modulation
envelope; sample i of a channel is the oscillator's i-th sample times the amplitude envelope's i-th level, filtered
through the channel's own integrators, times the gain; a voice whose amplitude envelope ends is Idle. -/
def Obligations.VoiceBlock : Prop :=
  ∀ (sin tan : F32 → F32) (fs : F32) (nch n : Nat) (v : Voice), nch = 1 ∨ nch = 2 →
    ∃ m, (Envelope.samples fs (n + 1) v.mod).2[n]? = some m ∧
      let r := v.sound sin tan fs nch n
      let q := v.filt.set tan fs m
      let x := List.zipWith F32.mul (v.osc.render sin fs n).2 (Envelope.samples fs n v.amp).2
      r.1.mod = (Envelope.samples fs (n + 1) v.mod).1 ∧ r.1.osc = (v.osc.render sin fs n).1 ∧
        r.1.amp = (Envelope.samples fs n v.amp).1 ∧
        r.1.filt = { q with c0 := (q.processChannel q.c0 x).1,
                            c1 := if nch = 2 then (q.processChannel q.c1 x).1 else q.c1 } ∧
        r.1.note = v.note ∧ r.1.vstate = (if r.1.amp.stage = .idle then .idle else v.vstate) ∧
        r.2.c0 = (q.processChannel q.c0 x).2.map (fun y => F32.mul y 0x3E99999A#32) ∧
        r.2.c1 = if nch = 2 then (q.processChannel q.c1 x).2.map (fun y => F32.mul y 0x3E99999A#32) else []

/-- R211 and R225 item 1: an Idle voice does nothing in a block and adds nothing to OUT; a voice that has been cut by a
note-off without tail-off is Idle. -/
def Obligations.IdleVoicesAreSilent : Prop :=
  ∀ (sin tan : F32 → F32) (fs : F32) (nch n : Nat) (v : Voice) (out : Buffer),
    (v.vstate = .idle → v.renderBlock sin tan fs nch n out = (v, out)) ∧
      (v.noteOff fs false).renderBlock sin tan fs nch n out = (v.noteOff fs false, out)

/-! ## The envelope -/

/-- R130: the stage transitions, and only these. -/
def Obligations.EnvelopeStageTransitions : Prop :=
  ∀ (fs a d s r : F32) (e : Envelope),
    (e.noteOn fs).stage = .attack ∧ e.forceIdle.stage = .idle ∧
      (e.stage ≠ .idle → (e.noteOff fs).stage = .release) ∧ (e.stage = .idle → e.noteOff fs = e) ∧
      (e.configure fs a d s r).stage = e.stage ∧
      ((e.nextSample fs).1.stage = e.stage ∨
        (e.stage = .attack ∧ (e.nextSample fs).1.stage = .decay) ∨
        (e.stage = .decay ∧ (e.nextSample fs).1.stage = .sustain) ∨
        (e.stage = .release ∧ (e.nextSample fs).1.stage = .idle))

/-- The per-sample steps of the five stages (R139 to R143), with the segment level of R138. -/
def Obligations.EnvelopeSampleSteps : Prop :=
  ∀ (fs : F32) (e : Envelope),
    let seg := fun t : F32 => F32.clamp (F32.add e.level0 (F32.div (F32.mul (F32.sub t e.level0)
      (F32.ofNat (e.k + 1))) (F32.ofNat e.n))) 0x00000000#32 0x3F800000#32
    (e.stage = .idle → e.nextSample fs = (e, 0x00000000#32)) ∧
    (e.stage = .attack →
      (e.n ≤ e.k + 1 ∨ F32.le 0x3F800000#32 (seg 0x3F800000#32) = true →
        e.nextSample fs = ({ e with stage := .decay, level := 0x3F800000#32, level0 := 0x3F800000#32, k := 0,
                                    n := nsamp fs e.d }, 0x3F800000#32)) ∧
      (¬(e.n ≤ e.k + 1 ∨ F32.le 0x3F800000#32 (seg 0x3F800000#32) = true) →
        e.nextSample fs = ({ e with k := e.k + 1, level := seg 0x3F800000#32 }, seg 0x3F800000#32))) ∧
    (e.stage = .decay →
      (e.n ≤ e.k + 1 ∨ F32.le (seg e.s) e.s = true →
        e.nextSample fs = ({ e with stage := .sustain, level := e.s, k := e.k + 1 }, e.s)) ∧
      (¬(e.n ≤ e.k + 1 ∨ F32.le (seg e.s) e.s = true) →
        e.nextSample fs = ({ e with k := e.k + 1, level := seg e.s }, seg e.s))) ∧
    (e.stage = .sustain → e.nextSample fs = ({ e with level := e.s }, e.s)) ∧
    (e.stage = .release →
      (e.n ≤ e.k + 1 ∨ F32.le (seg 0x00000000#32) 0x00000000#32 = true →
        e.nextSample fs = ({ e with stage := .idle, level := 0x00000000#32, k := e.k + 1 }, 0x00000000#32)) ∧
      (¬(e.n ≤ e.k + 1 ∨ F32.le (seg 0x00000000#32) 0x00000000#32 = true) →
        e.nextSample fs = ({ e with k := e.k + 1, level := seg 0x00000000#32 }, seg 0x00000000#32)))

/-- A note-on's attack returns exactly 1.0, and enters decay, on a sample no later than nsamp(A) (R140, R145 item 2). -/
def Obligations.AttackReachesPeak : Prop :=
  ∀ (fs : F32) (e : Envelope), ∃ j, 1 ≤ j ∧ j ≤ nsamp fs e.a ∧
    (Envelope.samples fs j (e.noteOn fs)).2[j - 1]? = some 0x3F800000#32 ∧
    (Envelope.samples fs j (e.noteOn fs)).1.stage = .decay ∧
    ∀ m, m < j → (Envelope.samples fs m (e.noteOn fs)).1.stage = .attack

/-- A note-off of an active envelope returns exactly 0.0, and goes idle, on a sample no later than nsamp(R) (R143, R145
item 4). -/
def Obligations.ReleaseReachesIdle : Prop :=
  ∀ (fs : F32) (e : Envelope), e.stage ≠ .idle → ∃ j, 1 ≤ j ∧ j ≤ nsamp fs e.r ∧
    (Envelope.samples fs j (e.noteOff fs)).2[j - 1]? = some 0x00000000#32 ∧
    (Envelope.samples fs j (e.noteOff fs)).1.isActive = false ∧
    ∀ m, m < j → (Envelope.samples fs m (e.noteOff fs)).1.isActive = true

/-- A configure with the held values changes nothing; one that changes a parameter of the current stage restarts that
stage's segment from the current level; any other only stores its values (R131). The length of a segment is its time in
samples, rounded to the nearest count with halves to even, and at least 1 (R133). -/
def Obligations.ConfigureRestartsOwnSegment : Prop :=
  ∀ (fs a d s r : F32) (e : Envelope),
    let held := { e with a := a, d := d, s := s, r := r }
    (e.stage = .attack → F32.eq a e.a = false → e.configure fs a d s r =
      { held with level0 := e.level, k := 0, n := nsamp fs a }) ∧
    (e.stage = .decay → (F32.eq d e.d = false ∨ F32.eq s e.s = false) → e.configure fs a d s r =
      { held with level0 := e.level, k := 0, n := nsamp fs d }) ∧
    (e.stage = .release → F32.eq r e.r = false → e.configure fs a d s r =
      { held with level0 := e.level, k := 0, n := nsamp fs r }) ∧
    ((e.stage = .attack → F32.eq a e.a = true) → (e.stage = .decay → F32.eq d e.d = true ∧ F32.eq s e.s = true) →
      (e.stage = .release → F32.eq r e.r = true) → e.configure fs a d s r = held) ∧
    (nsamp fs a : Int) = max 1 (F32.rint (F32.mul a fs)) ∧
    nsamp (F32.ofNat 44100) 0x3DCCCCCD#32 = 4410 ∧ nsamp (F32.ofNat 40001) 0x3F000000#32 = 20000

/-! ## The oscillator -/

/-- The notes of the lowest octave and A4 have the frequencies of R162, and each octave doubles exactly. -/
def Obligations.NoteFrequencies : Prop :=
  ((List.range 12).map fun n => noteHz (BitVec.ofNat 7 n)) =
      [0x4102D013#32, 0x410A9760#32, 0x4112D517#32, 0x411B9041#32, 0x4124D054#32, 0x412E9D37#32, 0x4138FF49#32,
        0x4143FF6A#32, 0x414FA700#32, 0x415C0000#32, 0x416914F6#32, 0x4176F110#32] ∧
    noteHz 69#7 = 0x43DC0000#32 ∧
    ∀ n, n + 12 < 128 → noteHz (BitVec.ofNat 7 (n + 12)) = F32.mul 0x40000000#32 (noteHz (BitVec.ofNat 7 n))

/-- The wrap of a phase of at most PI + 2.1275 lies in (-PI, PI]: the phase itself, or the phase less TWO_PI (R163). -/
def Obligations.WrapStaysInDomain : Prop :=
  ∀ t : F32, F32.lt F32.negPi t = true → F32.le t (F32.add F32.pi 0x400828F6#32) = true →
    F32.lt F32.negPi (wrap t) = true ∧ F32.le (wrap t) F32.pi = true ∧
      wrap t = if F32.le t F32.pi then t else F32.sub t F32.twoPi

/-- A block of the oscillator (R168, R169): sample i is the waveform (WaveformFunctions) at the i-th phase; both phases advance by
increments fixed for the block; the FM offset is left by the last frame; the frequency does not change. -/
def Obligations.OscillatorBlock : Prop :=
  ∀ (sin : F32 → F32) (fs : F32) (n : Nat) (o : Oscillator),
    let phi := fun i : Nat => (fun x => wrap (F32.add x (F32.div (F32.mul F32.twoPi o.f) fs)))^[i] o.phi
    let phiFm := fun i : Nat => (fun x => wrap (F32.add x (F32.div (F32.mul F32.twoPi o.fmFreq) fs)))^[i] o.phiFm
    (o.render sin fs n).2 = (List.range n).map (fun i => wave sin o.kind (phi i)) ∧
      (o.render sin fs n).1 = { o with
        phi := phi n, phiFm := phiFm n,
        fmOffset := if n = 0 then o.fmOffset else F32.mul (sin (phiFm (n - 1))) o.fmDepth }

/-- The main frequency is the absolute value of the note's frequency plus the FM offset, so never negative (R165, R166,
R171); with an offset of +0.0 or -0.0 it is the note's frequency, and a block with FM depth +0.0 and a bounded sine
leaves such an offset (R170). -/
def Obligations.MainFrequencyFolds : Prop :=
  (∀ (o : Oscillator) (note : BitVec 7) (freq depth : F32),
    (o.setFrequency note).f = F32.abs (F32.add (noteHz note) o.fmOffset) ∧
      o.setFmParams note freq depth = { o with
        fmFreq := freq, fmDepth := depth, f := F32.abs (F32.add (noteHz note) o.fmOffset) } ∧
      ((o.setFrequency note).f).msb = false ∧
      (F32.mag o.fmOffset = 0 → (o.setFrequency note).f = noteHz note)) ∧
  ∀ (sin : F32 → F32) (fs : F32) (n : Nat) (o : Oscillator), SinBounded sin → o.fmDepth = 0x00000000#32 → 1 ≤ n →
    F32.mag (o.render sin fs n).1.fmOffset = 0

/-! ## The filter -/

/-- R192 to R194: the block's coefficients, each operation rounded in the order written, nothing else of the filter
changed; the recurrence, and the tap the topology selects; the integrators do not depend on the tap. -/
def Obligations.FilterArithmetic : Prop :=
  (∀ (tan : F32 → F32) (fs m : F32) (q : Filter),
    let fc := F32.clamp (F32.mul q.fBase m) 0x41A00000#32 0x469C4000#32
    let g := tan (F32.div (F32.mul 0x40490FDB#32 fc) fs)
    let r2 := F32.div 0x3F800000#32 q.fRes
    q.set tan fs m = { q with
      g := g, r2 := r2,
      h := F32.div 0x3F800000#32 (F32.add (F32.add 0x3F800000#32 (F32.mul r2 g)) (F32.mul g g)) }) ∧
  ∀ (q : Filter) (p : Integrators) (x : F32),
    let yHP := F32.mul q.h (F32.sub (F32.sub x (F32.mul p.s1 (F32.add q.g q.r2))) p.s2)
    let yBP := F32.add (F32.mul yHP q.g) p.s1
    let yLP := F32.add (F32.mul yBP q.g) p.s2
    (q.sample p x).1 = { s1 := F32.add (F32.mul yHP q.g) yBP, s2 := F32.add (F32.mul yBP q.g) yLP } ∧
      (q.fType = .lowpass → (q.sample p x).2 = yLP) ∧ (q.fType = .bandpass → (q.sample p x).2 = yBP) ∧
      (q.fType = .highpass → (q.sample p x).2 = yHP)

/-- R191: the effective cutoff of a legal base and modulator lies in [20, 20000]; with modulator 1.0 it is the base,
with modulator +0.0 it is 20. -/
def Obligations.CutoffStaysInRange : Prop :=
  ∀ fBase m : F32, F32.Between 0x41A00000#32 0x469C4000#32 fBase → F32.Between 0x00000000#32 0x3F800000#32 m →
    F32.Between 0x41A00000#32 0x469C4000#32 (cutoff fBase m) ∧ cutoff fBase 0x3F800000#32 = fBase ∧
      cutoff fBase 0x00000000#32 = 0x41A00000#32

/-- A filter at rest with no input stays at rest and puts out exactly +0.0 on every tap, for finite coefficients with
h not negative (R195, R196). -/
def Obligations.FilterSilentAtRest : Prop :=
  ∀ (q : Filter) (n : Nat), F32.isFinite q.g = true → F32.isFinite (F32.add q.g q.r2) = true →
    F32.isFinite q.h = true → q.h.msb = false →
    q.processChannel Integrators.rest (List.replicate n 0x00000000#32) =
      (Integrators.rest, List.replicate n 0x00000000#32)

/-! ## Whole-machine rules -/

/-- No command writes a parameter register or a PREP register, or changes the number of voices (R212, R249, R271, R273,
R314); nor does it change the port, its record or the base, which are the model's own fields (logs 3, 4 and 15). -/
def Obligations.CommandsKeepHostRegisters : Prop :=
  ∀ (i : Instr) (s t : State), exec i s = .next t →
    t.params = s.params ∧ t.prepSr = s.prepSr ∧ t.prepBlock = s.prepBlock ∧ t.prepNch = s.prepNch ∧
      t.voices.length = s.voices.length ∧ t.base = s.base ∧ t.port = s.port ∧ t.readData = s.readData

/-- A set ERR bit stays set until a write to ERR or a reset (R36, R312). -/
def Obligations.ErrorBitsAreSticky : Prop :=
  ∀ (a : Access) (s t : State), perform a s = .next t → a ≠ .reset → (∀ w, a ≠ .write 0x0008#16 w) →
    ∀ k, s.err.getLsbD k = true → t.err.getLsbD k = true

/-- No command reads an ERR bit: from states that differ only in ERR a command answers states that differ only in ERR,
and the bits it sets are the same in all of them (R53, R312). -/
def Obligations.ErrorBitsSteerNoCommand : Prop :=
  ∀ (i : Instr) (s t : State), exec i s = .next t →
    ∃ d : BitVec 8, t.err = s.err ||| d ∧ ∀ e, exec i { s with err := e } = .next { t with err := e ||| d }

/-- R309: one access sets at most one error bit newly; of the commands only RENDER sets NOFREEVOICE. -/
def Obligations.OneErrorPerAccess : Prop :=
  ∀ (a : Access) (s t : State), perform a s = .next t →
    (newErrors s t).length ≤ 1 ∧
      (.noFreeVoice ∈ newErrors s t → ∃ n, a = .write 0x000C#16 (encode (.render n)))

/-! ## Invariants of every step -/

/-- Every step keeps PREPARED and the configuration consistent (R45). -/
def Obligations.StepKeepsConfiguration : Prop :=
  ∀ s t : State, s.ConfigInv → step s = .next t → t.ConfigInv

/-- Every step keeps the queue within its capacity with its arrival positions (R46), and the number of voices, so that
it stays in 1..16 (R7, R249); it keeps the base address, the model's own field (log 15). -/
def Obligations.StepKeepsQueueAndPool : Prop :=
  ∀ s t : State, step s = .next t →
    (s.QueueInv → t.QueueInv) ∧ (s.PoolInv → t.PoolInv) ∧ t.voices.length = s.voices.length ∧ t.base = s.base

/-- Every step keeps every real parameter register in its legal range (R40, R41). -/
def Obligations.StepKeepsParameters : Prop :=
  ∀ s t : State, s.ParamInv → step s = .next t → t.ParamInv

/-- Every step keeps the voice state and the amplitude envelope in agreement (R224 items 1 to 3). -/
def Obligations.StepKeepsVoiceControl : Prop :=
  ∀ s t : State, s.ControlInv → step s = .next t → t.ControlInv

/-- Every step keeps every unused word of OUT at +0.0 (R47, R341), and the list of OUT's bytes in canonical form, which
is the model's own way to hold OUT (log 9). -/
def Obligations.StepKeepsOutputMemory : Prop :=
  ∀ s t : State, s.ConfigInv → s.OutInv → step s = .next t → t.OutInv

/-- Every step keeps the two channels identical, bit for bit, while the block has two (R224 item 4). -/
def Obligations.StepKeepsStereoIdentical : Prop :=
  ∀ s t : State, s.ConfigInv → s.StereoInv → step s = .next t → t.StereoInv

/-- Every step keeps every envelope level in [0, 1] and every segment in range (R51, R145 item 1). -/
def Obligations.StepKeepsEnvelopeRanges : Prop :=
  ∀ s t : State, s.ConfigInv → s.ParamInv → s.EnvelopeInv → step s = .next t → t.EnvelopeInv

/-- A RENDER with a bounded sine, and every other step, keeps both phases of every voice in (-PI, PI], its FM offset in
[-1000, 1000] and its frequency in range (R50, R163, R172). The bound on the sine is the assumption R161 names; the
machine's own RENDER is the one with the two open functions of Config. -/
def Obligations.StepKeepsOscillatorRanges : Prop :=
  (∀ (sin tan : F32 → F32) (n : BitVec 16) (s t : State), SinBounded sin → s.ConfigInv → s.ParamInv →
    s.OscillatorInv → renderWith sin tan n s = .next t → t.OscillatorInv) ∧
  (∀ s t : State, s.OscillatorInv → (∀ n rest, s.port ≠ .write (s.base + 0x000C) (encode (.render n)) :: rest) →
    step s = .next t → t.OscillatorInv) ∧
  ∀ (n : BitVec 16) (s : State), exec (.render n) s = renderWith Config.sin32 Config.tan32 n s

/-- Every invariant holds after reset, for every number of voices (R55), of which R7 allows 1 to 16. -/
def Obligations.ResetMeetsInvariants : Prop :=
  ∀ nv base : Nat, let s := State.resetN nv base
    (1 ≤ nv → nv ≤ 16 → s.PoolInv) ∧ s.ConfigInv ∧ s.QueueInv ∧ s.ParamInv ∧ s.ControlInv ∧ s.OutInv ∧
      s.StereoInv ∧ s.EnvelopeInv ∧ s.OscillatorInv

/-! ## The waveforms -/

/-- The waveform functions (R161): sine is SIN32, saw is the phase over PI, square is -1.0 below zero and +1.0 elsewhere,
at -0.0 too. Of a phase in (-PI, PI] every value lies in [-1, 1], and the saw above -1.0 with 1.0 at PI. The bound on the
sine is the assumption R161 names. -/
def Obligations.WaveformFunctions : Prop :=
  (∀ (sin : F32 → F32) (x : F32),
    wave sin .sine x = sin x ∧ wave sin .saw x = F32.div x 0x40490FDB#32 ∧
      wave sin .square x = if F32.lt x 0x00000000#32 then 0xBF800000#32 else 0x3F800000#32) ∧
  (∀ sin : F32 → F32, wave sin .square 0x00000000#32 = 0x3F800000#32 ∧ wave sin .square 0x80000000#32 = 0x3F800000#32 ∧
    wave sin .saw 0x40490FDB#32 = 0x3F800000#32 ∧ wave sin .saw 0x3D80634A#32 = 0x3CA377EE#32) ∧
  ∀ (sin : F32 → F32) (kind : Waveform) (x : F32), SinBounded sin → F32.lt 0xC0490FDB#32 x = true →
    F32.le x 0x40490FDB#32 = true →
    F32.Between 0xBF800000#32 0x3F800000#32 (wave sin kind x) ∧
      (kind = .saw → F32.lt 0xBF800000#32 (wave sin kind x) = true)
end

