-- ==== Sys2Proof/Laws/Float.lean ====
section
/-! SUPPORT. The laws of the binary32 operations: rounding is exact on representable values and monotone, so that a
bound on the exact result is a bound on the rounded one. -/

-- Kernel evaluations one after another: side by side they need more threads than the memory limit allows.
set_option Elab.async false

namespace Sys2Proof.Machine.F32

/-! ## Patterns -/

theorem mag_lt (x : F32) : mag x < 2 ^ 31 := by
  unfold mag; exact Nat.mod_lt _ (by norm_num)

theorem neg?_eq (x : F32) : neg? x = decide (2 ^ 31 ≤ x.toNat) := by
  simp [neg?, BitVec.msb_eq_decide]

@[simp] theorem mag_ofMag (s : Bool) {m : Nat} (h : m < 2 ^ 31) : mag (ofMag s m) = m := by
  unfold mag ofMag
  cases s <;> simp <;> omega

@[simp] theorem neg?_ofMag (s : Bool) {m : Nat} (h : m < 2 ^ 31) : neg? (ofMag s m) = s := by
  rw [neg?_eq]
  unfold ofMag
  cases s <;> simp <;> omega

theorem ofMag_neg?_mag (x : F32) : ofMag (neg? x) (mag x) = x := by
  apply BitVec.eq_of_toNat_eq
  rw [neg?_eq]
  unfold ofMag mag
  have := x.isLt
  by_cases h : 2 ^ 31 ≤ x.toNat
  · simp only [decide_eq_true h, if_true, BitVec.toNat_ofNat]; omega
  · simp only [decide_eq_false h, Bool.false_eq_true, if_false, BitVec.toNat_ofNat]; omega

/-- A pattern is its sign and its magnitude. -/
theorem ext_mag {x y : F32} (hs : neg? x = neg? y) (hm : mag x = mag y) : x = y := by
  rw [← ofMag_neg?_mag x, ← ofMag_neg?_mag y, hs, hm]

theorem isFinite_iff (x : F32) : isFinite x = true ↔ mag x < infMag := by simp [isFinite]

theorem not_isNaN_of_isFinite {x : F32} (h : isFinite x) : isNaN x = false := by
  simp [isFinite, isNaN] at *; omega

theorem not_isInf_of_isFinite {x : F32} (h : isFinite x) : isInf x = false := by
  simp [isFinite, isInf] at *; omega

/-! ## Units -/

/-- The value of the magnitude bits that rounding makes: `n * 2^k` units for a 24-bit `n`, or the carry out of one. -/
theorem unitsOf_code {k n : Nat} (hlo : k = 0 ∨ 2 ^ 23 ≤ n) (hhi : n ≤ 2 ^ 24) :
    unitsOf (k * 2 ^ 23 + n) = n * 2 ^ k := by
  unfold unitsOf
  by_cases h0 : k * 2 ^ 23 + n < 2 ^ 23
  · have : k = 0 := by omega
    subst this; simp at *; omega
  · rw [if_neg h0]
    by_cases h1 : n < 2 ^ 24
    · have hn : 2 ^ 23 ≤ n := by omega
      have e1 : (k * 2 ^ 23 + n) / 2 ^ 23 = k + 1 := by omega
      have e2 : (k * 2 ^ 23 + n) % 2 ^ 23 = n - 2 ^ 23 := by omega
      rw [e1, e2]
      rw [Nat.add_sub_of_le hn, Nat.add_sub_cancel]
    · have hn : n = 2 ^ 24 := by omega
      have e1 : (k * 2 ^ 23 + n) / 2 ^ 23 = k + 2 := by omega
      have e2 : (k * 2 ^ 23 + n) % 2 ^ 23 = 0 := by omega
      rw [e1, e2, hn]
      have : k + 2 - 1 = k + 1 := by omega
      rw [this, pow_succ]; ring

/-- Every magnitude has the form that `unitsOf_code` speaks of. -/
theorem exists_code (m : Nat) : ∃ k n, m = k * 2 ^ 23 + n ∧ (k = 0 ∨ 2 ^ 23 ≤ n) ∧ n < 2 ^ 24 := by
  by_cases h : m < 2 ^ 23
  · exact ⟨0, m, by omega, by omega, by omega⟩
  · exact ⟨m / 2 ^ 23 - 1, m % 2 ^ 23 + 2 ^ 23, by omega, by omega, by omega⟩

theorem unitsOf_succ_lt (m : Nat) : unitsOf m < unitsOf (m + 1) := by
  obtain ⟨k, n, rfl, hlo, hhi⟩ := exists_code m
  rw [unitsOf_code hlo (by omega), Nat.add_assoc, unitsOf_code (by omega) (by omega)]
  exact Nat.mul_lt_mul_of_pos_right (by omega) (by positivity)

theorem unitsOf_strictMono : StrictMono unitsOf := strictMono_nat_of_lt_succ unitsOf_succ_lt

theorem unitsOf_le_iff {a b : Nat} : unitsOf a ≤ unitsOf b ↔ a ≤ b := unitsOf_strictMono.le_iff_le

theorem unitsOf_lt_iff {a b : Nat} : unitsOf a < unitsOf b ↔ a < b := unitsOf_strictMono.lt_iff_lt

@[simp] theorem unitsOf_zero : unitsOf 0 = 0 := by decide +kernel

theorem unitsOf_eq_zero {m : Nat} : unitsOf m = 0 ↔ m = 0 := by
  constructor
  · intro h; by_contra hm
    have := unitsOf_lt_iff.2 (Nat.pos_of_ne_zero hm)
    omega
  · rintro rfl; exact unitsOf_zero

/-! ## Rounding -/

theorem nearestEven_le {num den m : Nat} (hd : 0 < den) (h : num ≤ m * den) : nearestEven num den ≤ m := by
  unfold nearestEven
  have hq : num / den ≤ m := Nat.div_le_of_le_mul (by rw [Nat.mul_comm]; exact h)
  have hr := Nat.div_add_mod num den
  have hlt := Nat.mod_lt num hd
  rcases Nat.lt_or_eq_of_le hq with hlt' | heq
  · simp only; split <;> omega
  · have : num % den = 0 := by
      have : den * (num / den) = m * den := by rw [heq, Nat.mul_comm]
      omega
    simp only [this]; rw [if_neg (by omega)]; omega

theorem le_nearestEven {num den m : Nat} (hd : 0 < den) (h : m * den ≤ num) : m ≤ nearestEven num den := by
  unfold nearestEven
  have hq : m ≤ num / den := (Nat.le_div_iff_mul_le hd).2 h
  simp only; split <;> omega

/-- What rounding makes: a 24-bit number (or the carry out of one) at the exponent of the exact value. -/
theorem roundMag_code {num den : Nat} (hd : 0 < den) :
    ∃ k n, roundMag num den = min (k * 2 ^ 23 + n) infMag ∧ n = nearestEven num (den * 2 ^ k) ∧
      (k = 0 ∨ 2 ^ 23 * (den * 2 ^ k) ≤ num) ∧ num < 2 ^ 24 * (den * 2 ^ k) := by
  refine ⟨(num / den).log2 - 23, _, by unfold roundMag; simp only [Nat.mul_comm], rfl, ?_, ?_⟩
  · by_cases h : (num / den).log2 ≤ 23
    · left; omega
    · right
      have hq : num / den ≠ 0 := by
        intro h0; rw [h0] at h; simp [Nat.log2] at h
      have := Nat.log2_self_le hq
      have h2 : 2 ^ (num / den).log2 * den ≤ num := (Nat.le_div_iff_mul_le hd).1 this
      have h3 : 2 ^ (num / den).log2 = 2 ^ 23 * 2 ^ ((num / den).log2 - 23) := by
        rw [← pow_add]; congr 1; omega
      rw [h3] at h2
      calc _ = 2 ^ 23 * 2 ^ ((num / den).log2 - 23) * den := by ring
        _ ≤ num := h2
  · have h1 : num / den < 2 ^ ((num / den).log2 + 1) := Nat.lt_log2_self
    have h2 : (2 : Nat) ^ ((num / den).log2 + 1) ≤ 2 ^ (24 + ((num / den).log2 - 23)) :=
      Nat.pow_le_pow_right (by norm_num) (by omega)
    have h3 : num < 2 ^ (24 + ((num / den).log2 - 23)) * den :=
      (Nat.div_lt_iff_lt_mul hd).1 (lt_of_lt_of_le h1 h2)
    rw [pow_add] at h3
    calc num < _ := h3
      _ = _ := by ring

/-- An upper bound on the exact value bounds the rounded one. -/
theorem roundMag_le {num den b : Nat} (hd : 0 < den) (h : num ≤ unitsOf b * den) : roundMag num den ≤ b := by
  obtain ⟨k, n, hr, hn, hlo, hhi⟩ := roundMag_code (num := num) hd
  have hdk : 0 < den * 2 ^ k := by positivity
  have hn24 : n ≤ 2 ^ 24 := hn ▸ nearestEven_le hdk hhi.le
  have hn23 : k = 0 ∨ 2 ^ 23 ≤ n := hlo.imp_right fun h => hn ▸ le_nearestEven hdk h
  rw [hr]
  refine (Nat.min_le_left _ _).trans ?_
  by_contra hb
  have hb' : b ≤ k * 2 ^ 23 + n - 1 := by omega
  have hu := unitsOf_le_iff.2 hb'
  by_cases hc : k = 0 ∨ 2 ^ 23 < n
  · have e : k * 2 ^ 23 + n - 1 = k * 2 ^ 23 + (n - 1) := by omega
    rw [e, unitsOf_code (by omega) (by omega)] at hu
    have h1 : num ≤ (n - 1) * (den * 2 ^ k) := by
      calc num ≤ unitsOf b * den := h
        _ ≤ (n - 1) * 2 ^ k * den := Nat.mul_le_mul_right _ hu
        _ = _ := by ring
    have := nearestEven_le hdk h1
    omega
  · have hn' : n = 2 ^ 23 := by omega
    have hlo' := hlo.resolve_left (by omega)
    have h1 : unitsOf b < n * 2 ^ k := by
      rw [← unitsOf_code hn23 hn24]; exact unitsOf_lt_iff.2 (by omega)
    have h2 : unitsOf b * den < n * 2 ^ k * den := Nat.mul_lt_mul_of_pos_right h1 hd
    have h3 : n * 2 ^ k * den = 2 ^ 23 * (den * 2 ^ k) := by rw [hn']; ring
    omega

/-- A finite lower bound on the exact value bounds the rounded one. -/
theorem le_roundMag {num den b : Nat} (hd : 0 < den) (hb : b ≤ infMag) (h : unitsOf b * den ≤ num) :
    b ≤ roundMag num den := by
  obtain ⟨k, n, hr, hn, hlo, hhi⟩ := roundMag_code (num := num) hd
  have hdk : 0 < den * 2 ^ k := by positivity
  have hn24 : n ≤ 2 ^ 24 := hn ▸ nearestEven_le hdk hhi.le
  have hn23 : k = 0 ∨ 2 ^ 23 ≤ n := hlo.imp_right fun h => hn ▸ le_nearestEven hdk h
  rw [hr]
  refine le_min ?_ hb
  by_contra hc
  by_cases hn' : n = 2 ^ 24
  · have hu := unitsOf_le_iff.2 (show k * 2 ^ 23 + n ≤ b by omega)
    rw [unitsOf_code hn23 hn24, hn'] at hu
    have : 2 ^ 24 * 2 ^ k * den ≤ num := (Nat.mul_le_mul_right _ hu).trans h
    have e : 2 ^ 24 * 2 ^ k * den = 2 ^ 24 * (den * 2 ^ k) := by ring
    omega
  · have hu := unitsOf_le_iff.2 (show k * 2 ^ 23 + (n + 1) ≤ b by omega)
    rw [unitsOf_code (by omega) (by omega)] at hu
    have h1 : (n + 1) * (den * 2 ^ k) ≤ num := by
      calc (n + 1) * (den * 2 ^ k) = (n + 1) * 2 ^ k * den := by ring
        _ ≤ unitsOf b * den := Nat.mul_le_mul_right _ hu
        _ ≤ num := h
    have := le_nearestEven hdk h1
    omega

/-- Rounding is exact on a representable value. -/
theorem roundMag_unitsOf {den m : Nat} (hd : 0 < den) (hm : m ≤ infMag) : roundMag (unitsOf m * den) den = m :=
  le_antisymm (roundMag_le hd le_rfl) (le_roundMag hd hm le_rfl)

theorem roundMag_le_infMag (num den : Nat) : roundMag num den ≤ infMag := by
  unfold roundMag; exact Nat.min_le_right _ _

theorem roundMag_lt (num den : Nat) : roundMag num den < 2 ^ 31 :=
  (roundMag_le_infMag num den).trans_lt (by decide)

theorem not_isNaN_round (s : Bool) (num den : Nat) : isNaN (ofMag s (roundMag num den)) = false := by
  simp only [isNaN, mag_ofMag s (roundMag_lt num den), decide_eq_false_iff_not, Nat.not_lt]
  exact roundMag_le_infMag num den

/-! ## Order -/

theorem toInt_of_pos {x : F32} (h : neg? x = false) : toInt x = unitsOf (mag x) := by simp [toInt, h]

theorem toInt_of_neg {x : F32} (h : neg? x = true) : toInt x = -(unitsOf (mag x) : Int) := by simp [toInt, h]

theorem natAbs_toInt (x : F32) : (toInt x).natAbs = unitsOf (mag x) := by
  cases h : neg? x <;> simp [toInt, h]

/-- On values that are no NaN, `le` compares signed magnitudes. -/
theorem le_iff_key {x y : F32} (hx : isNaN x = false) (hy : isNaN y = false) : le x y = true ↔ key x ≤ key y := by
  simp [le, hx, hy]

/-- The order of finite values is the order of their units. -/
theorem key_le_iff_toInt (x y : F32) : key x ≤ key y ↔ toInt x ≤ toInt y := by
  have hx := @unitsOf_le_iff (mag x) (mag y)
  have hy := @unitsOf_le_iff (mag y) (mag x)
  have zx := @unitsOf_eq_zero (mag x)
  have zy := @unitsOf_eq_zero (mag y)
  unfold key toInt
  cases neg? x <;> cases neg? y <;> simp only [if_true, if_false, Bool.false_eq_true] <;> omega

theorem le_iff_toInt {x y : F32} (hx : isFinite x) (hy : isFinite y) : le x y = true ↔ toInt x ≤ toInt y := by
  rw [le_iff_key (not_isNaN_of_isFinite hx) (not_isNaN_of_isFinite hy), key_le_iff_toInt]

theorem lt_iff_toInt {x y : F32} (hx : isFinite x) (hy : isFinite y) : lt x y = true ↔ toInt x < toInt y := by
  have h := key_le_iff_toInt y x
  simp only [lt, not_isNaN_of_isFinite hx, not_isNaN_of_isFinite hy, Bool.not_false, Bool.true_and, Bool.and_self,
    decide_eq_true_eq]
  omega

theorem le_trans {x y z : F32} (h1 : le x y) (h2 : le y z) : le x z := by
  simp only [le, Bool.and_eq_true, decide_eq_true_eq] at *
  exact ⟨⟨h1.1.1, h2.1.2⟩, h1.2.trans h2.2⟩

theorem le_antisymm_key {x y : F32} (h1 : le x y) (h2 : le y x) : key x = key y := by
  simp [le] at *; omega

/-- A value between two finite ones is finite. -/
theorem isFinite_of_le {x lo hi : F32} (hlo : isFinite lo) (hhi : isFinite hi) (h1 : le lo x) (h2 : le x hi) :
    isFinite x := by
  have a := mag_lt x
  simp only [le, isFinite, isNaN, key, Bool.and_eq_true, Bool.not_eq_true', decide_eq_false_iff_not,
    decide_eq_true_eq] at *
  obtain ⟨-, h1⟩ := h1
  obtain ⟨-, h2⟩ := h2
  cases hx : neg? x <;> cases hl : neg? lo <;> cases hh : neg? hi <;> simp [hx, hl, hh] at h1 h2 <;> omega

/-! ## Signed rounding -/

/-- What an operation makes of an exact result of `z / den` units with sign `s`. -/
theorem round_le {z : Int} {den : Nat} {s : Bool} {b : F32} (hd : 0 < den) (hs : s = true → z ≤ 0)
    (hs' : s = false → 0 ≤ z) (hb : isFinite b) (h : z ≤ toInt b * den) :
    le (ofMag s (roundMag z.natAbs den)) b = true := by
  have hr := roundMag_lt z.natAbs den
  have hi := roundMag_le_infMag z.natAbs den
  have hbm : mag b ≤ infMag := by simp [isFinite] at hb; omega
  rw [le_iff_key (not_isNaN_round s z.natAbs den) (not_isNaN_of_isFinite hb)]
  unfold key
  rw [neg?_ofMag _ hr, mag_ofMag _ hr]
  cases s with
  | false =>
    have hz := hs' rfl
    cases hn : neg? b with
    | false =>
      rw [toInt_of_pos hn] at h
      have : z.natAbs ≤ unitsOf (mag b) * den := by zify; rw [abs_of_nonneg hz]; exact h
      have := roundMag_le hd this
      simp; omega
    | true =>
      rw [toInt_of_neg hn] at h
      have h0 : unitsOf (mag b) = 0 := by
        by_contra hne
        have : 0 < (unitsOf (mag b) : Int) * den := by positivity
        nlinarith
      have hz0 : z = 0 := by rw [h0] at h; simp at h; omega
      have hm0 := unitsOf_eq_zero.1 h0
      have := roundMag_le (num := z.natAbs) (den := den) (b := 0) hd (by simp [hz0])
      simp [hm0]; omega
  | true =>
    have hz := hs rfl
    cases hn : neg? b with
    | false => simp
    | true =>
      rw [toInt_of_neg hn] at h
      have : unitsOf (mag b) * den ≤ z.natAbs := by
        zify; rw [abs_of_nonpos hz]; linarith
      have := le_roundMag hd hbm this
      simp; omega

theorem le_round {z : Int} {den : Nat} {s : Bool} {b : F32} (hd : 0 < den) (hs : s = true → z ≤ 0)
    (hs' : s = false → 0 ≤ z) (hb : isFinite b) (h : toInt b * den ≤ z) :
    le b (ofMag s (roundMag z.natAbs den)) = true := by
  have hr := roundMag_lt z.natAbs den
  have hi := roundMag_le_infMag z.natAbs den
  have hbm : mag b ≤ infMag := by simp [isFinite] at hb; omega
  rw [le_iff_key (not_isNaN_of_isFinite hb) (not_isNaN_round s z.natAbs den)]
  unfold key
  rw [neg?_ofMag _ hr, mag_ofMag _ hr]
  cases s with
  | true =>
    have hz := hs rfl
    cases hn : neg? b with
    | true =>
      rw [toInt_of_neg hn] at h
      have : z.natAbs ≤ unitsOf (mag b) * den := by zify; rw [abs_of_nonpos hz]; linarith
      have := roundMag_le hd this
      simp; omega
    | false =>
      rw [toInt_of_pos hn] at h
      have h0 : unitsOf (mag b) = 0 := by
        by_contra hne
        have : 0 < (unitsOf (mag b) : Int) * den := by positivity
        nlinarith
      have hz0 : z = 0 := by rw [h0] at h; simp at h; omega
      have hm0 := unitsOf_eq_zero.1 h0
      have := roundMag_le (num := z.natAbs) (den := den) (b := 0) hd (by simp [hz0])
      simp [hm0]; omega
  | false =>
    have hz := hs' rfl
    cases hn : neg? b with
    | true => simp
    | false =>
      rw [toInt_of_pos hn] at h
      have : unitsOf (mag b) * den ≤ z.natAbs := by
        zify; rw [abs_of_nonneg hz]; exact h
      have := le_roundMag hd hbm this
      simp; omega

/-! ## The operations on finite values -/

@[simp] theorem mag_negate (x : F32) : mag (negate x) = mag x := by
  unfold negate; exact mag_ofMag _ (mag_lt x)

@[simp] theorem neg?_negate (x : F32) : neg? (negate x) = !neg? x := by
  unfold negate; exact neg?_ofMag _ (mag_lt x)

@[simp] theorem mag_abs (x : F32) : mag (abs x) = mag x := by
  unfold abs; exact mag_ofMag _ (mag_lt x)

@[simp] theorem neg?_abs (x : F32) : neg? (abs x) = false := by
  unfold abs; exact neg?_ofMag _ (mag_lt x)

theorem toInt_negate (x : F32) : toInt (negate x) = -toInt x := by
  cases h : neg? x <;> simp [toInt, h]

theorem toInt_abs (x : F32) : toInt (abs x) = |toInt x| := by
  cases h : neg? x <;> simp [toInt, h]

theorem isFinite_negate {x : F32} (h : isFinite x) : isFinite (negate x) := by simpa [isFinite] using h

theorem isFinite_abs {x : F32} (h : isFinite x) : isFinite (abs x) := by simpa [isFinite] using h

/-- The sum of finite values is a signed rounding of the exact sum. -/
theorem addNum_eq_round {inv x y : F32} (hx : isFinite x) (hy : isFinite y) :
    ∃ s : Bool, addNum inv x y = ofMag s (roundMag (toInt x + toInt y).natAbs 1) ∧
      (s = true → toInt x + toInt y ≤ 0) ∧ (s = false → 0 ≤ toInt x + toInt y) := by
  have hz : roundMag 0 1 = 0 := by decide +kernel
  unfold addNum
  simp only [not_isInf_of_isFinite hx, not_isInf_of_isFinite hy, Bool.false_eq_true, if_false]
  by_cases h0 : toInt x + toInt y = 0
  · rw [if_pos h0, h0]
    refine ⟨neg? x && neg? y, ?_, by simp, by simp⟩
    rw [Int.natAbs_zero, hz]
    cases neg? x <;> cases neg? y <;> decide +kernel
  · rw [if_neg h0]
    exact ⟨_, rfl, by simp; omega, by simp⟩

theorem add_eq_round {x y : F32} (hx : isFinite x) (hy : isFinite y) :
    ∃ s : Bool, add x y = ofMag s (roundMag (toInt x + toInt y).natAbs 1) ∧
      (s = true → toInt x + toInt y ≤ 0) ∧ (s = false → 0 ≤ toInt x + toInt y) := by
  unfold add
  simp only [not_isNaN_of_isFinite hx, not_isNaN_of_isFinite hy, Bool.or_self, Bool.false_eq_true, if_false]
  exact addNum_eq_round hx hy

theorem sub_eq_round {x y : F32} (hx : isFinite x) (hy : isFinite y) :
    ∃ s : Bool, sub x y = ofMag s (roundMag (toInt x - toInt y).natAbs 1) ∧
      (s = true → toInt x - toInt y ≤ 0) ∧ (s = false → 0 ≤ toInt x - toInt y) := by
  unfold sub
  simp only [not_isNaN_of_isFinite hx, not_isNaN_of_isFinite hy, Bool.or_self, Bool.false_eq_true, if_false]
  have h := addNum_eq_round (inv := nan .sub x y) hx (isFinite_negate hy)
  rwa [toInt_negate] at h

theorem mul_eq_round {x y : F32} (hx : isFinite x) (hy : isFinite y) :
    ∃ s : Bool, mul x y = ofMag s (roundMag (toInt x * toInt y).natAbs (2 ^ 149)) ∧
      (s = true → toInt x * toInt y ≤ 0) ∧ (s = false → 0 ≤ toInt x * toInt y) := by
  refine ⟨neg? x != neg? y, ?_, ?_, ?_⟩
  · unfold mul
    simp only [not_isNaN_of_isFinite hx, not_isNaN_of_isFinite hy, not_isInf_of_isFinite hx,
      not_isInf_of_isFinite hy, Bool.or_self, Bool.false_eq_true, if_false]
    rw [Int.natAbs_mul, natAbs_toInt, natAbs_toInt]
  · cases h1 : neg? x <;> cases h2 : neg? y <;> simp [toInt, h1, h2] <;> positivity
  · cases h1 : neg? x <;> cases h2 : neg? y <;> simp [toInt, h1, h2] <;> positivity

/-- The quotient by a finite positive divisor. -/
theorem div_eq_round {x y : F32} (hx : isFinite x) (hy : isFinite y) (hpos : 0 < toInt y) :
    ∃ s : Bool, div x y = ofMag s (roundMag (toInt x * 2 ^ 149).natAbs (toInt y).natAbs) ∧
      (s = true → toInt x * 2 ^ 149 ≤ 0) ∧ (s = false → 0 ≤ toInt x * 2 ^ 149) := by
  have hn : neg? y = false := by
    cases h : neg? y
    · rfl
    · rw [toInt_of_neg h] at hpos; omega
  have hm : mag y ≠ 0 := by
    intro h; rw [toInt_of_pos hn, h] at hpos; simp at hpos
  refine ⟨neg? x, ?_, ?_, ?_⟩
  · unfold div
    simp only [not_isNaN_of_isFinite hx, not_isNaN_of_isFinite hy, not_isInf_of_isFinite hx,
      not_isInf_of_isFinite hy, Bool.or_self, Bool.false_eq_true, if_false, if_neg hm]
    rw [Int.natAbs_mul, natAbs_toInt, natAbs_toInt, hn]
    simp [Nat.mul_comm]
  · intro h; rw [toInt_of_neg h]; have : (0 : Int) ≤ unitsOf (mag x) := by positivity
    nlinarith
  · intro h; rw [toInt_of_pos h]; positivity

/-- Monotone bounds: an exact bound on the operands bounds the rounded result. -/
theorem add_le {x y b : F32} (hx : isFinite x) (hy : isFinite y) (hb : isFinite b)
    (h : toInt x + toInt y ≤ toInt b) : le (add x y) b := by
  obtain ⟨s, e, h1, h2⟩ := add_eq_round hx hy
  rw [e]; exact round_le one_pos h1 h2 hb (by simpa using h)

theorem le_add {x y b : F32} (hx : isFinite x) (hy : isFinite y) (hb : isFinite b)
    (h : toInt b ≤ toInt x + toInt y) : le b (add x y) := by
  obtain ⟨s, e, h1, h2⟩ := add_eq_round hx hy
  rw [e]; exact le_round one_pos h1 h2 hb (by simpa using h)

theorem sub_le {x y b : F32} (hx : isFinite x) (hy : isFinite y) (hb : isFinite b)
    (h : toInt x - toInt y ≤ toInt b) : le (sub x y) b := by
  obtain ⟨s, e, h1, h2⟩ := sub_eq_round hx hy
  rw [e]; exact round_le one_pos h1 h2 hb (by simpa using h)

theorem le_sub {x y b : F32} (hx : isFinite x) (hy : isFinite y) (hb : isFinite b)
    (h : toInt b ≤ toInt x - toInt y) : le b (sub x y) := by
  obtain ⟨s, e, h1, h2⟩ := sub_eq_round hx hy
  rw [e]; exact le_round one_pos h1 h2 hb (by simpa using h)

theorem mul_le {x y b : F32} (hx : isFinite x) (hy : isFinite y) (hb : isFinite b)
    (h : toInt x * toInt y ≤ toInt b * 2 ^ 149) : le (mul x y) b := by
  obtain ⟨s, e, h1, h2⟩ := mul_eq_round hx hy
  rw [e]; exact round_le (by positivity) h1 h2 hb (by exact_mod_cast h)

theorem le_mul {x y b : F32} (hx : isFinite x) (hy : isFinite y) (hb : isFinite b)
    (h : toInt b * 2 ^ 149 ≤ toInt x * toInt y) : le b (mul x y) := by
  obtain ⟨s, e, h1, h2⟩ := mul_eq_round hx hy
  rw [e]; exact le_round (by positivity) h1 h2 hb (by exact_mod_cast h)

theorem div_le {x y b : F32} (hx : isFinite x) (hy : isFinite y) (hb : isFinite b) (hpos : 0 < toInt y)
    (h : toInt x * 2 ^ 149 ≤ toInt b * toInt y) : le (div x y) b := by
  obtain ⟨s, e, h1, h2⟩ := div_eq_round hx hy hpos
  rw [e]
  refine round_le (by omega) h1 h2 hb ?_
  rwa [Int.natCast_natAbs, abs_of_pos hpos]

theorem le_div {x y b : F32} (hx : isFinite x) (hy : isFinite y) (hb : isFinite b) (hpos : 0 < toInt y)
    (h : toInt b * toInt y ≤ toInt x * 2 ^ 149) : le b (div x y) := by
  obtain ⟨s, e, h1, h2⟩ := div_eq_round hx hy hpos
  rw [e]
  refine le_round (by omega) h1 h2 hb ?_
  rwa [Int.natCast_natAbs, abs_of_pos hpos]

/-- A clamp of a value that is no NaN lies between its bounds. -/
theorem clamp_mem {x lo hi : F32} (hx : isNaN x = false) (hlo : isFinite lo) (hhi : isFinite hi)
    (h : le lo hi) : le lo (clamp x lo hi) ∧ le (clamp x lo hi) hi := by
  have nlo := not_isNaN_of_isFinite hlo
  have nhi := not_isNaN_of_isFinite hhi
  rw [le_iff_key nlo nhi] at h
  unfold clamp
  by_cases h1 : key x < key lo
  · rw [if_pos (by simp [lt, hx, nlo, h1]), le_iff_key nlo nlo, le_iff_key nlo nhi]
    exact ⟨le_rfl, h⟩
  · rw [if_neg (by simp [lt, h1])]
    by_cases h2 : key hi < key x
    · rw [if_pos (by simp [lt, hx, nhi, h2]), le_iff_key nlo nhi, le_iff_key nhi nhi]
      exact ⟨h, le_rfl⟩
    · rw [if_neg (by simp [lt, h2]), le_iff_key nlo hx, le_iff_key hx nhi]
      omega

theorem le_refl {x : F32} (hx : isNaN x = false) : le x x := by simp [le, hx]

theorem eq_refl {x : F32} (hx : isNaN x = false) : eq x x := by simp [eq, hx]

/-! ## Conversions -/

/-- The magnitude bits of a whole number up to 2^24 hold it exactly. -/
theorem exists_mag_of_le {k : Nat} (hk : k ≤ 2 ^ 24) : ∃ m, m < infMag ∧ unitsOf m = k * 2 ^ 149 := by
  rcases Nat.eq_zero_or_pos k with rfl | hpos
  · exact ⟨0, by decide, by simp⟩
  · by_cases h24 : k = 2 ^ 24
    · exact ⟨0x4B800000, by decide +kernel, by rw [h24]; decide +kernel⟩
    · have hlt : k < 2 ^ 24 := by omega
      have hl : k.log2 < 24 := (Nat.log2_lt (by omega)).2 hlt
      have h1 := Nat.log2_self_le (n := k) (by omega)
      have h2 := Nat.lt_log2_self (n := k)
      have e : 2 ^ (23 - k.log2) * 2 ^ k.log2 = 2 ^ 23 := by rw [← pow_add]; congr 1; omega
      refine ⟨(126 + k.log2) * 2 ^ 23 + k * 2 ^ (23 - k.log2), ?_, ?_⟩
      · have : k * 2 ^ (23 - k.log2) < 2 ^ 24 := by
          calc k * 2 ^ (23 - k.log2) < 2 ^ (k.log2 + 1) * 2 ^ (23 - k.log2) :=
                Nat.mul_lt_mul_of_pos_right h2 (by positivity)
            _ = 2 ^ 24 := by rw [← pow_add]; congr 1; omega
        unfold infMag; omega
      · rw [unitsOf_code]
        · rw [mul_assoc, ← pow_add]; congr 2; omega
        · right
          calc 2 ^ 23 = 2 ^ k.log2 * 2 ^ (23 - k.log2) := by rw [← e]; ring
            _ ≤ k * 2 ^ (23 - k.log2) := Nat.mul_le_mul_right _ h1
        · calc k * 2 ^ (23 - k.log2) ≤ 2 ^ (k.log2 + 1) * 2 ^ (23 - k.log2) := Nat.mul_le_mul_right _ h2.le
            _ = 2 ^ 24 := by rw [← pow_add]; congr 1; omega

/-- `f32(k)` is exact up to 2^24 (spec/00_scope.md R12). -/
theorem ofNat_exact {k : Nat} (hk : k ≤ 2 ^ 24) : isFinite (ofNat k) ∧ toInt (ofNat k) = k * 2 ^ 149 := by
  obtain ⟨m, hm, hu⟩ := exists_mag_of_le hk
  have hlt : m < 2 ^ 31 := by unfold infMag at hm; omega
  have e : ofNat k = ofMag false m := by
    unfold ofNat
    rw [Nat.mul_comm]
    have := roundMag_unitsOf (den := 1) one_pos hm.le
    rw [mul_one, hu] at this
    rw [this]
  rw [e]
  refine ⟨by rw [isFinite_iff, mag_ofMag _ hlt]; exact hm, ?_⟩
  rw [toInt_of_pos (neg?_ofMag _ hlt), mag_ofMag _ hlt, hu]
  push_cast; ring

theorem isFinite_ofNat {k : Nat} (hk : k ≤ 2 ^ 24) : isFinite (ofNat k) := (ofNat_exact hk).1

theorem toInt_ofNat {k : Nat} (hk : k ≤ 2 ^ 24) : toInt (ofNat k) = k * 2 ^ 149 := (ofNat_exact hk).2

end Sys2Proof.Machine.F32
end

