-- ==== Sys2Proof/Laws/Memory.lean ====
section
/-! SUPPORT. The laws of the output memory: what is read back, and that it keeps its canonical form. -/

namespace Sys2Proof.Machine

/-- Every listed address of `m` lies in `[lo, hi)`. -/
def Memory.Within (m : Memory) (lo hi : Nat) : Prop := ∀ c ∈ m, lo ≤ c.1 ∧ c.1 < hi

theorem Memory.readByte_of_unlisted {m : Memory} {a : Nat} (h : ∀ c ∈ m, c.1 ≠ a) :
    m.readByte a = Memory.unlisted := by
  induction m with
  | nil => rfl
  | cons c m ih =>
    obtain ⟨k, b⟩ := c
    have hk : k ≠ a := h (k, b) (by simp)
    simp only [Memory.readByte, if_neg hk]
    exact ih fun c hc => h c (by simp [hc])

theorem Memory.readByte_append_right {m m' : Memory} {a : Nat} (h : ∀ c ∈ m, c.1 ≠ a) :
    Memory.readByte (m ++ m') a = m'.readByte a := by
  induction m with
  | nil => rfl
  | cons c m ih =>
    obtain ⟨k, b⟩ := c
    have hk : k ≠ a := h (k, b) (by simp)
    simp only [List.cons_append, Memory.readByte, if_neg hk]
    exact ih fun c hc => h c (by simp [hc])

theorem Memory.readByte_append_left {m m' : Memory} {a : Nat} (h : ∀ c ∈ m', c.1 ≠ a) :
    Memory.readByte (m ++ m') a = m.readByte a := by
  induction m with
  | nil => exact Memory.readByte_of_unlisted h
  | cons c m ih =>
    obtain ⟨k, b⟩ := c
    simp only [List.cons_append, Memory.readByte]
    split
    · rfl
    · exact ih

theorem Memory.Within.append {m m' : Memory} {a b c : Nat} (h : m.Within a b) (h' : m'.Within b c) (hab : a ≤ b)
    (hbc : b ≤ c) : Memory.Within (m ++ m') a c := by
  intro x hx
  rcases List.mem_append.1 hx with hx | hx
  · have := h x hx; omega
  · have := h' x hx; omega

theorem Memory.wf_append {m m' : Memory} {a b c : Nat} (h : m.Within a b) (h' : m'.Within b c) (hm : m.wf)
    (hm' : m'.wf) : Memory.wf (m ++ m') := by
  refine ⟨List.pairwise_append.2 ⟨hm.1, hm'.1, ?_⟩, ?_⟩
  · intro x hx y hy
    have := h x hx
    have := h' y hy
    omega
  · intro x hx
    rcases List.mem_append.1 hx with hx | hx
    · exact hm.2 x hx
    · exact hm'.2 x hx

theorem Memory.wf_nil : Memory.wf [] := ⟨List.Pairwise.nil, by simp⟩

/-- With nothing listed every word of OUT is +0.0 (spec/10_state.md R47, R55). -/
@[simp] theorem Memory.readWord_nil (a : Nat) : Memory.readWord [] a = 0#32 := by
  simp [Memory.readWord, Memory.readByte, Memory.unlisted]

theorem Memory.within_cell (a : Nat) (b : Byte) : (Memory.cell a b).Within a (a + 1) := by
  intro c hc
  unfold Memory.cell at hc
  split at hc
  · exact absurd hc (by simp)
  · rw [List.mem_singleton.1 hc]; simp

theorem Memory.wf_cell (a : Nat) (b : Byte) : (Memory.cell a b).wf := by
  unfold Memory.cell
  split
  · exact Memory.wf_nil
  · next h => exact ⟨List.pairwise_singleton _ _, fun c hc => by rw [List.mem_singleton.1 hc]; exact h⟩

theorem Memory.readByte_cell (a : Nat) (b : Byte) : (Memory.cell a b).readByte a = b := by
  unfold Memory.cell
  split
  · next h => rw [h]; rfl
  · simp [Memory.readByte]

theorem Memory.within_cells (a : Nat) (w : Word) : (Memory.cells a w).Within a (a + 4) :=
  (((Memory.within_cell a _).append (Memory.within_cell (a + 1) _) (by omega) (by omega)).append
    (Memory.within_cell (a + 2) _) (by omega) (by omega)).append (Memory.within_cell (a + 3) _) (by omega) (by omega)

theorem Memory.wf_cells (a : Nat) (w : Word) : (Memory.cells a w).wf :=
  Memory.wf_append
    (((Memory.within_cell a _).append (Memory.within_cell (a + 1) _) (by omega) (by omega)).append
      (Memory.within_cell (a + 2) _) (by omega) (by omega))
    (Memory.within_cell (a + 3) _)
    (Memory.wf_append ((Memory.within_cell a _).append (Memory.within_cell (a + 1) _) (by omega) (by omega))
      (Memory.within_cell (a + 2) _)
      (Memory.wf_append (Memory.within_cell a _) (Memory.within_cell (a + 1) _) (Memory.wf_cell _ _)
        (Memory.wf_cell _ _))
      (Memory.wf_cell _ _))
    (Memory.wf_cell _ _)

/-- The byte lanes of a stored word (spec/20_memory.md R87). -/
theorem Memory.readByte_cells (a : Nat) (w : Word) :
    (Memory.cells a w).readByte a = w.extractLsb' 0 8 ∧ (Memory.cells a w).readByte (a + 1) = w.extractLsb' 8 8 ∧
      (Memory.cells a w).readByte (a + 2) = w.extractLsb' 16 8 ∧
      (Memory.cells a w).readByte (a + 3) = w.extractLsb' 24 8 := by
  have off : ∀ {x y : Nat} (b : Byte), x ≠ y → ∀ c ∈ Memory.cell x b, c.1 ≠ y := by
    intro x y b hxy c hc
    have := Memory.within_cell x b c hc
    omega
  unfold Memory.cells
  refine ⟨?_, ?_, ?_, ?_⟩
  · rw [Memory.readByte_append_left (off _ (by omega)), Memory.readByte_append_left (off _ (by omega)),
      Memory.readByte_append_left (off _ (by omega)), Memory.readByte_cell]
  · rw [Memory.readByte_append_left (off _ (by omega)), Memory.readByte_append_left (off _ (by omega)),
      Memory.readByte_append_right (off _ (by omega)), Memory.readByte_cell]
  · rw [Memory.readByte_append_left (off _ (by omega)), Memory.readByte_append_right, Memory.readByte_cell]
    intro c hc
    rcases List.mem_append.1 hc with h | h
    · exact off _ (by omega) c h
    · exact off _ (by omega) c h
  · rw [Memory.readByte_append_right, Memory.readByte_cell]
    intro c hc
    rcases List.mem_append.1 hc with h | h
    · rcases List.mem_append.1 h with h | h
      · exact off _ (by omega) c h
      · exact off _ (by omega) c h
    · exact off _ (by omega) c h

/-- The four byte lanes of a word put it together again. -/
theorem word_of_lanes (w : Word) :
    w.extractLsb' 24 8 ++ w.extractLsb' 16 8 ++ w.extractLsb' 8 8 ++ w.extractLsb' 0 8 = w := by
  apply BitVec.eq_of_getLsbD_eq
  intro i hi
  simp only [BitVec.getLsbD_append, BitVec.getLsbD_extractLsb']
  split
  · simp; omega
  · split
    · have : 8 + (i - 8) = i := by omega
      simp [this]; omega
    · split
      · have : 16 + (i - 8 - 8) = i := by omega
        simp [this]; omega
      · have : 24 + (i - 8 - 8 - 8) = i := by omega
        simp [this]; omega

theorem Memory.readWord_cells (a : Nat) (w : Word) : (Memory.cells a w).readWord a = w := by
  obtain ⟨h0, h1, h2, h3⟩ := Memory.readByte_cells a w
  rw [Memory.readWord, h0, h1, h2, h3, word_of_lanes]

theorem Memory.within_ofWords (a : Nat) (ws : List Word) :
    (Memory.ofWords a ws).Within a (a + 4 * ws.length) := by
  induction ws generalizing a with
  | nil => intro c hc; simp [Memory.ofWords] at hc
  | cons w ws ih =>
    have := (Memory.within_cells a w).append (ih (a + 4)) (by omega) (by omega)
    simp only [Memory.ofWords, List.length_cons]
    convert this using 1; omega

theorem Memory.wf_ofWords (a : Nat) (ws : List Word) : (Memory.ofWords a ws).wf := by
  induction ws generalizing a with
  | nil => exact Memory.wf_nil
  | cons w ws ih =>
    exact Memory.wf_append (Memory.within_cells a w) (Memory.within_ofWords (a + 4) ws) (Memory.wf_cells a w)
      (ih (a + 4))

theorem Memory.readByte_of_within {m : Memory} {lo hi a : Nat} (h : m.Within lo hi) (ha : a < lo ∨ hi ≤ a) :
    m.readByte a = Memory.unlisted :=
  Memory.readByte_of_unlisted fun c hc => by have := h c hc; omega

theorem Memory.readWord_of_within {m : Memory} {lo hi a : Nat} (h : m.Within lo hi) (ha : a + 4 ≤ lo ∨ hi ≤ a) :
    m.readWord a = 0#32 := by
  simp only [Memory.readWord]
  rw [Memory.readByte_of_within h (by omega), Memory.readByte_of_within h (by omega),
    Memory.readByte_of_within h (by omega), Memory.readByte_of_within h (by omega)]
  rfl

theorem Memory.readWord_append_left {m m' : Memory} {lo hi a : Nat} (h : m'.Within lo hi)
    (ha : a + 4 ≤ lo ∨ hi ≤ a) : Memory.readWord (m ++ m') a = m.readWord a := by
  have off : ∀ k, k < 4 → ∀ c ∈ m', c.1 ≠ a + k := fun k hk c hc => by have := h c hc; omega
  simp only [Memory.readWord]
  rw [Memory.readByte_append_left (off 3 (by omega)), Memory.readByte_append_left (off 2 (by omega)),
    Memory.readByte_append_left (off 1 (by omega)), Memory.readByte_append_left (a := a) (by simpa using off 0 (by omega))]

theorem Memory.readWord_append_right {m m' : Memory} {lo hi a : Nat} (h : m.Within lo hi)
    (ha : a + 4 ≤ lo ∨ hi ≤ a) : Memory.readWord (m ++ m') a = m'.readWord a := by
  have off : ∀ k, k < 4 → ∀ c ∈ m, c.1 ≠ a + k := fun k hk c hc => by have := h c hc; omega
  simp only [Memory.readWord]
  rw [Memory.readByte_append_right (off 3 (by omega)), Memory.readByte_append_right (off 2 (by omega)),
    Memory.readByte_append_right (off 1 (by omega)), Memory.readByte_append_right (a := a) (by simpa using off 0 (by omega))]

/-- Stored words read back, and an unlisted word reads as +0.0. -/
theorem Memory.readWord_ofWords (a : Nat) (ws : List Word) (i : Nat) :
    (Memory.ofWords a ws).readWord (a + 4 * i) = ws.getD i 0#32 := by
  induction ws generalizing a i with
  | nil => simp [Memory.ofWords, Memory.readWord, Memory.readByte, Memory.unlisted]
  | cons w ws ih =>
    cases i with
    | zero =>
      simp only [Memory.ofWords, Nat.mul_zero, Nat.add_zero, List.getD_cons_zero]
      rw [Memory.readWord_append_left (Memory.within_ofWords (a + 4) ws) (by omega), Memory.readWord_cells]
    | succ i =>
      have e : a + 4 * (i + 1) = a + 4 + 4 * i := by omega
      simp only [Memory.ofWords, List.getD_cons_succ]
      rw [Memory.readWord_append_right (Memory.within_cells a w) (by omega), e, ih]

/-- The output memory of two channels of at most MAXBLOCK frames is in canonical form. -/
theorem Memory.wf_ofChannels {c0 c1 : List F32} (h0 : c0.length ≤ Config.maxBlock) :
    (Memory.ofChannels c0 c1).wf := by
  have w0 : (Memory.ofWords (outAddr 0 0) c0).Within (outAddr 0 0) (outAddr 1 0) := by
    intro c hc
    have := Memory.within_ofWords (outAddr 0 0) c0 c hc
    simp only [outAddr, Config.maxBlock] at *
    omega
  exact Memory.wf_append w0 (Memory.within_ofWords (outAddr 1 0) c1) (Memory.wf_ofWords _ _) (Memory.wf_ofWords _ _)

/-- The words of the two channels read back at their addresses (spec/10_state.md R47). -/
theorem Memory.readWord_ofChannels {c0 c1 : List F32} (h0 : c0.length ≤ Config.maxBlock) {i : Nat}
    (hi : i < Config.maxBlock) :
    (Memory.ofChannels c0 c1).readWord (outAddr 0 i) = c0.getD i 0#32 ∧
      (Memory.ofChannels c0 c1).readWord (outAddr 1 i) = c1.getD i 0#32 := by
  unfold Memory.ofChannels
  have e0 : outAddr 0 i = outAddr 0 0 + 4 * i := by simp only [outAddr]; omega
  have e1 : outAddr 1 i = outAddr 1 0 + 4 * i := by simp only [outAddr]; omega
  constructor
  · rw [Memory.readWord_append_left (Memory.within_ofWords (outAddr 1 0) c1), e0, Memory.readWord_ofWords]
    simp only [outAddr, Config.maxBlock] at *; omega
  · rw [Memory.readWord_append_right (Memory.within_ofWords (outAddr 0 0) c0), e1, Memory.readWord_ofWords]
    simp only [outAddr, Config.maxBlock] at *; omega

/-- Every listed byte of the two channels lies in the output buffer. -/
theorem Memory.within_ofChannels {c0 c1 : List F32} (h0 : c0.length ≤ Config.maxBlock)
    (h1 : c1.length ≤ Config.maxBlock) : (Memory.ofChannels c0 c1).Within 0x1000 0x9000 := by
  intro c hc
  rcases List.mem_append.1 hc with hc | hc
  · have := Memory.within_ofWords _ _ c hc
    simp only [outAddr, Config.maxBlock] at *; omega
  · have := Memory.within_ofWords _ _ c hc
    simp only [outAddr, Config.maxBlock] at *; omega

end Sys2Proof.Machine
end

