-- ==== Sys2Proof/Laws/PerInstr.lean ====
section
/-! SUPPORT. One law per constructor of Instr: its word carries the bits its row of the opcode map fixes
(spec/30_encoding.md R104), and its opcode and operand fields are read back from it. -/

namespace Sys2Proof.Laws.RowMatch

/-- The opcode of a command's row (R104). -/
def rowOp : Instr → BitVec 4
  | .noteOn _ _ _ => 0x1#4
  | .noteOff _ _ _ _ => 0x2#4
  | .render _ => 0x3#4
  | .prepare => 0x4#4
  | .resetFilters => 0x5#4
  | .release => 0x6#4

/-- The word of `i` has its row's opcode, and its fixed bits are the row's. -/
def Statement (i : Instr) : Prop :=
  fieldOp (encode i) = rowOp i ∧ encode i &&& opcodeMask (rowOp i) = opcodeMatch (rowOp i)

/-- A 32-bit equation, bit by bit. -/
theorem word_ext {x y : Word} (h : ∀ i : Fin 32, x.getLsbD i = y.getLsbD i) : x = y :=
  BitVec.eq_of_getLsbD_eq fun i hi => h ⟨i, hi⟩

theorem noteOn (ts : BitVec 12) (vel note : BitVec 7) : Statement (.noteOn ts vel note) := by
  constructor
  · apply BitVec.eq_of_getLsbD_eq
    intro i hi
    simp only [fieldOp, encode, rowOp, BitVec.getLsbD_extractLsb', BitVec.getLsbD_append, hi, decide_true,
      Bool.true_and]
    rw [if_neg (by omega), if_neg (by omega), if_neg (by omega), if_neg (by omega), if_neg (by omega)]
    congr 1
    omega
  · apply word_ext
    intro i
    simp only [encode, rowOp, BitVec.getLsbD_and, BitVec.getLsbD_append]
    fin_cases i <;> simp [opcodeMask, opcodeMatch]

theorem noteOff (ts : BitVec 12) (tail : Bool) (vel note : BitVec 7) : Statement (.noteOff ts tail vel note) := by
  constructor
  · apply BitVec.eq_of_getLsbD_eq
    intro i hi
    simp only [fieldOp, encode, rowOp, BitVec.getLsbD_extractLsb', BitVec.getLsbD_append, hi, decide_true,
      Bool.true_and]
    rw [if_neg (by omega), if_neg (by omega), if_neg (by omega), if_neg (by omega), if_neg (by omega)]
    congr 1
    omega
  · apply word_ext
    intro i
    simp only [encode, rowOp, BitVec.getLsbD_and, BitVec.getLsbD_append]
    fin_cases i <;> simp [opcodeMask, opcodeMatch]

theorem render (n : BitVec 16) : Statement (.render n) := by
  constructor
  · apply BitVec.eq_of_getLsbD_eq
    intro i hi
    simp only [fieldOp, encode, rowOp, BitVec.getLsbD_extractLsb', BitVec.getLsbD_append, hi, decide_true,
      Bool.true_and]
    rw [if_neg (by omega), if_neg (by omega)]
    congr 1
    omega
  · apply word_ext
    intro i
    simp only [encode, rowOp, BitVec.getLsbD_and, BitVec.getLsbD_append]
    fin_cases i <;> simp [opcodeMask, opcodeMatch]

theorem prepare : Statement .prepare := by constructor <;> decide

theorem resetFilters : Statement .resetFilters := by constructor <;> decide

theorem release : Statement .release := by constructor <;> decide

end Sys2Proof.Laws.RowMatch
end

