-- ==== Sys2Proof/Laws/Voices.lean ====
section
/-! SUPPORT. What the pool's and the voice's operations keep: the number of voices, the number of frames, and the
items of a unit that an operation does not name. -/

namespace Sys2Proof.Machine

/-! ## Numbers of voices and frames -/

theorem poolNoteOn_length {fs : F32} {note : BitVec 7} {vs vs' : List Voice} (h : poolNoteOn fs note vs = some vs') :
    vs'.length = vs.length := by
  induction vs generalizing vs' with
  | nil => simp [poolNoteOn] at h
  | cons v vs ih =>
    simp only [poolNoteOn] at h
    split at h
    · rw [← Option.some.inj h]; rfl
    · obtain ⟨ws, hw, rfl⟩ := Option.map_eq_some_iff.1 h
      simp [ih hw]

@[simp] theorem poolNoteOff_length (fs : F32) (note : BitVec 7) (tail : Bool) (vs : List Voice) :
    (poolNoteOff fs note tail vs).length = vs.length := by simp [poolNoteOff]

@[simp] theorem dispatchEvent_length (fs : F32) (e : Event) (vs : List Voice) :
    (dispatchEvent fs e vs).1.length = vs.length := by
  unfold dispatchEvent
  cases e.kind with
  | noteOff => simp
  | noteOn =>
    cases h : poolNoteOn fs e.note vs with
    | none => simp
    | some ws => simpa using poolNoteOn_length h

@[simp] theorem dispatch_length (fs : F32) (es : List Event) (vs : List Voice) :
    (dispatch fs es vs).1.length = vs.length := by
  induction es generalizing vs with
  | nil => rfl
  | cons e es ih => simp [dispatch, ih]

@[simp] theorem renderVoices_length (sin tan : F32 → F32) (fs : F32) (nch n : Nat) (vs : List Voice) (out : Buffer) :
    (renderVoices sin tan fs nch n vs out).1.length = vs.length := by
  induction vs generalizing out with
  | nil => rfl
  | cons v vs ih => simp [renderVoices, ih]

@[simp] theorem mixChannel_length (os ys : List F32) : (mixChannel os ys).length = os.length := by
  induction os generalizing ys with
  | nil => cases ys <;> rfl
  | cons o os ih => cases ys <;> simp [mixChannel, ih]

theorem mixChannel_nil (os : List F32) : mixChannel os [] = os := by cases os <;> rfl

theorem renderBlock_out_length (sin tan : F32 → F32) (fs : F32) (nch n : Nat) (v : Voice) (out : Buffer) :
    (v.renderBlock sin tan fs nch n out).2.c0.length = out.c0.length ∧
      (v.renderBlock sin tan fs nch n out).2.c1.length = out.c1.length := by
  unfold Voice.renderBlock
  split
  · exact ⟨rfl, rfl⟩
  · simp [Buffer.mix]

theorem renderVoices_out_length (sin tan : F32 → F32) (fs : F32) (nch n : Nat) (vs : List Voice) (out : Buffer) :
    (renderVoices sin tan fs nch n vs out).2.c0.length = out.c0.length ∧
      (renderVoices sin tan fs nch n vs out).2.c1.length = out.c1.length := by
  induction vs generalizing out with
  | nil => exact ⟨rfl, rfl⟩
  | cons v vs ih =>
    have h := renderBlock_out_length sin tan fs nch n v out
    have := ih (v.renderBlock sin tan fs nch n out).2
    simp only [renderVoices]
    exact ⟨this.1.trans h.1, this.2.trans h.2⟩

@[simp] theorem frames_length (sin : F32 → F32) (incM incFm : F32) (n : Nat) (o : Oscillator) :
    (o.frames sin incM incFm n).2.length = n := by
  induction n generalizing o with
  | zero => rfl
  | succ n ih => simp [Oscillator.frames, ih]

@[simp] theorem samples_length (fs : F32) (n : Nat) (e : Envelope) : (Envelope.samples fs n e).2.length = n := by
  induction n generalizing e with
  | zero => rfl
  | succ n ih => simp [Envelope.samples, ih]

@[simp] theorem processChannel_length (q : Filter) (p : Integrators) (xs : List F32) :
    (q.processChannel p xs).2.length = xs.length := by
  induction xs generalizing p with
  | nil => rfl
  | cons x xs ih => simp [Filter.processChannel, ih]

/-! ## The envelope -/

theorem Envelope.startSeg_eq (fs t : F32) (e : Envelope) :
    e.startSeg fs t = { e with level0 := e.level, k := 0, n := nsamp fs t } := rfl

theorem nsamp_pos (fs t : F32) : 1 ≤ nsamp fs t := Nat.le_max_left _ _

/-- `configure` keeps the stage and the level, and holds the four new values (spec/41_envelope.md R131). -/
theorem Envelope.configure_spec (fs a d s r : F32) (e : Envelope) :
    (e.configure fs a d s r).stage = e.stage ∧ (e.configure fs a d s r).level = e.level ∧
      (e.configure fs a d s r).a = a ∧ (e.configure fs a d s r).d = d ∧ (e.configure fs a d s r).s = s ∧
      (e.configure fs a d s r).r = r := by
  unfold Envelope.configure
  cases e.restart? a d s r <;> simp [Envelope.startSeg]

/-- The stages an advance can lead to (spec/41_envelope.md R130). -/
theorem Envelope.advance_stage (fs : F32) (e : Envelope) :
    (e.advance fs).stage = e.stage ∨ (e.stage = .attack ∧ (e.advance fs).stage = .decay) ∨
      (e.stage = .decay ∧ (e.advance fs).stage = .sustain) ∨
      (e.stage = .release ∧ (e.advance fs).stage = .idle ∧ (e.advance fs).level = F32.zero) := by
  unfold Envelope.advance
  cases h : e.stage with
  | idle => simp [h]
  | sustain => simp
  | attack => simp only [Envelope.attackStep]; split <;> simp [Envelope.startSeg]
  | decay => simp only [Envelope.decayStep]; split <;> simp
  | release => simp only [Envelope.releaseStep]; split <;> simp

/-- An advance changes no held parameter. -/
theorem Envelope.advance_held (fs : F32) (e : Envelope) :
    (e.advance fs).a = e.a ∧ (e.advance fs).d = e.d ∧ (e.advance fs).s = e.s ∧ (e.advance fs).r = e.r := by
  unfold Envelope.advance
  cases e.stage with
  | idle => simp
  | sustain => simp
  | attack => simp only [Envelope.attackStep]; split <;> simp [Envelope.startSeg]
  | decay => simp only [Envelope.decayStep]; split <;> simp
  | release => simp only [Envelope.releaseStep]; split <;> simp

@[simp] theorem Envelope.nextSample_fst (fs : F32) (e : Envelope) : (e.nextSample fs).1 = e.advance fs := rfl

/-- Samples and discarded samples leave the same envelope. -/
theorem Envelope.samples_fst (fs : F32) (n : Nat) (e : Envelope) :
    (Envelope.samples fs n e).1 = Envelope.skip fs n e := by
  induction n generalizing e with
  | zero => rfl
  | succ n ih => simp [Envelope.samples, Envelope.skip, ih]

/-! ## The oscillator and the filter -/

/-- A frame changes the phases and the FM offset alone. -/
theorem Oscillator.frames_held (sin : F32 → F32) (incM incFm : F32) (n : Nat) (o : Oscillator) :
    (o.frames sin incM incFm n).1.kind = o.kind ∧ (o.frames sin incM incFm n).1.f = o.f ∧
      (o.frames sin incM incFm n).1.fmFreq = o.fmFreq ∧ (o.frames sin incM incFm n).1.fmDepth = o.fmDepth := by
  induction n generalizing o with
  | zero => exact ⟨rfl, rfl, rfl, rfl⟩
  | succ n ih => exact ih _

theorem wrapDown_of_not_lt {n : Nat} {t : F32} (h : F32.lt F32.pi t = false) : wrapDown (n + 1) t = t := by
  simp [wrapDown, h]

theorem wrapDown_of_lt {n : Nat} {t : F32} (h : F32.lt F32.pi t = true) :
    wrapDown (n + 1) t = wrapDown n (F32.sub t F32.twoPi) := by simp [wrapDown, h]

theorem wrapUp_of_not_le {n : Nat} {t : F32} (h : F32.le t F32.negPi = false) : wrapUp (n + 1) t = t := by
  simp [wrapUp, h]

theorem wrapUp_of_le {n : Nat} {t : F32} (h : F32.le t F32.negPi = true) :
    wrapUp (n + 1) t = wrapUp n (F32.add t F32.twoPi) := by simp [wrapUp, h]

/-- The fuel of `wrap` is a successor twice over. -/
theorem wrapFuel_eq : wrapFuel = 33554430 + 2 := rfl

/-- A phase in range is its own wrap (spec/42_oscillator.md R163). -/
theorem wrap_of_mem {t : F32} (h1 : F32.lt F32.pi t = false) (h2 : F32.le t F32.negPi = false) : wrap t = t := by
  unfold wrap
  rw [wrapFuel_eq, wrapDown_of_not_lt h1, wrapUp_of_not_le h2]

/-- One turn of the first loop (spec/42_oscillator.md R163). -/
theorem wrap_of_turn {t : F32} (h : F32.lt F32.pi t = true) (h1 : F32.lt F32.pi (F32.sub t F32.twoPi) = false)
    (h2 : F32.le (F32.sub t F32.twoPi) F32.negPi = false) : wrap t = F32.sub t F32.twoPi := by
  unfold wrap
  rw [wrapFuel_eq, wrapDown_of_lt h, wrapDown_of_not_lt h1, wrapUp_of_not_le h2]

/-- `filterSet` writes the three coefficients alone (spec/43_filter.md R190, R192). -/
theorem Filter.set_held (tan : F32 → F32) (fs m : F32) (q : Filter) :
    (q.set tan fs m).fType = q.fType ∧ (q.set tan fs m).fBase = q.fBase ∧ (q.set tan fs m).fRes = q.fRes ∧
      (q.set tan fs m).c0 = q.c0 ∧ (q.set tan fs m).c1 = q.c1 := ⟨rfl, rfl, rfl, rfl, rfl⟩

/-! ## The order of events -/

theorem insertEvent_perm (e : Event) (es : List Event) : List.Perm (insertEvent e es) (e :: es) := by
  induction es with
  | nil => exact List.Perm.refl _
  | cons x xs ih =>
    simp only [insertEvent]
    split
    · exact List.Perm.refl _
    · exact (ih.cons x).trans (List.Perm.swap e x xs)

theorem Event.before_total (a b : Event) : a.before b = true ∨ b.before a = true := by
  unfold Event.before
  rcases Nat.lt_trichotomy a.ts.toNat b.ts.toNat with h | h | h
  · simp [h]
  · have : a.ts = b.ts := BitVec.eq_of_toNat_eq h
    rcases Nat.le_total a.seq b.seq with h' | h' <;> simp [this, h']
  · simp [h]

theorem Event.before_trans {a b c : Event} (h1 : a.before b = true) (h2 : b.before c = true) :
    a.before c = true := by
  simp only [Event.before, Bool.or_eq_true, Bool.and_eq_true, decide_eq_true_eq] at *
  rcases h1 with h1 | ⟨e1, h1⟩ <;> rcases h2 with h2 | ⟨e2, h2⟩
  · left; omega
  · left; rw [← e2]; exact h1
  · left; rw [e1]; exact h2
  · right; exact ⟨e1.trans e2, h1.trans h2⟩

end Sys2Proof.Machine
end

