-- ==== Sys2Proof/Laws/Pool.lean ====
section
/-! SUPPORT. The pool's operations once each: allocation, the dispatch order, the mix, and what a RENDER does to every
voice (spec/45_voice_pool.md R242 to R246). -/

namespace Sys2Proof.Machine

/-! ## Allocation and dispatch -/

/-- Pool note-on takes the first Idle voice (R242). -/
theorem poolNoteOn_of_lowest (fs : F32) (note : BitVec 7) :
    ∀ (vs : List Voice) (i : Nat) (v : Voice), vs[i]? = some v → v.vstate = .idle →
      (∀ (j : Nat) (u : Voice), j < i → vs[j]? = some u → u.vstate ≠ .idle) →
      poolNoteOn fs note vs = some (vs.set i (v.noteOn fs note)) := by
  intro vs
  induction vs with
  | nil => intro i v h; simp at h
  | cons x xs ih =>
    intro i v h hi hj
    cases i with
    | zero =>
      simp only [List.getElem?_cons_zero, Option.some.injEq] at h
      subst h
      simp [poolNoteOn, hi]
    | succ i =>
      have hx := hj 0 x (by omega) rfl
      have := ih i v (by simpa using h) hi (fun j u hji hu => hj (j + 1) u (by omega) (by simpa using hu))
      simp [poolNoteOn, hx, this]

/-- With no voice Idle a note-on finds none (R242). -/
theorem poolNoteOn_eq_none (fs : F32) (note : BitVec 7) :
    ∀ vs : List Voice, (∀ v ∈ vs, v.vstate ≠ .idle) → poolNoteOn fs note vs = none := by
  intro vs
  induction vs with
  | nil => intro _; rfl
  | cons x xs ih =>
    intro h
    simp [poolNoteOn, h x (by simp), ih (fun v hv => h v (by simp [hv]))]

/-- Pool note-on changes only an Idle voice, and only by the voice's own note-on. -/
theorem forall_poolNoteOn {P : Voice → Prop} {fs : F32} {note : BitVec 7} {vs vs' : List Voice}
    (h : poolNoteOn fs note vs = some vs') (hP : ∀ v ∈ vs, P v)
    (hOn : ∀ v, P v → v.vstate = .idle → P (v.noteOn fs note)) : ∀ v ∈ vs', P v := by
  induction vs generalizing vs' with
  | nil => simp [poolNoteOn] at h
  | cons x xs ih =>
    simp only [poolNoteOn] at h
    split at h
    case isTrue hx =>
      rw [← Option.some.inj h]
      intro v hv
      rcases List.mem_cons.1 hv with rfl | hv
      · exact hOn _ (hP x (by simp)) hx
      · exact hP v (by simp [hv])
    case isFalse hx =>
      obtain ⟨ws, hw, rfl⟩ := Option.map_eq_some_iff.1 h
      intro v hv
      rcases List.mem_cons.1 hv with rfl | hv
      · exact hP v (by simp)
      · exact ih hw (fun v hv => hP v (by simp [hv])) v hv

/-- A property that the voice's note events keep, each where the pool uses it, is kept by the whole dispatch (R244). -/
theorem forall_dispatch {P : Voice → Prop} {fs : F32} {es : List Event} {vs : List Voice} (hP : ∀ v ∈ vs, P v)
    (hOn : ∀ v note, P v → v.vstate = .idle → P (v.noteOn fs note))
    (hOff : ∀ v tail, P v → v.vstate = .sounding → P (v.noteOff fs tail)) : ∀ v ∈ (dispatch fs es vs).1, P v := by
  induction es generalizing vs with
  | nil => exact hP
  | cons e es ih =>
    refine ih ?_
    unfold dispatchEvent
    cases e.kind with
    | noteOn =>
      cases h : poolNoteOn fs e.note vs with
      | none => exact hP
      | some ws => exact forall_poolNoteOn h hP fun v => hOn v e.note
    | noteOff =>
      intro v hv
      obtain ⟨u, hu, rfl⟩ := List.mem_map.1 hv
      split
      case isTrue hx => exact hOff u _ (hP u hu) hx.1
      case isFalse => exact hP u hu

/-! ## The dispatch order -/

theorem sortEvents_perm (es : List Event) : (sortEvents es).Perm es := by
  induction es with
  | nil => exact .refl _
  | cons e es ih => exact (insertEvent_perm e _).trans (ih.cons e)

theorem insertEvent_sorted (e : Event) (es : List Event) (h : es.Pairwise fun a b => a.before b = true) :
    (insertEvent e es).Pairwise fun a b => a.before b = true := by
  induction es with
  | nil => simp [insertEvent]
  | cons x xs ih =>
    obtain ⟨h1, h2⟩ := List.pairwise_cons.1 h
    unfold insertEvent
    split
    case isTrue hb =>
      refine List.pairwise_cons.2 ⟨fun y hy => ?_, h⟩
      rcases List.mem_cons.1 hy with rfl | hy
      · exact hb
      · exact Event.before_trans hb (h1 y hy)
    case isFalse hb =>
      refine List.pairwise_cons.2 ⟨fun y hy => ?_, ih h2⟩
      rcases List.mem_cons.1 ((insertEvent_perm e xs).mem_iff.1 hy) with rfl | hy
      · exact (Event.before_total y x).resolve_left hb
      · exact h1 y hy

/-! ## Rendering -/

/-- The voices after a RENDER's voices have rendered: an Idle one unchanged, the others after their block (R246). -/
theorem renderVoices_voices (sin tan : F32 → F32) (fs : F32) (nch n : Nat) (vs : List Voice) (out : Buffer) :
    (renderVoices sin tan fs nch n vs out).1 =
      vs.map fun v => if v.vstate = .idle then v else (v.sound sin tan fs nch n).1 := by
  induction vs generalizing out with
  | nil => rfl
  | cons v vs ih =>
    simp only [renderVoices, List.map_cons, ih]
    congr 1
    unfold Voice.renderBlock
    split <;> rfl

/-- The voices after a RENDER of a legal length. -/
theorem State.renderBlock_voices (sin tan : F32 → F32) (n : BitVec 16) (s : State) :
    (s.renderBlock sin tan n).voices = s.dispatched.1.map fun v =>
      if v.vstate = .idle then v else (v.sound sin tan s.fs s.curNch.toNat n.toNat).1 :=
  renderVoices_voices ..

/-- The mix adds where there is a sample, and keeps the frame elsewhere (R222). -/
theorem mixChannel_getElem? (os ys : List F32) (i : Nat) :
    (mixChannel os ys)[i]? = (os[i]?).map fun o => match ys[i]? with
      | some y => F32.add o y
      | none => o := by
  induction os generalizing ys i with
  | nil => cases ys <;> simp [mixChannel]
  | cons o os ih =>
    cases ys with
    | nil => simp [mixChannel]
    | cons y ys => cases i <;> simp [mixChannel, ih]

/-- The modulation step is the last of `n + 1` samples (R216). -/
theorem modulationStep_eq_samples (fs : F32) (n : Nat) (e : Envelope) :
    (Envelope.samples fs (n + 1) e).2[n]? = some (modulationStep fs n e).2 ∧
      (Envelope.samples fs (n + 1) e).1 = (modulationStep fs n e).1 := by
  induction n generalizing e with
  | zero => exact ⟨rfl, rfl⟩
  | succ n ih => exact ih (e.nextSample fs).1

/-! ## STATUS -/

/-- Bit v of STATUS.ACTIVE is set exactly when voice v is not Idle (spec/10_state.md R35). -/
theorem activeBits_getLsbD (vs : List Voice) (v : Nat) (hv : v < 16) :
    (activeBits vs).getLsbD v = true ↔ ∃ x, vs[v]? = some x ∧ x.vstate ≠ .idle := by
  induction vs generalizing v with
  | nil => simp [activeBits]
  | cons x xs ih =>
    cases v with
    | zero => simp [activeBits]; cases h : x.vstate <;> simp
    | succ v =>
      have := ih v (by omega)
      simp only [activeBits, BitVec.getLsbD_or, BitVec.getLsbD_shiftLeft, hv, decide_true, List.getElem?_cons_succ]
      rw [← this]
      split <;> simp

end Sys2Proof.Machine
end

