-- ==== Sys2Proof/Laws/Ranges.lean ====
section
/-! SUPPORT. The ranges that each operation of an envelope and of an oscillator keeps (spec/10_state.md R50, R51). -/

namespace Sys2Proof.Machine

/-! ## Ranges in units of 2^-149 -/

theorem F32.Between.units {x lo hi : F32} (hlo : F32.isFinite lo) (hhi : F32.isFinite hi) (h : F32.Between lo hi x) :
    F32.isFinite x = true ∧ F32.toInt lo ≤ F32.toInt x ∧ F32.toInt x ≤ F32.toInt hi := by
  have hx := F32.isFinite_of_le hlo hhi h.1 h.2
  exact ⟨hx, (F32.le_iff_toInt hlo hx).1 h.1, (F32.le_iff_toInt hx hhi).1 h.2⟩

theorem F32.Between.widen {lo hi lo' hi' x : F32} (hl : F32.le lo' lo = true) (hh : F32.le hi hi' = true)
    (h : F32.Between lo hi x) : F32.Between lo' hi' x :=
  ⟨F32.le_trans hl h.1, F32.le_trans h.2 hh⟩

theorem F32.zero_units : F32.isFinite F32.zero = true ∧ F32.toInt F32.zero = 0 := by decide +kernel

theorem F32.one_units : F32.isFinite F32.one = true ∧ F32.toInt F32.one = 2 ^ 149 := by decide +kernel

theorem F32.negOne_units : F32.isFinite F32.negOne = true ∧ F32.toInt F32.negOne = -2 ^ 149 := by decide +kernel

theorem F32.unit_ends : F32.Between F32.zero F32.one F32.one ∧ F32.Between F32.zero F32.one F32.zero := by
  constructor <;> constructor <;> decide +kernel

/-! ## The envelope -/

/-- A segment level between levels in [0, 1] lies in [0, 1] (spec/41_envelope.md R138). -/
theorem Envelope.seg_between {e : Envelope} {t : F32} (h0 : F32.Between F32.zero F32.one e.level0)
    (ht : F32.Between F32.zero F32.one t) (hk : e.k ≤ e.n) (hn : e.n ≤ 576000) (hn1 : 1 ≤ e.n) :
    F32.Between F32.zero F32.one (e.seg t) := by
  have h0 := h0.units F32.zero_units.1 F32.one_units.1
  have ht := ht.units F32.zero_units.1 F32.one_units.1
  rw [F32.zero_units.2, F32.one_units.2] at h0 ht
  have fB := F32.ofNat_exact (k := 576000) (by norm_num)
  have fC := F32.ofNat_exact (k := 1000000) (by norm_num)
  have fk := F32.ofNat_exact (k := e.k) (by omega)
  have fn := F32.ofNat_exact (k := e.n) (by omega)
  have hneg := F32.isFinite_negate fB.1
  have hnegi := F32.toInt_negate (F32.ofNat 576000)
  have sub1 : F32.Between F32.negOne F32.one (F32.sub t e.level0) := by
    constructor
    · apply F32.le_sub ht.1 h0.1 F32.negOne_units.1; have := F32.negOne_units.2; omega
    · apply F32.sub_le ht.1 h0.1 F32.one_units.1; have := F32.one_units.2; omega
  have sub1 := sub1.units F32.negOne_units.1 F32.one_units.1
  rw [F32.negOne_units.2, F32.one_units.2] at sub1
  have kk : (0 : Int) ≤ e.k ∧ (e.k : Int) ≤ 576000 ∧ (1 : Int) ≤ e.n := by omega
  have mul1 : F32.Between (F32.negate (F32.ofNat 576000)) (F32.ofNat 576000)
      (F32.mul (F32.sub t e.level0) (F32.ofNat e.k)) := by
    constructor
    · apply F32.le_mul sub1.1 fk.1 hneg
      rw [hnegi, fB.2, fk.2]; push_cast; nlinarith
    · apply F32.mul_le sub1.1 fk.1 fB.1
      rw [fB.2, fk.2]; push_cast; nlinarith
  have mul1 := mul1.units hneg fB.1
  rw [hnegi, fB.2] at mul1
  have hpos : 0 < F32.toInt (F32.ofNat e.n) := by rw [fn.2]; positivity
  have div1 : F32.Between (F32.negate (F32.ofNat 576000)) (F32.ofNat 576000)
      (F32.div (F32.mul (F32.sub t e.level0) (F32.ofNat e.k)) (F32.ofNat e.n)) := by
    constructor
    · apply F32.le_div mul1.1 fn.1 hneg hpos
      rw [hnegi, fB.2, fn.2]; push_cast at *; nlinarith
    · apply F32.div_le mul1.1 fn.1 fB.1 hpos
      rw [fB.2, fn.2]; push_cast at *; nlinarith
  have div1 := div1.units hneg fB.1
  rw [hnegi, fB.2] at div1
  have add1 : F32.isFinite (F32.add e.level0
      (F32.div (F32.mul (F32.sub t e.level0) (F32.ofNat e.k)) (F32.ofNat e.n))) = true := by
    refine F32.isFinite_of_le (F32.isFinite_negate fC.1) fC.1 ?_ ?_
    · apply F32.le_add h0.1 div1.1 (F32.isFinite_negate fC.1); rw [F32.toInt_negate, fC.2]; push_cast at *; omega
    · apply F32.add_le h0.1 div1.1 fC.1; rw [fC.2]; push_cast at *; omega
  exact F32.clamp_mem (F32.not_isNaN_of_isFinite add1) F32.zero_units.1 F32.one_units.1 (by decide +kernel)

/-- The longest segment is 3 seconds at the highest sample rate: 576000 samples (spec/41_envelope.md R133). -/
theorem nsamp_le {sr : Nat} {t : F32} (hsr : sr ≤ 192000) (ht : F32.Between F32.zero 0x40400000#32 t) :
    nsamp (F32.ofNat sr) t ≤ 576000 := by
  have t3 : F32.isFinite 0x40400000#32 = true ∧ F32.toInt 0x40400000#32 = 3 * 2 ^ 149 := by decide +kernel
  have ht := ht.units F32.zero_units.1 t3.1
  rw [F32.zero_units.2, t3.2] at ht
  have fB := F32.ofNat_exact (k := 576000) (by norm_num)
  have ff := F32.ofNat_exact (k := sr) (by omega)
  have hs : (0 : Int) ≤ sr ∧ (sr : Int) ≤ 192000 := by omega
  have m : F32.Between F32.zero (F32.ofNat 576000) (F32.mul t (F32.ofNat sr)) := by
    constructor
    · apply F32.le_mul ht.1 ff.1 F32.zero_units.1; rw [F32.zero_units.2, ff.2]; nlinarith
    · apply F32.mul_le ht.1 ff.1 fB.1; rw [fB.2, ff.2]; push_cast; nlinarith
  have m := m.units F32.zero_units.1 fB.1
  rw [F32.zero_units.2, fB.2] at m
  unfold nsamp F32.rint
  rw [m.1]
  simp only [if_true]
  apply max_le (by norm_num)
  split
  · simp
  case isFalse hneg =>
    have h := m.2.2
    rw [F32.toInt_of_pos (by simpa using hneg)] at h
    simp only [Int.toNat_natCast]
    apply F32.nearestEven_le (by positivity)
    exact_mod_cast h

/-- The ranges of the four held parameters. -/
def Envelope.HeldInv (e : Envelope) : Prop :=
  F32.Between RealParam.attack.lo RealParam.attack.hi e.a ∧ F32.Between RealParam.decay.lo RealParam.decay.hi e.d ∧
    F32.Between RealParam.sustain.lo RealParam.sustain.hi e.s ∧
    F32.Between RealParam.release.lo RealParam.release.hi e.r

theorem Envelope.startSeg_range {e : Envelope} {t : F32} {sr : Nat} (hsr : sr ≤ 192000)
    (ht : F32.Between F32.zero 0x40400000#32 t) (h1 : F32.Between F32.zero F32.one e.level) (h3 : e.HeldInv) :
    (e.startSeg (F32.ofNat sr) t).RangeInv := by
  have := nsamp_le hsr ht
  have := nsamp_pos (F32.ofNat sr) t
  refine ⟨h1, h1, h3.1, h3.2.1, h3.2.2.1, h3.2.2.2, ?_, ?_, ?_⟩ <;> simp [Envelope.startSeg] <;> omega

theorem Envelope.forceIdle_range {e : Envelope} (h : e.RangeInv) : e.forceIdle.RangeInv := by
  obtain ⟨-, -, ha, hd, hs, hr, -⟩ := h
  exact ⟨F32.unit_ends.2, F32.unit_ends.2, ha, hd, hs, hr, le_rfl, by simp [Envelope.forceIdle],
    fun h => by simp [Envelope.forceIdle] at h⟩

/-- One sample keeps the ranges (spec/41_envelope.md R139 to R143, R145 item 1). -/
theorem Envelope.advance_range {e : Envelope} {sr : Nat} (hsr : sr ≤ 192000) (h : e.RangeInv) :
    (e.advance (F32.ofNat sr)).RangeInv := by
  obtain ⟨hl, hl0, ha, hd, hs, hr, hk, hn, hst⟩ := h
  have wd : F32.Between F32.zero 0x40400000#32 e.d := hd.widen (by decide +kernel) (by decide +kernel)
  have ws : F32.Between F32.zero F32.one e.s := hs.widen (by decide +kernel) (by decide +kernel)
  unfold Envelope.advance
  cases h : e.stage with
  | idle => exact ⟨hl, hl0, ha, hd, hs, hr, hk, hn, hst⟩
  | sustain => exact ⟨ws, hl0, ha, hd, hs, hr, hk, hn, fun hh => by simp at hh⟩
  | attack =>
    have hlt := hst (by simp [h])
    simp only [Envelope.attackStep]
    split
    · exact Envelope.startSeg_range hsr wd F32.unit_ends.1 ⟨ha, hd, hs, hr⟩
    case isFalse hx =>
      have : ¬ e.n ≤ e.k + 1 := fun hc => hx (.inl hc)
      exact ⟨Envelope.seg_between hl0 F32.unit_ends.1 (by simp; omega) hn (by simp; omega), hl0, ha, hd, hs, hr,
        by simp; omega, hn, fun _ => by simp; omega⟩
  | decay =>
    have hlt := hst (by simp [h])
    simp only [Envelope.decayStep]
    split
    · exact ⟨ws, hl0, ha, hd, hs, hr, by simp; omega, hn, fun hh => by simp at hh⟩
    case isFalse hx =>
      have : ¬ e.n ≤ e.k + 1 := fun hc => hx (.inl hc)
      exact ⟨Envelope.seg_between hl0 ws (by simp; omega) hn (by simp; omega), hl0, ha, hd, hs, hr, by simp; omega, hn,
        fun _ => by simp; omega⟩
  | release =>
    have hlt := hst (by simp [h])
    simp only [Envelope.releaseStep]
    split
    · exact ⟨F32.unit_ends.2, hl0, ha, hd, hs, hr, by simp; omega, hn, fun hh => by simp at hh⟩
    case isFalse hx =>
      have : ¬ e.n ≤ e.k + 1 := fun hc => hx (.inl hc)
      exact ⟨Envelope.seg_between hl0 F32.unit_ends.2 (by simp; omega) hn (by simp; omega), hl0, ha, hd, hs, hr,
        by simp; omega, hn, fun _ => by simp; omega⟩

/-! ## The oscillator -/

/-- The increment of a legal frequency at a legal rate lies in [0, 2.1275] (spec/42_oscillator.md R163, R164). -/
theorem phaseInc_between {sr : Nat} {f : F32} (hlo : 40000 < sr) (hhi : sr ≤ 192000)
    (hf : F32.Between F32.zero (F32.add (noteHz 127#7) (F32.ofNat 1000)) f) :
    F32.Between F32.zero 0x400828F6#32 (phaseInc (F32.ofNat sr) f) := by
  have fm : F32.isFinite (F32.add (noteHz 127#7) (F32.ofNat 1000)) = true ∧
      F32.toInt (F32.add (noteHz 127#7) (F32.ofNat 1000)) ≤ 13544 * 2 ^ 149 := by decide +kernel
  have ft : F32.isFinite F32.twoPi = true ∧ 0 ≤ F32.toInt F32.twoPi ∧
      F32.toInt F32.twoPi * (13544 * 2 ^ 149) ≤ F32.toInt (F32.ofNat 85100) * 2 ^ 149 := by decide +kernel
  have fb : F32.isFinite 0x400828F6#32 = true ∧
      85100 * 2 ^ 149 * 2 ^ 149 ≤ F32.toInt 0x400828F6#32 * (40001 * 2 ^ 149) := by decide +kernel
  have h := hf.units F32.zero_units.1 fm.1
  rw [F32.zero_units.2] at h
  have fB := F32.ofNat_exact (k := 85100) (by norm_num)
  have fs := F32.ofNat_exact (k := sr) (by omega)
  have hs : (40001 : Int) ≤ sr := by omega
  have m : F32.Between F32.zero (F32.ofNat 85100) (F32.mul F32.twoPi f) := by
    constructor
    · apply F32.le_mul ft.1 h.1 F32.zero_units.1; rw [F32.zero_units.2]; nlinarith [ft.2.1, h.2.1]
    · apply F32.mul_le ft.1 h.1 fB.1
      refine le_trans (mul_le_mul_of_nonneg_left (le_trans h.2.2 fm.2) ft.2.1) ft.2.2
  have m := m.units F32.zero_units.1 fB.1
  rw [F32.zero_units.2, fB.2] at m
  have hpos : 0 < F32.toInt (F32.ofNat sr) := by rw [fs.2]; positivity
  constructor
  · apply F32.le_div m.1 fs.1 F32.zero_units.1 hpos; rw [F32.zero_units.2]; nlinarith [m.2.1]
  · apply F32.div_le m.1 fs.1 fb.1 hpos
    rw [fs.2]
    refine le_trans (mul_le_mul_of_nonneg_right m.2.2 (by positivity)) ?_
    refine le_trans (by exact_mod_cast fb.2) ?_
    refine mul_le_mul_of_nonneg_left ?_ (by decide +kernel)
    exact mul_le_mul_of_nonneg_right hs (by positivity)

/-- The magnitude of the main frequency of any note with an offset in [-1000, 1000] (spec/42_oscillator.md R166). -/
theorem mainFreq_between {note : BitVec 7} {off : F32}
    (h : F32.Between (F32.negate (F32.ofNat 1000)) (F32.ofNat 1000) off) :
    F32.Between F32.zero (F32.add (noteHz 127#7) (F32.ofNat 1000)) (mainFreq note off) := by
  have fK := F32.ofNat_exact (k := 1000) (by norm_num)
  have h := h.units (F32.isFinite_negate fK.1) fK.1
  rw [F32.toInt_negate, fK.2] at h
  have hn : ∀ n : BitVec 7, F32.isFinite (noteHz n) = true ∧ 0 ≤ F32.toInt (noteHz n) ∧
      F32.toInt (noteHz n) ≤ F32.toInt (noteHz 127#7) := by decide +kernel
  have h127 := hn 127#7
  obtain ⟨n1, n2, n3⟩ := hn note
  have fm : F32.isFinite (F32.add (noteHz 127#7) (F32.ofNat 1000)) = true ∧
      F32.toInt (F32.add (noteHz 127#7) (F32.ofNat 1000)) = F32.toInt (noteHz 127#7) + 1000 * 2 ^ 149 := by
    decide +kernel
  have hsum : F32.Between (F32.negate (F32.ofNat 1000)) (F32.add (noteHz 127#7) (F32.ofNat 1000))
      (F32.add (noteHz note) off) := by
    constructor
    · apply F32.le_add n1 h.1 (F32.isFinite_negate fK.1); rw [F32.toInt_negate, fK.2]; push_cast at *; omega
    · apply F32.add_le n1 h.1 fm.1; rw [fm.2]; push_cast at *; omega
  have hsum := hsum.units (F32.isFinite_negate fK.1) fm.1
  rw [F32.toInt_negate, fK.2, fm.2] at hsum
  have fa := F32.isFinite_abs hsum.1
  constructor
  · rw [mainFreq, F32.le_iff_toInt F32.zero_units.1 fa, F32.toInt_abs, F32.zero_units.2]; exact abs_nonneg _
  · rw [mainFreq, F32.le_iff_toInt fa fm.1, F32.toInt_abs, fm.2, abs_le]
    have := h127.2.1
    push_cast at *; omega

/-- The wrap of a value in (-PI, TWO_PI] lies in (-PI, PI] (spec/42_oscillator.md R163). -/
theorem wrap_between {t : F32} (h1 : F32.lt F32.negPi t = true) (h2 : F32.le t F32.twoPi = true) :
    F32.lt F32.negPi (wrap t) = true ∧ F32.le (wrap t) F32.pi = true := by
  have fn : F32.isFinite F32.negPi = true ∧ F32.isFinite F32.pi = true ∧ F32.isFinite F32.twoPi = true ∧
      F32.toInt F32.negPi = -F32.toInt F32.pi ∧ F32.toInt F32.twoPi = 2 * F32.toInt F32.pi ∧ 0 < F32.toInt F32.pi := by
    decide +kernel
  have fb := fn.2.2.1
  have nt : F32.isNaN t = false := by
    cases h : F32.isNaN t with
    | false => rfl
    | true => simp [F32.lt, h] at h1
  have hle : F32.le F32.negPi t = true := by
    simp only [F32.lt, F32.le, nt, Bool.not_false, Bool.and_true, Bool.and_eq_true, decide_eq_true_eq] at *
    exact ⟨h1.1, h1.2.le⟩
  have ft := F32.isFinite_of_le fn.1 fb hle h2
  have h1i := (F32.lt_iff_toInt fn.1 ft).1 h1
  have h2i := (F32.le_iff_toInt ft fb).1 h2
  have neg_le : ∀ {x : F32}, F32.isFinite x = true → F32.lt F32.negPi x = true → F32.le x F32.negPi = false := by
    intro x hx h
    rw [F32.lt_iff_toInt fn.1 hx] at h
    rw [Bool.eq_false_iff]; intro hc; rw [F32.le_iff_toInt hx fn.1] at hc; omega
  have pi_lt : ∀ {x : F32}, F32.isFinite x = true → F32.le x F32.pi = true → F32.lt F32.pi x = false := by
    intro x hx h
    rw [F32.le_iff_toInt hx fn.2.1] at h
    rw [Bool.eq_false_iff]; intro hc; rw [F32.lt_iff_toInt fn.2.1 hx] at hc; omega
  cases hp : F32.le t F32.pi with
  | true => rw [wrap_of_mem (pi_lt ft hp) (neg_le ft h1)]; exact ⟨h1, hp⟩
  | false =>
    have hgt : F32.toInt F32.pi < F32.toInt t := by
      by_contra hc; rw [(F32.le_iff_toInt ft fn.2.1).2 (by omega)] at hp; cases hp
    have s1 : F32.le (F32.sub t F32.twoPi) F32.zero = true :=
      F32.sub_le ft fn.2.2.1 F32.zero_units.1 (by rw [F32.zero_units.2]; omega)
    have tp : F32.neg? t = false := by
      cases h : F32.neg? t with
      | false => rfl
      | true => rw [F32.toInt_of_neg h] at hgt; omega
    have up : F32.neg? F32.pi = false ∧ F32.unitsOf (F32.mag F32.pi + 1) - 2 * F32.toInt F32.pi =
        F32.toInt 0xC0490FDA#32 ∧ F32.isFinite 0xC0490FDA#32 = true ∧ F32.lt F32.negPi 0xC0490FDA#32 = true := by
      decide +kernel
    have hm : F32.unitsOf (F32.mag F32.pi + 1) ≤ F32.unitsOf (F32.mag t) := by
      rw [F32.toInt_of_pos up.1, F32.toInt_of_pos tp] at hgt
      exact F32.unitsOf_le_iff.2 (F32.unitsOf_lt_iff.1 (by exact_mod_cast hgt))
    have s2 : F32.le 0xC0490FDA#32 (F32.sub t F32.twoPi) = true :=
      F32.le_sub ft fn.2.2.1 up.2.2.1 (by rw [F32.toInt_of_pos tp]; omega)
    have fs := F32.isFinite_of_le up.2.2.1 F32.zero_units.1 s2 s1
    have l1 : F32.lt F32.negPi (F32.sub t F32.twoPi) = true := by
      rw [F32.lt_iff_toInt fn.1 fs]
      have := (F32.le_iff_toInt up.2.2.1 fs).1 s2
      have := (F32.lt_iff_toInt fn.1 up.2.2.1).1 up.2.2.2
      omega
    have l2 : F32.le (F32.sub t F32.twoPi) F32.pi = true := F32.le_trans s1 (by decide +kernel)
    rw [wrap_of_turn _ (pi_lt fs l2) (neg_le fs l1)]
    · exact ⟨l1, l2⟩
    · exact (F32.lt_iff_toInt fn.2.1 ft).2 hgt

/-- One frame with increments in [0, 2.1275] and a bounded sine keeps the ranges (spec/42_oscillator.md R168, R172). -/
theorem Oscillator.frame_range {sin : F32 → F32} {incM incFm : F32} {o : Oscillator} (hsin : SinBounded sin)
    (hM : F32.Between F32.zero 0x400828F6#32 incM) (hFm : F32.Between F32.zero 0x400828F6#32 incFm)
    (h : o.RangeInv) : (o.frame sin incM incFm).1.RangeInv := by
  have fb : F32.isFinite 0x400828F6#32 = true ∧ F32.isFinite F32.negPi = true ∧ F32.isFinite F32.pi = true ∧
      F32.isFinite F32.twoPi = true ∧ F32.toInt F32.pi + F32.toInt 0x400828F6#32 ≤ F32.toInt F32.twoPi := by
    decide +kernel
  have phase : ∀ {p inc : F32}, F32.lt F32.negPi p = true ∧ F32.le p F32.pi = true →
      F32.Between F32.zero 0x400828F6#32 inc →
      F32.lt F32.negPi (wrap (F32.add p inc)) = true ∧ F32.le (wrap (F32.add p inc)) F32.pi = true := by
    intro p inc hp hi
    have np : F32.isNaN p = false := by
      cases h : F32.isNaN p with
      | false => rfl
      | true => simp [F32.lt, h] at hp
    have hle : F32.le F32.negPi p = true := by
      have := hp.1
      simp only [F32.lt, F32.le, np, Bool.not_false, Bool.and_true, Bool.and_eq_true, decide_eq_true_eq] at *
      exact ⟨this.1, this.2.le⟩
    have fp := F32.isFinite_of_le fb.2.1 fb.2.2.1 hle hp.2
    have ip := (F32.lt_iff_toInt fb.2.1 fp).1 hp.1
    have ip2 := (F32.le_iff_toInt fp fb.2.2.1).1 hp.2
    have hi := hi.units F32.zero_units.1 fb.1
    rw [F32.zero_units.2] at hi
    have up : F32.le (F32.add p inc) F32.twoPi = true := F32.add_le fp hi.1 fb.2.2.2.1 (by omega)
    have lo : F32.le p (F32.add p inc) = true := F32.le_add fp hi.1 fp (by omega)
    have fa := F32.isFinite_of_le fp fb.2.2.2.1 lo up
    refine wrap_between ?_ up
    rw [F32.lt_iff_toInt fb.2.1 fa]
    have := (F32.le_iff_toInt fp fa).1 lo
    omega
  obtain ⟨h1, h2, h3, h4, h5, h6⟩ := h
  refine ⟨phase h1 hM, phase h2 hFm, h3, h4, ?_, h6⟩
  have fK := F32.ofNat_exact (k := 1000) (by norm_num)
  have hs := hsin o.phiFm
  have fs : F32.isFinite (sin o.phiFm) = true := by
    have : F32.isFinite (F32.abs (sin o.phiFm)) = true := by
      refine F32.isFinite_of_le F32.zero_units.1 F32.one_units.1 ?_ hs
      have nn : F32.isNaN (F32.abs (sin o.phiFm)) = false := by
        cases h : F32.isNaN (F32.abs (sin o.phiFm)) with
        | false => rfl
        | true => simp [F32.le, h] at hs
      have k0 : F32.key F32.zero = 0 ∧ F32.isNaN F32.zero = false := by decide +kernel
      rw [F32.le_iff_key k0.2 nn, k0.1]
      simp [F32.key]
    simpa [F32.isFinite] using this
  have is := (F32.le_iff_toInt (F32.isFinite_abs fs) F32.one_units.1).1 hs
  rw [F32.toInt_abs, F32.one_units.2, abs_le] at is
  have hd := h4.units F32.zero_units.1 fK.1
  rw [F32.zero_units.2, fK.2] at hd
  constructor
  · apply F32.le_mul fs hd.1 (F32.isFinite_negate fK.1); rw [F32.toInt_negate, fK.2]; push_cast at *; nlinarith
  · apply F32.mul_le fs hd.1 fK.1; rw [fK.2]; push_cast at *; nlinarith

/-- A block with a bounded sine at a legal rate keeps the ranges (spec/42_oscillator.md R168). -/
theorem Oscillator.render_range {sin : F32 → F32} {sr n : Nat} {o : Oscillator} (hsin : SinBounded sin)
    (hlo : 40000 < sr) (hhi : sr ≤ 192000) (h : o.RangeInv) : (o.render sin (F32.ofNat sr) n).1.RangeInv := by
  have big : F32.le (F32.ofNat 1000) (F32.add (noteHz 127#7) (F32.ofNat 1000)) = true := by decide +kernel
  have hM := phaseInc_between hlo hhi h.2.2.2.2.2
  have hFm := phaseInc_between hlo hhi (h.2.2.1.widen (by decide +kernel) big)
  unfold Oscillator.render
  generalize phaseInc (F32.ofNat sr) o.f = incM at hM
  generalize phaseInc (F32.ofNat sr) o.fmFreq = incFm at hFm
  induction n generalizing o with
  | zero => exact h
  | succ n ih => exact ih (Oscillator.frame_range hsin hM hFm h)

end Sys2Proof.Machine
end

