-- ==== Sys2Proof/Laws/State.lean ====
section
/-! SUPPORT. One lemma per field per named update of the state, all true by rfl, so that no proof unfolds a record update. -/

namespace Sys2Proof.Machine

/-! ## `flag` -/

@[simp] theorem State.flag_prepared (s : State) (e : Err) : (s.flag e).prepared = s.prepared := rfl
@[simp] theorem State.flag_curSr (s : State) (e : Err) : (s.flag e).curSr = s.curSr := rfl
@[simp] theorem State.flag_curBlock (s : State) (e : Err) : (s.flag e).curBlock = s.curBlock := rfl
@[simp] theorem State.flag_curNch (s : State) (e : Err) : (s.flag e).curNch = s.curNch := rfl
@[simp] theorem State.flag_lastN (s : State) (e : Err) : (s.flag e).lastN = s.lastN := rfl
@[simp] theorem State.flag_err (s : State) (e : Err) : (s.flag e).err = setErr s.err e := rfl
@[simp] theorem State.flag_prepSr (s : State) (e : Err) : (s.flag e).prepSr = s.prepSr := rfl
@[simp] theorem State.flag_prepBlock (s : State) (e : Err) : (s.flag e).prepBlock = s.prepBlock := rfl
@[simp] theorem State.flag_prepNch (s : State) (e : Err) : (s.flag e).prepNch = s.prepNch := rfl
@[simp] theorem State.flag_params (s : State) (e : Err) : (s.flag e).params = s.params := rfl
@[simp] theorem State.flag_evq (s : State) (e : Err) : (s.flag e).evq = s.evq := rfl
@[simp] theorem State.flag_mem (s : State) (e : Err) : (s.flag e).mem = s.mem := rfl
@[simp] theorem State.flag_voices (s : State) (e : Err) : (s.flag e).voices = s.voices := rfl
@[simp] theorem State.flag_base (s : State) (e : Err) : (s.flag e).base = s.base := rfl
@[simp] theorem State.flag_port (s : State) (e : Err) : (s.flag e).port = s.port := rfl
@[simp] theorem State.flag_readData (s : State) (e : Err) : (s.flag e).readData = s.readData := rfl

/-! ## `clearErrBits` -/

@[simp] theorem State.clearErrBits_prepared (s : State) (w : Word) : (s.clearErrBits w).prepared = s.prepared := rfl
@[simp] theorem State.clearErrBits_curSr (s : State) (w : Word) : (s.clearErrBits w).curSr = s.curSr := rfl
@[simp] theorem State.clearErrBits_curBlock (s : State) (w : Word) : (s.clearErrBits w).curBlock = s.curBlock := rfl
@[simp] theorem State.clearErrBits_curNch (s : State) (w : Word) : (s.clearErrBits w).curNch = s.curNch := rfl
@[simp] theorem State.clearErrBits_lastN (s : State) (w : Word) : (s.clearErrBits w).lastN = s.lastN := rfl
@[simp] theorem State.clearErrBits_err (s : State) (w : Word) : (s.clearErrBits w).err = clearErr s.err w := rfl
@[simp] theorem State.clearErrBits_prepSr (s : State) (w : Word) : (s.clearErrBits w).prepSr = s.prepSr := rfl
@[simp] theorem State.clearErrBits_prepBlock (s : State) (w : Word) : (s.clearErrBits w).prepBlock = s.prepBlock := rfl
@[simp] theorem State.clearErrBits_prepNch (s : State) (w : Word) : (s.clearErrBits w).prepNch = s.prepNch := rfl
@[simp] theorem State.clearErrBits_params (s : State) (w : Word) : (s.clearErrBits w).params = s.params := rfl
@[simp] theorem State.clearErrBits_evq (s : State) (w : Word) : (s.clearErrBits w).evq = s.evq := rfl
@[simp] theorem State.clearErrBits_mem (s : State) (w : Word) : (s.clearErrBits w).mem = s.mem := rfl
@[simp] theorem State.clearErrBits_voices (s : State) (w : Word) : (s.clearErrBits w).voices = s.voices := rfl
@[simp] theorem State.clearErrBits_base (s : State) (w : Word) : (s.clearErrBits w).base = s.base := rfl
@[simp] theorem State.clearErrBits_port (s : State) (w : Word) : (s.clearErrBits w).port = s.port := rfl
@[simp] theorem State.clearErrBits_readData (s : State) (w : Word) : (s.clearErrBits w).readData = s.readData := rfl

/-! ## `respond` -/

@[simp] theorem State.respond_prepared (s : State) (w : Word) : (s.respond w).prepared = s.prepared := rfl
@[simp] theorem State.respond_curSr (s : State) (w : Word) : (s.respond w).curSr = s.curSr := rfl
@[simp] theorem State.respond_curBlock (s : State) (w : Word) : (s.respond w).curBlock = s.curBlock := rfl
@[simp] theorem State.respond_curNch (s : State) (w : Word) : (s.respond w).curNch = s.curNch := rfl
@[simp] theorem State.respond_lastN (s : State) (w : Word) : (s.respond w).lastN = s.lastN := rfl
@[simp] theorem State.respond_err (s : State) (w : Word) : (s.respond w).err = s.err := rfl
@[simp] theorem State.respond_prepSr (s : State) (w : Word) : (s.respond w).prepSr = s.prepSr := rfl
@[simp] theorem State.respond_prepBlock (s : State) (w : Word) : (s.respond w).prepBlock = s.prepBlock := rfl
@[simp] theorem State.respond_prepNch (s : State) (w : Word) : (s.respond w).prepNch = s.prepNch := rfl
@[simp] theorem State.respond_params (s : State) (w : Word) : (s.respond w).params = s.params := rfl
@[simp] theorem State.respond_evq (s : State) (w : Word) : (s.respond w).evq = s.evq := rfl
@[simp] theorem State.respond_mem (s : State) (w : Word) : (s.respond w).mem = s.mem := rfl
@[simp] theorem State.respond_voices (s : State) (w : Word) : (s.respond w).voices = s.voices := rfl
@[simp] theorem State.respond_base (s : State) (w : Word) : (s.respond w).base = s.base := rfl
@[simp] theorem State.respond_port (s : State) (w : Word) : (s.respond w).port = s.port := rfl
@[simp] theorem State.respond_readData (s : State) (w : Word) : (s.respond w).readData = w :: s.readData := rfl

/-! ## `clearRun` -/

@[simp] theorem State.clearRun_prepared (s : State) : (s.clearRun).prepared = s.prepared := rfl
@[simp] theorem State.clearRun_curSr (s : State) : (s.clearRun).curSr = s.curSr := rfl
@[simp] theorem State.clearRun_curBlock (s : State) : (s.clearRun).curBlock = s.curBlock := rfl
@[simp] theorem State.clearRun_curNch (s : State) : (s.clearRun).curNch = s.curNch := rfl
@[simp] theorem State.clearRun_lastN (s : State) : (s.clearRun).lastN = 0#32 := rfl
@[simp] theorem State.clearRun_err (s : State) : (s.clearRun).err = s.err := rfl
@[simp] theorem State.clearRun_prepSr (s : State) : (s.clearRun).prepSr = s.prepSr := rfl
@[simp] theorem State.clearRun_prepBlock (s : State) : (s.clearRun).prepBlock = s.prepBlock := rfl
@[simp] theorem State.clearRun_prepNch (s : State) : (s.clearRun).prepNch = s.prepNch := rfl
@[simp] theorem State.clearRun_params (s : State) : (s.clearRun).params = s.params := rfl
@[simp] theorem State.clearRun_evq (s : State) : (s.clearRun).evq = [] := rfl
@[simp] theorem State.clearRun_mem (s : State) : (s.clearRun).mem = [] := rfl
@[simp] theorem State.clearRun_voices (s : State) : (s.clearRun).voices = s.voices.map fun _ => Voice.reset := rfl
@[simp] theorem State.clearRun_base (s : State) : (s.clearRun).base = s.base := rfl
@[simp] theorem State.clearRun_port (s : State) : (s.clearRun).port = s.port := rfl
@[simp] theorem State.clearRun_readData (s : State) : (s.clearRun).readData = s.readData := rfl

/-! ## `withFetchWord` -/

@[simp] theorem State.withFetchWord_prepared (s : State) (nbits w : Nat) : (s.withFetchWord nbits w).prepared = s.prepared := rfl
@[simp] theorem State.withFetchWord_curSr (s : State) (nbits w : Nat) : (s.withFetchWord nbits w).curSr = s.curSr := rfl
@[simp] theorem State.withFetchWord_curBlock (s : State) (nbits w : Nat) : (s.withFetchWord nbits w).curBlock = s.curBlock := rfl
@[simp] theorem State.withFetchWord_curNch (s : State) (nbits w : Nat) : (s.withFetchWord nbits w).curNch = s.curNch := rfl
@[simp] theorem State.withFetchWord_lastN (s : State) (nbits w : Nat) : (s.withFetchWord nbits w).lastN = s.lastN := rfl
@[simp] theorem State.withFetchWord_err (s : State) (nbits w : Nat) : (s.withFetchWord nbits w).err = s.err := rfl
@[simp] theorem State.withFetchWord_prepSr (s : State) (nbits w : Nat) : (s.withFetchWord nbits w).prepSr = s.prepSr := rfl
@[simp] theorem State.withFetchWord_prepBlock (s : State) (nbits w : Nat) : (s.withFetchWord nbits w).prepBlock = s.prepBlock := rfl
@[simp] theorem State.withFetchWord_prepNch (s : State) (nbits w : Nat) : (s.withFetchWord nbits w).prepNch = s.prepNch := rfl
@[simp] theorem State.withFetchWord_params (s : State) (nbits w : Nat) : (s.withFetchWord nbits w).params = s.params := rfl
@[simp] theorem State.withFetchWord_evq (s : State) (nbits w : Nat) : (s.withFetchWord nbits w).evq = s.evq := rfl
@[simp] theorem State.withFetchWord_mem (s : State) (nbits w : Nat) : (s.withFetchWord nbits w).mem = s.mem := rfl
@[simp] theorem State.withFetchWord_voices (s : State) (nbits w : Nat) : (s.withFetchWord nbits w).voices = s.voices := rfl
@[simp] theorem State.withFetchWord_base (s : State) (nbits w : Nat) : (s.withFetchWord nbits w).base = s.base := rfl
@[simp] theorem State.withFetchWord_port (s : State) (nbits w : Nat) : (s.withFetchWord nbits w).port = .write (s.base + 12) (BitVec.ofNat 32 w) :: s.port := rfl
@[simp] theorem State.withFetchWord_readData (s : State) (nbits w : Nat) : (s.withFetchWord nbits w).readData = s.readData := rfl

/-! ## `resetN` -/

@[simp] theorem State.resetN_prepared (nv base : Nat) : (State.resetN nv base).prepared = false := rfl
@[simp] theorem State.resetN_curSr (nv base : Nat) : (State.resetN nv base).curSr = 0#32 := rfl
@[simp] theorem State.resetN_curBlock (nv base : Nat) : (State.resetN nv base).curBlock = 0#32 := rfl
@[simp] theorem State.resetN_curNch (nv base : Nat) : (State.resetN nv base).curNch = 0#32 := rfl
@[simp] theorem State.resetN_lastN (nv base : Nat) : (State.resetN nv base).lastN = 0#32 := rfl
@[simp] theorem State.resetN_err (nv base : Nat) : (State.resetN nv base).err = 0#8 := rfl
@[simp] theorem State.resetN_prepSr (nv base : Nat) : (State.resetN nv base).prepSr = 44100#32 := rfl
@[simp] theorem State.resetN_prepBlock (nv base : Nat) : (State.resetN nv base).prepBlock = 512#32 := rfl
@[simp] theorem State.resetN_prepNch (nv base : Nat) : (State.resetN nv base).prepNch = 2#32 := rfl
@[simp] theorem State.resetN_params (nv base : Nat) : (State.resetN nv base).params = Params.reset := rfl
@[simp] theorem State.resetN_evq (nv base : Nat) : (State.resetN nv base).evq = [] := rfl
@[simp] theorem State.resetN_mem (nv base : Nat) : (State.resetN nv base).mem = [] := rfl
@[simp] theorem State.resetN_voices (nv base : Nat) : (State.resetN nv base).voices = List.replicate nv Voice.reset := rfl
@[simp] theorem State.resetN_base (nv base : Nat) : (State.resetN nv base).base = base := rfl
@[simp] theorem State.resetN_port (nv base : Nat) : (State.resetN nv base).port = [] := rfl
@[simp] theorem State.resetN_readData (nv base : Nat) : (State.resetN nv base).readData = [] := rfl

/-! ## `writeParam`: the parameters or ERR change, nothing else -/

theorem State.writeParam_of_some {s : State} {p : Param} {w : Word} {ps : Params} (h : s.params.write w p = some ps) :
    s.writeParam p w = { s with params := ps } := by simp [State.writeParam, h]

theorem State.writeParam_of_none {s : State} {p : Param} {w : Word} (h : s.params.write w p = none) :
    s.writeParam p w = s.flag .badParam := by simp [State.writeParam, h]

/-! ## The parameter registers as a map -/

@[simp] theorem Params.get_set_same (ps : Params) (x : F32) (p : RealParam) : (ps.set x p).get p = x := by
  cases p <;> rfl

theorem Params.get_set_other (ps : Params) (x : F32) {p q : RealParam} (h : q ≠ p) : (ps.set x p).get q = ps.get q := by
  cases p <;> cases q <;> first | rfl | exact absurd rfl h

@[simp] theorem Params.oscWaveType_set (ps : Params) (x : F32) (p : RealParam) :
    (ps.set x p).oscWaveType = ps.oscWaveType := by cases p <;> rfl

@[simp] theorem Params.filterType_set (ps : Params) (x : F32) (p : RealParam) :
    (ps.set x p).filterType = ps.filterType := by cases p <;> rfl

end Sys2Proof.Machine
end

