-- ==== Sys2Proof/Laws/Step.lean ====
section
/-! SUPPORT. What each shared operation and each step can do, said once: every later proof about a step starts from
`step_cases`, `perform_cases` and `exec_cases`. -/

namespace Sys2Proof.Machine

/-! ## Errors -/

theorem raise_eq (e : Err) (s : State) : raise e s = .next (s.flag e) := rfl

/-- A set bit stays set, and the cause's own bit is set. -/
theorem setErr_getLsbD (err : BitVec 8) (e : Err) (i : Nat) :
    (setErr err e).getLsbD i = (err.getLsbD i || decide (i = e.code)) := by
  have hc : e.code < 8 := by cases e <;> decide
  simp only [setErr, BitVec.getLsbD_or, BitVec.getLsbD_shiftLeft, BitVec.getLsbD_one]
  congr 1
  by_cases h : i = e.code
  · subst h; simp [hc]
  · by_cases h' : i < e.code
    · simp [h, h']
    · have : i - e.code ≠ 0 := by omega
      simp [h, this]

/-! ## Commands -/

theorem enqueue_full {e : Event} {s : State} (h : s.evq.length = Config.evqDepth) :
    enqueue e s = .next (s.flag .evqOvf) := by simp [enqueue, h, raise]

theorem enqueue_room {e : Event} {s : State} (h : s.evq.length ≠ Config.evqDepth) :
    enqueue e s = .next { s with evq := s.evq ++ [e] } := by simp [enqueue, h]

theorem renderWith_unprepared {sin tan : F32 → F32} {n : BitVec 16} {s : State} (h : s.prepared = false) :
    renderWith sin tan n s = .fault (.precond (s.flag .precond)) := by simp [renderWith, h]

theorem renderWith_badLen {sin tan : F32 → F32} {n : BitVec 16} {s : State} (h : s.prepared = true)
    (hn : n.toNat = 0 ∨ s.curBlock.toNat < n.toNat) : renderWith sin tan n s = .next (s.flag .badLen) := by
  simp [renderWith, h, hn, raise]

theorem renderWith_legal {sin tan : F32 → F32} {n : BitVec 16} {s : State} (h : s.prepared = true)
    (hn : ¬(n.toNat = 0 ∨ s.curBlock.toNat < n.toNat)) :
    renderWith sin tan n s = .next (s.renderBlock sin tan n) := by
  unfold renderWith
  rw [if_neg (by simp [h]), if_neg hn]

/-- Everything a command can do when it answers a next state. -/
theorem exec_cases {i : Instr} {s t : State} (h : exec i s = .next t) :
    (∃ e, t = { s with evq := s.evq ++ [e] } ∧ e.seq = s.evq.length ∧ s.evq.length ≠ Config.evqDepth ∧
      ((∃ ts vel note, i = .noteOn ts vel note) ∨ ∃ ts tail vel note, i = .noteOff ts tail vel note)) ∨
    (t = s.flag .evqOvf ∧ s.evq.length = Config.evqDepth ∧
      ((∃ ts vel note, i = .noteOn ts vel note) ∨ ∃ ts tail vel note, i = .noteOff ts tail vel note)) ∨
    (∃ n, i = .render n ∧ s.prepared = true ∧ (n.toNat = 0 ∨ s.curBlock.toNat < n.toNat) ∧ t = s.flag .badLen) ∨
    (∃ n, i = .render n ∧ s.prepared = true ∧ 1 ≤ n.toNat ∧ n.toNat ≤ s.curBlock.toNat ∧
      t = s.renderBlock Config.sin32 Config.tan32 n) ∨
    (i = .prepare ∧ configLegal s.prepSr s.prepBlock s.prepNch = true ∧
      t = { s.clearRun with prepared := true, curSr := s.prepSr, curBlock := s.prepBlock, curNch := s.prepNch }) ∨
    (i = .prepare ∧ configLegal s.prepSr s.prepBlock s.prepNch = false ∧ t = s.flag .badConfig) ∨
    (i = .resetFilters ∧ t = { s with voices := s.voices.map fun v => { v with filt := v.filt.clear } }) ∨
    (i = .release ∧
      t = { s.clearRun with prepared := false, curSr := 0#32, curBlock := 0#32, curNch := 0#32 }) := by
  cases i with
  | noteOn ts vel note =>
    by_cases hq : s.evq.length = Config.evqDepth
    · simp only [exec, execNoteOn, enqueue_full hq, Host.Outcome.next.injEq] at h
      exact .inr (.inl ⟨h.symm, hq, .inl ⟨ts, vel, note, rfl⟩⟩)
    · simp only [exec, execNoteOn, enqueue_room hq, Host.Outcome.next.injEq] at h
      exact .inl ⟨_, h.symm, rfl, hq, .inl ⟨ts, vel, note, rfl⟩⟩
  | noteOff ts tail vel note =>
    by_cases hq : s.evq.length = Config.evqDepth
    · simp only [exec, execNoteOff, enqueue_full hq, Host.Outcome.next.injEq] at h
      exact .inr (.inl ⟨h.symm, hq, .inr ⟨ts, tail, vel, note, rfl⟩⟩)
    · simp only [exec, execNoteOff, enqueue_room hq, Host.Outcome.next.injEq] at h
      exact .inl ⟨_, h.symm, rfl, hq, .inr ⟨ts, tail, vel, note, rfl⟩⟩
  | render n =>
    cases hp : s.prepared with
    | false => simp [exec, execRender, renderWith_unprepared hp] at h
    | true =>
      by_cases hn : n.toNat = 0 ∨ s.curBlock.toNat < n.toNat
      · simp only [exec, execRender, renderWith_badLen hp hn, Host.Outcome.next.injEq] at h
        exact .inr (.inr (.inl ⟨n, rfl, rfl, hn, h.symm⟩))
      · simp only [exec, execRender, renderWith_legal hp hn, Host.Outcome.next.injEq] at h
        exact .inr (.inr (.inr (.inl ⟨n, rfl, rfl, by omega, by omega, h.symm⟩)))
  | prepare =>
    cases hc : configLegal s.prepSr s.prepBlock s.prepNch with
    | true =>
      simp only [exec, execPrepare, hc, if_true, Host.Outcome.next.injEq] at h
      exact .inr (.inr (.inr (.inr (.inl ⟨rfl, rfl, h.symm⟩))))
    | false =>
      simp only [exec, execPrepare, hc, Bool.false_eq_true, if_false, raise_eq, Host.Outcome.next.injEq] at h
      exact .inr (.inr (.inr (.inr (.inr (.inl ⟨rfl, rfl, h.symm⟩)))))
  | resetFilters =>
    simp only [exec, execResetFilters, Host.Outcome.next.injEq] at h
    exact .inr (.inr (.inr (.inr (.inr (.inr (.inl ⟨rfl, h.symm⟩))))))
  | release =>
    simp only [exec, execRelease, Host.Outcome.next.injEq] at h
    exact .inr (.inr (.inr (.inr (.inr (.inr (.inr ⟨rfl, h.symm⟩))))))

/-! ## Accesses and steps -/

/-- Everything an access can do when it answers a next state. -/
theorem perform_cases {a : Access} {s t : State} (h : perform a s = .next t) :
    (∃ addr r, a = .read addr ∧ target addr = some r ∧ t = s.respond (s.readReg r)) ∨
    (∃ addr, a = .read addr ∧ target addr = none ∧ t = (s.flag .badAddr).respond 0#32) ∨
    (∃ addr w, a = .write addr w ∧ t = s.flag .badAddr) ∨
    (∃ addr w, a = .write addr w ∧ target addr = some .err ∧ t = s.clearErrBits w) ∨
    (∃ addr w, a = .write addr w ∧ target addr = some .prepSr ∧ t = { s with prepSr := w }) ∨
    (∃ addr w, a = .write addr w ∧ target addr = some .prepBlock ∧ t = { s with prepBlock := w }) ∨
    (∃ addr w, a = .write addr w ∧ target addr = some .prepNch ∧ t = { s with prepNch := w }) ∨
    (∃ addr w p, a = .write addr w ∧ target addr = some (.param p) ∧ t = s.writeParam p w) ∨
    (∃ addr w, a = .write addr w ∧ target addr = some .cmd ∧ (∃ r, decode w = .error r) ∧ t = s.flag .badCmd) ∨
    (∃ addr w i, a = .write addr w ∧ target addr = some .cmd ∧ decode w = .ok i ∧ exec i s = .next t) ∨
    (a = .reset ∧ t = resetInput s) := by
  cases a with
  | read addr =>
    simp only [perform, Host.Outcome.next.injEq] at h
    cases ht : target addr with
    | none => simp only [busRead, ht] at h; exact .inr (.inl ⟨addr, rfl, ht, h.symm⟩)
    | some r => simp only [busRead, ht] at h; exact .inl ⟨addr, r, rfl, ht, h.symm⟩
  | reset =>
    simp only [perform, Host.Outcome.next.injEq] at h
    simp [← h]
  | write addr w =>
    simp only [perform, busWrite] at h
    cases ht : target addr with
    | none =>
      simp only [ht, Host.Outcome.next.injEq] at h
      exact .inr (.inr (.inl ⟨addr, w, rfl, h.symm⟩))
    | some r =>
      simp only [ht] at h
      cases r with
      | cmd =>
        simp only [writeReg, runCommand] at h
        cases hd : decode w with
        | error r =>
          simp only [hd, raise_eq, Host.Outcome.next.injEq] at h
          simp [ht, hd, ← h]
        | ok i =>
          simp only [hd] at h
          simp [ht, hd, h]
      | err => simp only [writeReg, Host.Outcome.next.injEq] at h; simp [ht, ← h]
      | prepSr => simp only [writeReg, Host.Outcome.next.injEq] at h; simp [ht, ← h]
      | prepBlock => simp only [writeReg, Host.Outcome.next.injEq] at h; simp [ht, ← h]
      | prepNch => simp only [writeReg, Host.Outcome.next.injEq] at h; simp [ht, ← h]
      | param p => simp only [writeReg, Host.Outcome.next.injEq] at h; simp [ht, ← h]
      | caps => simp only [writeReg, Host.Outcome.next.injEq] at h; simp [← h]
      | status => simp only [writeReg, Host.Outcome.next.injEq] at h; simp [← h]
      | curSr => simp only [writeReg, Host.Outcome.next.injEq] at h; simp [← h]
      | curBlock => simp only [writeReg, Host.Outcome.next.injEq] at h; simp [← h]
      | curNch => simp only [writeReg, Host.Outcome.next.injEq] at h; simp [← h]
      | lastN => simp only [writeReg, Host.Outcome.next.injEq] at h; simp [← h]
      | vstat v => simp only [writeReg, Host.Outcome.next.injEq] at h; simp [← h]
      | out c i => simp only [writeReg, Host.Outcome.next.injEq] at h; simp [← h]

theorem step_idle {s : State} (h : s.port = []) : step s = .next s := by simp [step, h]

theorem step_host {s : State} {h : HostAccess} {rest : List HostAccess} (hp : s.port = h :: rest) :
    step s = performHost h { s with port := rest } := by simp [step, hp]

/-- The host's address of an offset has that offset (R86). -/
theorem offset?_base_add (base : Nat) (off : Addr) : offset? base (base + off.toNat) = some off := by
  have := off.isLt
  simp only [offset?]
  rw [if_pos (by omega), Nat.add_sub_cancel_left, BitVec.ofNat_toNat, BitVec.setWidth_eq]

/-- A host address has an offset exactly when it is the base plus that offset (R86). -/
theorem offset?_eq_some {base a : Nat} {off : Addr} : offset? base a = some off ↔ a = base + off.toNat := by
  refine ⟨fun h => ?_, fun h => h ▸ offset?_base_add base off⟩
  unfold offset? at h
  split at h
  · rw [← Option.some.inj h, BitVec.toNat_ofNat]
    omega
  · cases h

@[simp] theorem Access.atPins?_atBase (base : Nat) (a : Access) : (a.atBase base).atPins? base = some a := by
  cases a <;> simp [Access.atBase, HostAccess.atPins?, offset?_base_add]

/-- The block sees `a` exactly of the host's access at the base plus its offset (R86). -/
theorem HostAccess.atPins?_eq_some {base : Nat} {h : HostAccess} {a : Access} :
    h.atPins? base = some a ↔ h = a.atBase base := by
  refine ⟨fun e => ?_, fun e => e ▸ Access.atPins?_atBase base a⟩
  cases h <;> simp only [HostAccess.atPins?, Option.map_eq_some_iff, offset?_eq_some, Option.some.injEq] at e
  case read => obtain ⟨off, rfl, rfl⟩ := e; rfl
  case write => obtain ⟨off, rfl, rfl⟩ := e; rfl
  case reset => subst e; rfl

theorem performHost_of_atBase (a : Access) (s : State) : performHost (a.atBase s.base) s = perform a s := by
  simp [performHost]

theorem step_access {s : State} {a : Access} {rest : List HostAccess} (h : s.port = a.atBase s.base :: rest) :
    step s = perform a { s with port := rest } := by
  rw [step_host h]
  exact performHost_of_atBase a { s with port := rest }

/-- Everything a step can do when it answers a next state. -/
theorem step_cases {s t : State} (h : step s = .next t) :
    (s.port = [] ∧ t = s) ∨
    (∃ h rest, s.port = h :: rest ∧ h.atPins? s.base = none ∧ t = { s with port := rest }) ∨
    ∃ a rest, s.port = a.atBase s.base :: rest ∧ perform a { s with port := rest } = .next t := by
  cases hp : s.port with
  | nil => rw [step_idle hp, Host.Outcome.next.injEq] at h; exact .inl ⟨rfl, h.symm⟩
  | cons x rest =>
    cases ha : x.atPins? s.base with
    | none =>
      rw [step_host hp] at h
      simp only [performHost, ha, Host.Outcome.next.injEq] at h
      exact .inr (.inl ⟨x, rest, rfl, ha, h.symm⟩)
    | some a =>
      rw [HostAccess.atPins?_eq_some] at ha
      rw [step_access (ha ▸ hp)] at h
      exact .inr (.inr ⟨a, rest, by rw [ha], h⟩)

/-- What a step can do to the voices: nothing, the voice reset state everywhere, the integrators cleared everywhere, or
a RENDER of a legal length on a prepared block. -/
theorem step_voices_cases {s t : State} (h : step s = .next t) :
    t.voices = s.voices ∨ t.voices = s.voices.map (fun _ => Voice.reset) ∨
      t.voices = s.voices.map (fun v => { v with filt := v.filt.clear }) ∨
      ∃ w n rest, s.port = .write (s.base + 0x000C) w :: rest ∧ decode w = .ok (.render n) ∧ s.prepared = true ∧
        1 ≤ n.toNat ∧ n.toNat ≤ s.curBlock.toNat ∧
        t = State.renderBlock Config.sin32 Config.tan32 n { s with port := rest } := by
  rcases step_cases h with ⟨_, rfl⟩ | ⟨_, _, _, _, rfl⟩ | ⟨a, rest, hp, h⟩
  · exact .inl rfl
  · exact .inl rfl
  rcases perform_cases h with ⟨_, _, _, _, rfl⟩ | ⟨_, _, _, rfl⟩ | ⟨_, _, _, rfl⟩ | ⟨_, _, _, _, rfl⟩ |
    ⟨_, _, _, _, rfl⟩ | ⟨_, _, _, _, rfl⟩ | ⟨_, _, _, _, rfl⟩ | ⟨_, w, p, _, _, rfl⟩ | ⟨_, _, _, _, _, rfl⟩ |
    ⟨addr, w, i, rfl, ht, hd, hx⟩ | ⟨_, rfl⟩
  any_goals exact .inl rfl
  · left
    unfold State.writeParam
    split <;> rfl
  · rcases exec_cases hx with ⟨_, rfl, _⟩ | ⟨rfl, _⟩ | ⟨_, _, _, _, rfl⟩ | ⟨n, rfl, h1, h2, h3, rfl⟩ | ⟨_, _, rfl⟩ |
      ⟨_, _, rfl⟩ | ⟨_, rfl⟩ | ⟨_, rfl⟩
    any_goals exact .inl rfl
    · have ha : addr = 0x000C#16 := by
        unfold target at ht
        split at ht
        case isFalse => cases ht
        case isTrue h4 =>
          unfold regAt at ht
          split at ht
          case isTrue h30 =>
            unfold controlReg at ht
            split at ht <;> try (injection ht with ht; cases ht; done)
            · apply BitVec.eq_of_toNat_eq
              show addr.toNat = 12
              omega
            · cases ht
          case isFalse =>
            split at ht
            · cases hq : paramAt ((addr.toNat - 0x40) / 4) <;> simp [hq] at ht
            · split at ht
              · cases ht
              · split at ht <;> cases ht
      subst ha
      exact .inr (.inr (.inr ⟨w, n, rest, hp, hd, h1, h2, h3, rfl⟩))
    · exact .inr (.inl rfl)
    · exact .inr (.inr (.inl rfl))
    · exact .inr (.inl rfl)
  · exact .inr (.inl (by simp [resetInput, State.resetN, List.map_const']))

end Sys2Proof.Machine
end

