-- ==== Sys2Proof/Tests/Slice0.lean ====
section
/-! SUPPORT. Tests of one step each, their expected values from the worked examples and vectors of spec/ (cited by
number), and a witness for the hypotheses of every obligation that has some. -/

-- Kernel evaluations one after another: side by side they need more threads than the memory limit allows.
set_option Elab.async false

namespace Sys2Proof.Tests

open Sys2Proof.Machine

/-! ## Helpers -/

/-- The next state of an outcome. -/
def next? : Host.Outcome State Fault Refusal → Option State
  | .next t => some t
  | _ => none

/-- ERR after an outcome's next state. -/
def err? (o : Host.Outcome State Fault Refusal) : Option (BitVec 8) := (next? o).map (·.err)

/-- A stereo block of 512 frames at 44100 Hz: the state PREPARE leaves after reset (H1). -/
def ready : State :=
  { State.reset with prepared := true, curSr := 44100#32, curBlock := 512#32, curNch := 2#32 }

/-- FS = 44100. -/
def fs44 : F32 := F32.ofNat 44100

/-- An envelope configured 0.1, 0.1, 0.5, 0.1, as vectors E1 to E12 have it. -/
def env : Envelope := { Envelope.reset with s := 0x3F000000#32 }

/-- Voice 0 after a note-on of A4 (V1). -/
def voiceA4 : Voice := (Voice.reset.update fs44 Params.reset).noteOn fs44 69#7

/-- SIN32 at the four phases that vector V2 reaches. -/
def sinV2 (x : F32) : F32 :=
  if x = 0x3D80634A#32 then 0x3D804DC4#32
  else if x = 0x3E00634A#32 then 0x3E000D3F#32
  else if x = 0x3E4094EF#32 then 0x3E3F72D2#32
  else 0x00000000#32

/-- TAN32 at the one argument that vector V2 reaches (F6). -/
def tanV2 (_ : F32) : F32 := 0x3AD3BAF5#32

/-- A note-on event of A4. -/
def eventA4 : Event := { kind := .noteOn, ts := 0#12, note := 69#7, vel := 100#7, tail := false, seq := 0 }

/-- A prepared block whose voice 0 sounds A4, with a RENDER of 4 frames waiting. -/
def sounding : State :=
  { ready with voices := [voiceA4, Voice.reset], base := 0x50000, port := [.write 0x5000C 0x30000004#32] }

/-! ## Well-formedness (R109): an ill-formed statement for each check -/

theorem test_wf_noteOn_ts : (Command.noteOn 4096 0 0).wf = false ∧ (Command.noteOn 4096 0 0).instr? = none := by decide
theorem test_wf_noteOn_note : (Command.noteOn 0 128 0).wf = false ∧ (Command.noteOn 0 128 0).instr? = none := by decide
theorem test_wf_noteOn_vel : (Command.noteOn 0 0 128).wf = false ∧ (Command.noteOn 0 0 128).instr? = none := by decide
theorem test_wf_noteOff_ts : (Command.noteOff 4096 0 0).wf = false := by decide
theorem test_wf_noteOff_note : (Command.noteOff 0 128 0).wf = false := by decide
theorem test_wf_noteOff_tail : (Command.noteOff 0 0 2).wf = false := by decide
theorem test_wf_noteOff_vel : (Command.noteOff 0 0 0 128).wf = false := by decide
theorem test_wf_render : (Command.render 65536).wf = false ∧ (Command.render 65536).instr? = none := by decide

/-! ## Encodings, written out from the spec (R110; vectors R7) -/

/-- `NOTE_ON 5, 60, 127` = 0x10057F3C (R110): 0001 000000000101 0 1111111 0 0111100. -/
theorem test_decode_noteOn :
    decode 0b00010000000001010111111100111100#32 = .ok (.noteOn 5 127 60) ∧
      (Command.noteOn 5 60 127).instr?.map encode = some 0x10057F3C#32 := by decide

/-- `STOP 69` = 0x20008045 (R110): 0010 000000000000 1 0000000 0 1000101. -/
theorem test_decode_noteOff :
    decode 0b00100000000000001000000001000101#32 = .ok (.noteOff 0 true 0 69) ∧
      (Command.noteOff 0 69 1).instr?.map encode = some 0x20008045#32 := by decide

/-- `RENDER 512` = 0x30000200 (R110). -/
theorem test_decode_render :
    decode 0b00110000000000000000001000000000#32 = .ok (.render 512) ∧
      (Command.render 512).instr?.map encode = some 0x30000200#32 := by decide

/-- The words of PREPARE, RESET_FILTERS and RELEASE (R103). -/
theorem test_decode_formatZ :
    decode 0b01000000000000000000000000000000#32 = .ok .prepare ∧
      decode 0b01010000000000000000000000000000#32 = .ok .resetFilters ∧
      decode 0b01100000000000000000000000000000#32 = .ok .release := by decide

/-- The reserved words of vector R7 do not decode. -/
theorem test_decode_reserved :
    [0x70000000#32, 0x00000000#32, 0x10008045#32, 0x100000C5#32, 0x200000C5#32, 0x30010004#32, 0x40000001#32].all
      (fun w => (decode w).toOption == none) = true := by decide

/-! ## One step -/

/-- The accepted arguments of H3 and the refused ones of H2, H4. -/
theorem test_prepare_arguments :
    configLegal 40001#32 4096#32 1#32 = true ∧ configLegal 192000#32 1#32 2#32 = true ∧
      configLegal 40000#32 512#32 2#32 = false ∧ configLegal 192001#32 512#32 2#32 = false ∧
      configLegal 44100#32 4097#32 2#32 = false ∧ configLegal 44100#32 0#32 2#32 = false ∧
      configLegal 44100#32 512#32 3#32 = false ∧ configLegal 44100#32 512#32 0#32 = false := by decide

/-- H1: the state after reset and PREPARE. -/
theorem test_prepare : next? (exec .prepare State.reset) = some ready := by decide +kernel

/-- H7: RELEASE keeps the PREP registers. -/
theorem test_release : next? (exec .release ready) = some State.reset := by decide +kernel

/-- H6: RESET_FILTERS clears an integrator of a voice that has run. -/
theorem test_resetFilters :
    ((next? (exec .resetFilters { State.reset with
      voices := [{ Voice.reset with filt := { Filter.reset with c0 := ⟨0x3574B055#32, 0x314ABBB0#32⟩ } }] })).map
        (·.voices)) = some [Voice.reset] := by decide +kernel

/-- Q1: one event queued, in step from the CMD word. -/
theorem test_noteOn_queues :
    ((next? (step (ready.withFetchWord 32 0x10006445))).map (·.evq)) = some [eventA4] := by decide +kernel

/-- R309 item 5, R241: a note-off queues its tail bit and its arrival position. -/
theorem test_noteOff_queues :
    ((next? (step ({ ready with evq := [eventA4] }.withFetchWord 32 0x20008045))).map (·.evq)) =
      some [eventA4, { kind := .noteOff, ts := 0#12, note := 69#7, vel := 0#7, tail := true, seq := 1 }] := by
  decide +kernel

/-- X1 and H8: RENDER 0 of an unprepared block is the PRECOND fault and sets that bit alone. -/
theorem test_render_unprepared :
    step (State.reset.withFetchWord 32 0x30000000) = .fault (.precond { State.reset with err := 0x01#8 }) := rfl

/-- Q11 and R245: RENDER 0 and RENDER 513 of a 512-frame block raise BADLEN. -/
theorem test_render_badLen :
    err? (step (ready.withFetchWord 32 0x30000000)) = some 0x10#8 ∧
      err? (step (ready.withFetchWord 32 0x30000201)) = some 0x10#8 := by decide +kernel

/-- V2: the first 4 frames of A4, with SIN32 and TAN32 as the vector gives them. -/
theorem test_voice_block :
    (voiceA4.sound sinV2 tanV2 fs44 2 4).2 =
      { c0 := [0x00000000#32, 0x2DC352FD#32, 0x2F2AAF8E#32, 0x301E351C#32],
        c1 := [0x00000000#32, 0x2DC352FD#32, 0x2F2AAF8E#32, 0x301E351C#32] } := by decide +kernel

/-- V2 through RENDER: OUT, LAST_N and STATUS of the example of R245. -/
theorem test_render_block :
    (next? (renderWith sinV2 tanV2 4#16 { ready with evq := [eventA4] })).map
        (fun t => ([t.out 0 1, t.out 0 3, t.out 1 2, t.out 0 4], t.lastN, t.readReg .status, t.vstat 0)) =
      some ([0x2DC352FD#32, 0x301E351C#32, 0x2F2AAF8E#32, 0x00000000#32], 4#32, 0x00010001#32, 0x00004525#32) := by
  decide +kernel

/-- V5 and V6: the status words after STOP and after KILL. -/
theorem test_voice_noteOff :
    vstatWord (voiceA4.noteOff fs44 true) = 0x00004592#32 ∧
      vstatWord (voiceA4.noteOff fs44 false) = 0x00004500#32 := by decide +kernel

/-- Q3: dispatch in timestamp order. -/
theorem test_dispatch_order :
    (dispatch fs44 (sortEvents [{ eventA4 with ts := 5#12, note := 60#7 }, { eventA4 with note := 64#7, seq := 1 }])
      [Voice.reset, Voice.reset]).1.map vstatWord = [0x00004025#32, 0x00003C25#32] := by decide +kernel

/-- E1 and E2: the first two attack samples, and the length of the segment. -/
theorem test_envelope_attack :
    (Envelope.samples fs44 2 (env.noteOn fs44)).2 = [0x396DC5B8#32, 0x39EDC5B8#32] ∧ (env.noteOn fs44).n = 4410 := by
  decide +kernel

/-- E3 and E5: the first decay sample, and the first and last sample of a release from 0.5. -/
theorem test_envelope_decay_release :
    (({ env with stage := .decay, level := F32.one, level0 := F32.one, n := 4410 }).nextSample fs44).2 = 0x3F7FF892#32 ∧
      (({ env with stage := .sustain, level := 0x3F000000#32 }.noteOff fs44).nextSample fs44).2 = 0x3EFFF124#32 ∧
      (({ env with stage := .release, level0 := 0x3F000000#32, k := 4409, n := 4410 }).nextSample fs44).1.stage =
        .idle := by decide +kernel

/-- E11 and E13: a changed attack restarts its segment; a halfway length rounds to even. -/
theorem test_envelope_restart :
    ({ env with stage := .attack, level := 0x3F000000#32, k := 2205, n := 4410 }.configure fs44 0x3E4CCCCD#32 env.d
      env.s env.r).n = 8820 ∧ nsamp (F32.ofNat 40001) 0x3F000000#32 = 20000 := by decide +kernel

/-- O1, O2, O3: frequencies and increments. -/
theorem test_oscillator_increment :
    noteHz 60#7 = 0x4382D013#32 ∧ noteHz 81#7 = 0x445C0000#32 ∧ phaseInc fs44 (noteHz 69#7) = 0x3D80634A#32 ∧
      phaseInc (F32.ofNat 40001) 0x469C4000#32 = 0x40490E92#32 := by decide +kernel

/-- O4: the wrap at PI, beyond it, at -PI, and at the value after PI. -/
theorem test_oscillator_wrap :
    wrap F32.pi = F32.pi ∧ wrap (F32.add F32.pi 0x3F000000#32) = 0xC0290FDB#32 ∧ wrap F32.negPi = F32.pi ∧
      wrap 0x40490FDC#32 = 0xC0490FDA#32 := by decide +kernel

/-- O6 and O7: saw and square at -0.0, PI and just above -PI. -/
theorem test_oscillator_waves :
    [0x80000000#32, F32.pi, 0xC0490FDA#32].map (wave sinV2 .saw) = [0x80000000#32, F32.one, 0xBF7FFFFF#32] ∧
      [0x80000000#32, F32.pi, 0xC0490FDA#32].map (wave sinV2 .square) = [F32.one, F32.one, F32.negOne] := by
  decide +kernel

/-- O13 and O14: the fold of the main frequency. -/
theorem test_oscillator_fold :
    mainFreq 0#7 0xC3FA0000#32 = 0x43F5E97F#32 ∧ mainFreq 69#7 0xC3DC0000#32 = 0x00000000#32 := by decide +kernel

/-- F4, F5: the cutoff at its lower clamp and inside its range. -/
theorem test_filter_cutoff :
    cutoff F32.f20000 F32.zero = F32.f20 ∧ cutoff F32.f20000 0x3DEE3C9B#32 = 0x4511687E#32 := by decide +kernel

/-- F2 and F9: the coefficients of Q 10 from the tangent given there, and the first two samples of each tap. -/
theorem test_filter_taps :
    let q : Filter := Filter.set (fun _ => 0x3D863BA7#32) (F32.ofNat 48000) F32.one
      { Filter.reset with fBase := 0x447A0000#32, fRes := 0x41200000#32 }
    let x := [F32.one, F32.zero]
    q.h = 0x3F7D408C#32 ∧ (q.processChannel q.c0 x).2 = [0x3B8B4230#32, 0x3C8A371A#32] ∧
      (Filter.processChannel { q with fType := .bandpass } q.c0 x).2 = [0x3D84CACC#32, 0x3E02CD6E#32] ∧
      (Filter.processChannel { q with fType := .highpass } q.c0 x).2 = [0x3F7D408C#32, 0xBCF2DB73#32] := by
  decide +kernel

/-- R8, R9, R10, R11: parameter writes, clamped and refused. -/
theorem test_parameter_writes :
    err? (perform (.write 0x006C#16 3#32) ready) = some 0x40#8 ∧
      err? (perform (.write 0x0058#16 0x7FC00000#32) ready) = some 0x40#8 ∧
      (next? (perform (.write 0x004C#16 0x40000000#32) ready)).map (·.params.attack) = some 0x3F800000#32 ∧
      (next? (perform (.write 0x0048#16 0x80000000#32) ready)).map (·.params.fmDepth) = some 0x00000000#32 := by
  decide +kernel

/-- R1, R4, R5, R14 and the reserved word of X2: reads, bad addresses and the error bits. -/
theorem test_accesses :
    (next? (perform (.read 0x0000#16) State.reset)).map (·.readData) = some [0x10002005#32] ∧
      err? (perform (.read 0x001C#16) ready) = some 0x80#8 ∧ err? (perform (.write 0x0002#16 5#32) ready) = some 0x80#8 ∧
      err? (perform (.write 0x0008#16 0xFFFFFF00#32) { ready with err := 0xFF#8 }) = some 0xFF#8 ∧
      err? (perform (.write 0x000C#16 0x30010000#32) State.reset) = some 0x04#8 := by decide +kernel

/-- R86: the same access of a block at another base address; one address below the block's window and one above it. -/
theorem test_base :
    [{ State.resetN 5 0x50000 with port := [.read 0x50010] }, { State.resetN 5 0x50000 with port := [.read 0x4FFFC] },
      { State.resetN 5 0x50000 with port := [.read 0x60000] }].map (fun s => (next? (step s)).map (·.readData)) =
      [some [44100#32], some [], some []] := by decide +kernel

/-- R110: `CONFIG 48000, 256, 1` is three register writes and PREPARE. -/
theorem test_config_expands :
    assemble [.config 48000#32 256#32 1#32] =
      some [.write 0x0010#16 48000#32, .write 0x0014#16 256#32, .write 0x0018#16 1#32,
        .write 0x000C#16 0x40000000#32] := by decide

/-! ## Witnesses: states and operands that meet the hypotheses of the obligations -/

/-- The unprepared block faults; the prepared one does not (OnlyUnpreparedRenderFaults). -/
theorem witness_atUnpreparedRender :
    { State.reset with port := [.write 0x000C (encode (.render 4))] }.AtUnpreparedRender ∧
      ¬State.reset.AtUnpreparedRender :=
  ⟨⟨rfl, 4, [], rfl⟩, by rintro ⟨_, n, rest, h⟩; cases h⟩

/-- A word that decodes (DecodedWordsAreEncodings), and an access of it (StepRunsDecodedCommand). -/
theorem witness_decode :
    decode 0x40000000#32 = .ok .prepare ∧
      { State.reset with port := [.write 0x000C 0x40000000#32] }.port = .write (State.reset.base + 0x000C) 0x40000000#32 :: [] ∧
      State.reset.port = [] := by decide

/-- Each clause of ReservedWordsRaiseBadCmd at a boundary: opcodes 0, 7, 15, one reserved bit of each format, and a
word of each opcode with none. -/
theorem witness_reserved :
    [0x00000000#32, 0x7FFFFFFF#32, 0xF0000000#32].all (fun w => (fieldOp w).toNat = 0 || 7 ≤ (fieldOp w).toNat) ∧
      (0x10008000#32 : Word).getLsbD 15 = true ∧ (0x10000080#32 : Word).getLsbD 7 = true ∧
      (0x20000080#32 : Word).getLsbD 7 = true ∧ (0x30010000#32 : Word).extractLsb' 16 12 ≠ 0#12 ∧
      (0x40000001#32 : Word).extractLsb' 0 28 ≠ 0#28 ∧ (0x6FFFFFFF#32 : Word).extractLsb' 0 28 ≠ 0#28 ∧
      [0x1FFF7F7F#32, 0x2FFFFF7F#32, 0x3000FFFF#32, 0x40000000#32, 0x50000000#32, 0x60000000#32].all
        (fun w => (decode w).toOption != none) := by decide

/-- The bounds of AssemblerPlacesOperands, each clause met and each missed by one. -/
theorem witness_operands : (Command.noteOn 4095 127 127).wf = true ∧ (Command.noteOff 4095 127 1 127).wf = true ∧
    (Command.render 65535).wf = true := by decide

/-- Boundary addresses of BadAccessesFlagBadAddr and MappedReadsReturnRegisters: unmapped, misaligned, read-only. -/
theorem witness_addresses :
    [0x001C, 0x0030, 0x003C, 0x0078, 0x00FC, 0x0140, 0x0FFC, 0x9000, 0xFFFC, 0x000D, 0x0001].all
        (fun a => target (BitVec.ofNat 16 a) = none) ∧
      [0x0000, 0x0004, 0x0020, 0x002C, 0x0100, 0x013C, 0x1000, 0x8FFC].all
        (fun a => target (BitVec.ofNat 16 a) ≠ none) ∧
      target 0x0074#16 = some (.param (.real .filterRes)) ∧ target 0x013C#16 = some (.vstat 15) ∧
      target 0x8FFC#16 = some (.out 1 4095) := by decide

/-- A value a real parameter register takes and a NaN (RealParameterWrite); the words of EnumParameterWrite. -/
theorem witness_parameters :
    F32.isNaN 0x7F800001#32 = true ∧ F32.isNaN 0x7F800000#32 = false ∧ 2 < (3#32).toNat := by decide +kernel

/-- The largest NV, queue and voice number (CapsAndStatusFields, VoiceStatusFields, ResetReadsAsSpecified). -/
theorem witness_status :
    (1 ≤ 16 ∧ 16 ≤ 16 ∧ 32 ≤ 32) ∧ (State.resetN 16 0).voices.length ≤ 16 ∧
      (State.resetN 16 0).voices[15]? = some Voice.reset ∧ State.reset.voices.length ≤ 5 ∧ 15 < 16 := by decide +kernel

/-- A queue that is full and one that is not (NoteOnQueuesEvent, NoteOffQueuesEvent). -/
theorem witness_queue :
    ready.evq.length ≠ 32 ∧ { ready with evq := List.replicate 32 eventA4 }.evq.length = 32 := by decide

/-- A pool whose lowest Idle voice is the second, one with none Idle, and a voice that plays the event's note
(NoteOnTakesLowestIdleVoice, NoteOffReachesBoundVoices). -/
theorem witness_pool :
    eventA4.kind = .noteOn ∧ [voiceA4, Voice.reset][1]? = some Voice.reset ∧ Voice.reset.vstate = .idle ∧
      (∀ (j : Nat) (u : Voice), j < 1 → [voiceA4, Voice.reset][j]? = some u → u.vstate ≠ .idle) ∧
      (∀ v ∈ [voiceA4], v.vstate ≠ .idle) ∧ { eventA4 with kind := .noteOff }.kind = .noteOff ∧
      [voiceA4][0]? = some voiceA4 ∧ voiceA4.vstate = .sounding ∧ voiceA4.note = eventA4.note := by
  refine ⟨rfl, rfl, rfl, ?_, ?_, rfl, rfl, rfl, rfl⟩
  · intro j u hj hu
    obtain rfl : j = 0 := by omega
    cases hu
    decide
  · intro v hv
    rw [List.mem_singleton.1 hv]
    decide

/-- A prepared block, a legal length and an illegal one (IllegalRenders, RenderCompletes, VelocityHasNoEffect). -/
theorem witness_render :
    ready.prepared = true ∧ State.reset.prepared = false ∧ 1 ≤ (512#16).toNat ∧
      (512#16).toNat ≤ ready.curBlock.toNat ∧ (0#16).toNat = 0 ∧ ready.curBlock.toNat < (513#16).toNat := by decide

theorem sounding_configInv : sounding.ConfigInv := by
  simp only [State.ConfigInv, sounding, ready, if_true]
  decide

/-- The next state of the RENDER that waits on `sounding`. -/
theorem sounding_step : ∃ t, step sounding = .next t ∧ exec (.render 4#16) { sounding with port := [] } = .next t := by
  have h := renderWith_legal (sin := Config.sin32) (tan := Config.tan32) (n := 4#16)
    (s := { sounding with port := [] }) rfl (by decide)
  exact ⟨_, h, h⟩

/-- A legal block that completes with a voice sounding, and two voices to superpose (RenderMixesVoicesInOrder,
TwoVoicesSuperpose, VoiceBlock). -/
theorem witness_mix :
    sounding.ConfigInv ∧ sounding.prepared = true ∧ 1 ≤ (4#16).toNat ∧ (4#16).toNat ≤ sounding.curBlock.toNat ∧
      (∃ t, exec (.render 4#16) { sounding with port := [] } = .next t) ∧ sounding.evq = [] ∧
      (∀ v ∈ [Voice.reset] ++ [Voice.reset] ++ [Voice.reset], v.vstate = .idle) ∧
      voiceA4.vstate ≠ .idle ∧ Voice.reset.vstate = .idle ∧ (2 = 1 ∨ 2 = 2) :=
  ⟨sounding_configInv, rfl, by decide, by decide, sounding_step.imp fun _ h => h.2, rfl, by decide, by decide, rfl, .inr rfl⟩

/-- Arguments of PREPARE that are legal and some that are not (PrepareConfigures, PrepareIsIdempotent). -/
theorem witness_prepare :
    configLegal State.reset.prepSr State.reset.prepBlock State.reset.prepNch = true ∧
      ¬(40000 < { State.reset with prepSr := 40000#32 }.prepSr.toNat) := by decide

/-- Active and idle envelopes (VoiceNoteEvents, IdleVoicesAreSilent, ReleaseReachesIdle). -/
theorem witness_envelope : voiceA4.amp.stage ≠ .idle ∧ Voice.reset.amp.stage = .idle ∧ Voice.reset.vstate = .idle := by
  decide +kernel

/-- An envelope in each stage, and a changed and an unchanged value (EnvelopeStageTransitions, EnvelopeSampleSteps,
ConfigureRestartsOwnSegment). -/
theorem witness_stages :
    [Stage.idle, .attack, .decay, .sustain, .release].map (fun x => { env with stage := x }.stage) =
      [Stage.idle, .attack, .decay, .sustain, .release] ∧
      F32.eq 0x3F000000#32 env.a = false ∧ F32.eq env.a env.a = true ∧ env.n ≤ env.k + 1 ∧
      ¬({ env with n := 4410 }.n ≤ env.k + 1) := by decide +kernel

/-- Voices whose release reaches both envelopes, and one whose modulation envelope is idle (VoiceNoteEvents). -/
theorem witness_release :
    voiceA4.amp.stage ≠ .idle ∧ voiceA4.mod.stage ≠ .idle ∧ { voiceA4 with mod := env }.mod.stage = .idle := by
  decide +kernel

/-- Sample rates and times at the ends of their ranges (SegmentLengths), and the phases at the ends of WaveformFunctions;
`witness_sine` has the bounded sine. -/
theorem witness_lengths :
    [40001, 192000].all (fun sr => 40000 < sr && sr ≤ 192000) = true ∧
      [0x3DCCCCCD#32, 0x40400000#32].all (fun t => F32.le 0x3DCCCCCD#32 t && F32.le t 0x40400000#32) = true ∧
      [0xC0490FDA#32, 0x40490FDB#32].all (fun x => F32.lt 0xC0490FDB#32 x && F32.le x 0x40490FDB#32) = true := by
  decide +kernel

/-- The first and the last address of the block, and the two beside them (AddressesAreOffsetsFromBase). -/
theorem witness_base :
    sounding.port = .write (sounding.base + (0x000C#16).toNat) 0x30000004#32 :: [] ∧
      { sounding with port := [.read 0x50000] }.port = .read (sounding.base + (0x0000#16).toNat) :: [] ∧
      { sounding with port := [.read 0x5FFFF] }.port = .read (sounding.base + (0xFFFF#16).toNat) :: [] ∧
      0x4FFFF < sounding.base ∧ sounding.base + 0xFFFF < 0x60000 := by decide

/-- The phases of WrapStaysInDomain at its two ends and on both sides of PI. -/
theorem witness_wrap :
    [0xC0490FDA#32, F32.pi, 0x40490FDC#32, F32.add F32.pi 0x400828F6#32].all (fun t =>
      F32.lt F32.negPi t && F32.le t (F32.add F32.pi 0x400828F6#32)) = true := by decide +kernel

/-- A bounded sine, and an oscillator with no FM depth (MainFrequencyFolds, StepKeepsOscillatorRanges). -/
theorem witness_sine :
    SinBounded (fun _ => F32.zero) ∧ Oscillator.reset.fmDepth = 0x00000000#32 ∧
      F32.mag Oscillator.reset.fmOffset = 0 := by
  have h : F32.le (F32.abs F32.zero) F32.one = true := by decide +kernel
  exact ⟨fun _ => h, rfl, by decide +kernel⟩

/-- The ends of the cutoff's operands (CutoffStaysInRange). -/
theorem witness_cutoff :
    F32.Between 0x41A00000#32 0x469C4000#32 F32.f20 ∧ F32.Between 0x41A00000#32 0x469C4000#32 F32.f20000 ∧
      F32.Between 0x00000000#32 0x3F800000#32 F32.zero ∧ F32.Between 0x00000000#32 0x3F800000#32 F32.one := by
  refine ⟨⟨?_, ?_⟩, ⟨?_, ?_⟩, ⟨?_, ?_⟩, ⟨?_, ?_⟩⟩ <;> decide +kernel

/-- The coefficients of F6 meet the hypotheses of FilterSilentAtRest. -/
theorem witness_filter :
    let q : Filter := { Filter.reset with g := 0x3AD3BAF5#32, r2 := F32.one, h := 0x3F7F9622#32 }
    F32.isFinite q.g = true ∧ F32.isFinite (F32.add q.g q.r2) = true ∧ F32.isFinite q.h = true ∧ q.h.msb = false := by
  decide +kernel

/-- Accesses and commands that complete, one of them newly setting a bit (CommandsKeepHostRegisters, ErrorBitsAreSticky,
ErrorBitsSteerNoCommand, OneErrorPerAccess). -/
theorem witness_access :
    (next? (exec .release { ready with err := 0x04#8 })).map (·.err) = some 0x04#8 ∧
      Access.write 0x001C#16 0#32 ≠ .reset ∧ (∀ w, Access.write 0x001C#16 0#32 ≠ .write 0x0008#16 w) ∧
      (next? (perform (.write 0x001C#16 0#32) { ready with err := 0x04#8 })).map
        (fun t => (t.err, newErrors { ready with err := 0x04#8 } t)) = some (0x84#8, [Err.badAddr]) := by
  refine ⟨by decide +kernel, by decide, fun w h => ?_, by decide +kernel⟩
  injection h with h
  exact absurd h (by decide)

/-! ## Witnesses for the invariants: a sounding block with a RENDER waiting meets every one of them -/

theorem sounding_paramInv : sounding.ParamInv := by
  intro p
  cases p <;> refine ⟨⟨?_, ?_⟩, ?_⟩ <;> decide +kernel

theorem sounding_queueInv : sounding.QueueInv := ⟨by decide, fun i e h => by cases h⟩

/-- Both voices of `sounding`. -/
theorem sounding_forall {P : Voice → Prop} (h1 : P voiceA4) (h2 : P Voice.reset) : ∀ v ∈ sounding.voices, P v := by
  intro v hv
  rcases List.mem_cons.1 hv with rfl | hv
  · exact h1
  · rw [List.mem_singleton.1 hv]; exact h2

theorem sounding_controlInv : sounding.ControlInv := sounding_forall (.inl rfl) ⟨rfl, rfl⟩

theorem sounding_outInv : sounding.OutInv :=
  ⟨Memory.wf_nil, fun _ h => (nomatch h), fun _ _ _ _ _ => Memory.readWord_nil _⟩

theorem sounding_stereoInv : sounding.StereoInv := fun _ =>
  ⟨sounding_forall rfl rfl, fun _ _ => (Memory.readWord_nil _).trans (Memory.readWord_nil _).symm⟩

theorem sounding_envelopeInv : sounding.EnvelopeInv := by
  refine sounding_forall ⟨?_, ?_⟩ ⟨?_, ?_⟩ <;>
    refine ⟨⟨?_, ?_⟩, ⟨?_, ?_⟩, ⟨?_, ?_⟩, ⟨?_, ?_⟩, ⟨?_, ?_⟩, ⟨?_, ?_⟩, ?_, ?_, ?_⟩ <;> decide +kernel

theorem sounding_oscillatorInv : sounding.OscillatorInv := by
  refine sounding_forall ?_ ?_ <;>
    refine ⟨⟨?_, ?_⟩, ⟨?_, ?_⟩, ⟨?_, ?_⟩, ⟨?_, ?_⟩, ⟨?_, ?_⟩, ⟨?_, ?_⟩⟩ <;> decide +kernel

/-- The hypotheses of every StepKeeps… obligation together, on a step that renders. -/
theorem witness_invariants :
    ∃ s t : State, s.ConfigInv ∧ s.PoolInv ∧ s.QueueInv ∧ s.ParamInv ∧ s.ControlInv ∧ s.OutInv ∧ s.StereoInv ∧ s.EnvelopeInv ∧
      s.OscillatorInv ∧ step s = .next t :=
  sounding_step.elim fun t h => ⟨sounding, t, sounding_configInv, ⟨by decide, by decide⟩, sounding_queueInv, sounding_paramInv,
    sounding_controlInv, sounding_outInv, sounding_stereoInv, sounding_envelopeInv, sounding_oscillatorInv, h.1⟩

/-- The two clauses of StepKeepsOscillatorRanges: a RENDER with a bounded sine, and a step that is no RENDER. -/
theorem witness_oscillator_steps :
    (∃ t, renderWith (fun _ => F32.zero) (fun _ => F32.zero) 4#16 sounding = .next t) ∧
      (∀ n rest, { sounding with port := [] }.port ≠ .write (sounding.base + 0x000C) (encode (.render n)) :: rest) ∧
      step { sounding with port := [] } = .next { sounding with port := [] } :=
  ⟨⟨_, renderWith_legal rfl (by decide)⟩, fun _ _ h => (nomatch h), rfl⟩

end Sys2Proof.Tests
end

section
/-! What a step performs and keeps (spec/00_scope.md): the command word read back, an access at its offset from the base
(O7), the queue, the pool and the base under every step (O52), and the state after reset (O59). -/

namespace Sys2Proof

/-! ## A command's word read back (spec/30_encoding.md R100 to R105)

A field starts above the fields below it and ends under those above it, so reading it drops one neighbour at a time. -/

section FormatN

variable (op : BitVec 4) (ts : BitVec 12) (t : BitVec 1) (vel : BitVec 7) (z : BitVec 1) (note : BitVec 7)

theorem fieldTs_formatN : fieldTs (op ++ ts ++ t ++ vel ++ z ++ note) = ts := by
  unfold fieldTs
  rw [BitVec.extractLsb'_append_eq_of_le (by decide), BitVec.extractLsb'_append_eq_of_le (by decide),
    BitVec.extractLsb'_append_eq_of_le (by decide), BitVec.extractLsb'_append_eq_of_le (by decide)]
  exact BitVec.extractLsb'_append_eq_right

theorem fieldT_formatN : fieldT (op ++ ts ++ t ++ vel ++ z ++ note) = t.getLsbD 0 := by
  unfold fieldT
  rw [BitVec.getLsbD_append, BitVec.getLsbD_append, BitVec.getLsbD_append, BitVec.getLsbD_append]
  rfl

theorem fieldVel_formatN : fieldVel (op ++ ts ++ t ++ vel ++ z ++ note) = vel := by
  unfold fieldVel
  rw [BitVec.extractLsb'_append_eq_of_le (by decide), BitVec.extractLsb'_append_eq_of_le (by decide)]
  exact BitVec.extractLsb'_append_eq_right

theorem fieldNote_formatN : fieldNote (op ++ ts ++ t ++ vel ++ z ++ note) = note :=
  BitVec.extractLsb'_append_eq_right

end FormatN

theorem fieldN_formatR (op : BitVec 4) (z : BitVec 12) (n : BitVec 16) : fieldN (op ++ z ++ n) = n :=
  BitVec.extractLsb'_append_eq_right

open Laws.RowMatch in
/-- Every command's word carries its row's opcode and fixed bits (R104). -/
theorem encode_rowMatch (i : Instr) : Statement i := by
  cases i with
  | noteOn ts vel note => exact noteOn ts vel note
  | noteOff ts tail vel note => exact noteOff ts tail vel note
  | render n => exact render n
  | prepare => exact prepare
  | resetFilters => exact resetFilters
  | release => exact release

theorem opcodeInstr_encode (i : Instr) : opcodeInstr (encode i) = some i := by
  obtain ⟨hop, -⟩ := encode_rowMatch i
  unfold opcodeInstr
  rw [hop]
  cases i with
  | noteOn ts vel note =>
    simp [Laws.RowMatch.rowOp, encode, fieldTs_formatN, fieldVel_formatN, fieldNote_formatN]
  | noteOff ts tail vel note =>
    simp [Laws.RowMatch.rowOp, encode, fieldTs_formatN, fieldT_formatN, fieldVel_formatN, fieldNote_formatN]
  | render n => simp only [Laws.RowMatch.rowOp, encode, fieldN_formatR]; rfl
  | prepare => rfl
  | resetFilters => rfl
  | release => rfl

/-- Decoding an encoded command gives the command back. -/
theorem decode_encode (i : Instr) : decode (encode i) = .ok i := by
  obtain ⟨hop, hmatch⟩ := encode_rowMatch i
  simp [decode, opcodeInstr_encode, hop, hmatch]

end Sys2Proof

namespace Sys2Proof.Machine

/-! ## The oldest access, at its offset from the base (spec/20_memory.md R85, R86) -/

/-- A host address outside the block's 64 KiB has no offset (R86). -/
theorem offset?_outside {base a : Nat} (h : a < base ∨ base + 0xFFFF < a) : offset? base a = none := by
  unfold offset?
  rw [if_neg (by omega)]

/-- An access that does not reach the block is taken off the port, and that is all (log 15). -/
theorem step_outside {s : State} {h : HostAccess} {rest : List HostAccess} (hp : s.port = h :: rest)
    (hout : h.atPins? s.base = none) : step s = .next { s with port := rest } := by
  rw [step_host hp]
  simp [performHost, hout]

/-- A write to CMD runs the word (R270). -/
theorem perform_write_cmd (w : Word) (s : State) : perform (.write cmdAddr w) s = runCommand w s := by
  have ht : target cmdAddr = some .cmd := by decide
  simp [perform, busWrite, ht, writeReg]

theorem runCommand_of_decode {w : Word} {i : Instr} (h : decode w = .ok i) (s : State) :
    runCommand w s = exec i s := by simp [runCommand, h]

/-- The step of a waiting command word executes the command (R270). -/
theorem step_command {s : State} {w : Word} {i : Instr} {rest : List HostAccess}
    (hp : s.port = .write (s.base + 0x000C) w :: rest) (hd : decode w = .ok i) :
    step s = exec i { s with port := rest } := by
  rw [step_access (a := .write cmdAddr w) hp, perform_write_cmd, runCommand_of_decode hd]

/-- Settles O7: the step of each kind of waiting access, by the laws of the port and of CMD. -/
theorem stepRunsDecodedCommand : Obligations.StepRunsDecodedCommand := by
  refine ⟨fun s => step_idle, fun s rest w => ⟨fun off => ⟨fun hp => ?_, fun hp => ?_⟩, fun hp => ?_, ?_⟩,
    fun s w i rest => step_command, fun s i => ?_⟩
  · exact step_access (a := .read off) hp
  · exact step_access (a := .write off w) hp
  · exact step_access (a := .reset) hp
  · rintro a ha (hp | hp)
    · exact step_outside hp (by simp [HostAccess.atPins?, offset?_outside ha])
    · exact step_outside hp (by simp [HostAccess.atPins?, offset?_outside ha])
  · have hd : decode (BitVec.ofNat 32 (encode i).toNat) = .ok i := by
      rw [BitVec.ofNat_toNat, BitVec.setWidth_eq, decode_encode]
    exact step_command (State.withFetchWord_port s 32 _) hd

/-! ## The queue, the pool and the base under a step -/

@[simp] theorem State.writeParam_evq (s : State) (p : Param) (w : Word) : (s.writeParam p w).evq = s.evq := by
  unfold State.writeParam
  split <;> rfl

@[simp] theorem State.writeParam_base (s : State) (p : Param) (w : Word) : (s.writeParam p w).base = s.base := by
  unfold State.writeParam
  split <;> rfl

@[simp] theorem State.renderBlock_evq (sin tan : F32 → F32) (n : BitVec 16) (s : State) :
    (s.renderBlock sin tan n).evq = [] := rfl

@[simp] theorem State.renderBlock_base (sin tan : F32 → F32) (n : BitVec 16) (s : State) :
    (s.renderBlock sin tan n).base = s.base := by
  unfold State.renderBlock
  dsimp only
  split <;> rfl

@[simp] theorem State.renderBlock_voices_length (sin tan : F32 → F32) (n : BitVec 16) (s : State) :
    (s.renderBlock sin tan n).voices.length = s.voices.length := by
  simp [State.renderBlock_voices, State.dispatched]

/-- The queue `q'` is `q` after an access: as it was, emptied, or with one event appended that holds its arrival
position (spec/10_state.md R46). -/
def QueueMove (q q' : List Event) : Prop :=
  q' = q ∨ q' = [] ∨ ∃ e, q' = q ++ [e] ∧ e.seq = q.length ∧ q.length ≠ Config.evqDepth

theorem exec_queue_base {i : Instr} {s t : State} (h : exec i s = .next t) :
    QueueMove s.evq t.evq ∧ t.base = s.base := by
  rcases exec_cases h with ⟨e, rfl, hseq, hroom, _⟩ | ⟨rfl, _⟩ | ⟨_, _, _, _, rfl⟩ | ⟨_, _, _, _, _, rfl⟩ |
    ⟨_, _, rfl⟩ | ⟨_, _, rfl⟩ | ⟨_, rfl⟩ | ⟨_, rfl⟩
  any_goals exact ⟨.inl rfl, rfl⟩
  · exact ⟨.inr (.inr ⟨e, rfl, hseq, hroom⟩), rfl⟩
  · exact ⟨.inr (.inl (State.renderBlock_evq ..)), State.renderBlock_base ..⟩
  · exact ⟨.inr (.inl rfl), rfl⟩
  · exact ⟨.inr (.inl rfl), rfl⟩

theorem perform_queue_base {a : Access} {s t : State} (h : perform a s = .next t) :
    QueueMove s.evq t.evq ∧ t.base = s.base := by
  rcases perform_cases h with ⟨_, _, _, _, rfl⟩ | ⟨_, _, _, rfl⟩ | ⟨_, _, _, rfl⟩ | ⟨_, _, _, _, rfl⟩ |
    ⟨_, _, _, _, rfl⟩ | ⟨_, _, _, _, rfl⟩ | ⟨_, _, _, _, rfl⟩ | ⟨_, _, _, _, _, rfl⟩ | ⟨_, _, _, _, _, rfl⟩ |
    ⟨_, _, _, _, _, _, hx⟩ | ⟨_, rfl⟩
  any_goals exact ⟨.inl rfl, rfl⟩
  · exact ⟨.inl (State.writeParam_evq ..), State.writeParam_base ..⟩
  · exact exec_queue_base hx
  · exact ⟨.inr (.inl rfl), rfl⟩

theorem step_queue_base {s t : State} (h : step s = .next t) : QueueMove s.evq t.evq ∧ t.base = s.base := by
  rcases step_cases h with ⟨_, rfl⟩ | ⟨_, _, _, _, rfl⟩ | ⟨a, rest, _, h⟩
  · exact ⟨.inl rfl, rfl⟩
  · exact ⟨.inl rfl, rfl⟩
  · exact perform_queue_base (s := { s with port := rest }) h

theorem step_voices_length {s t : State} (h : step s = .next t) : t.voices.length = s.voices.length := by
  rcases step_voices_cases h with h | h | h | ⟨_, _, _, _, _, _, _, _, rfl⟩
  · rw [h]
  · simp [h]
  · simp [h]
  · exact State.renderBlock_voices_length ..

/-- An event appended to a queue that is not full, with the queue's length as its position, keeps the queue within its
capacity and numbered (R46). -/
theorem State.QueueInv.of_move {s t : State} (hs : s.QueueInv) (hm : QueueMove s.evq t.evq) : t.QueueInv := by
  obtain ⟨hlen, hseq⟩ := hs
  unfold State.QueueInv
  rcases hm with h | h | ⟨e, h, he, hroom⟩ <;> rw [h]
  · exact ⟨hlen, hseq⟩
  · exact ⟨Nat.zero_le _, by simp⟩
  · refine ⟨by simp only [List.length_append, List.length_singleton]; omega, fun i x hx => ?_⟩
    rw [List.getElem?_append] at hx
    split at hx
    case isTrue => exact hseq i x hx
    case isFalse hi =>
      obtain ⟨hi', rfl⟩ : i ≤ s.evq.length ∧ e = x := by
        simpa [List.getElem?_singleton, Nat.sub_eq_zero_iff_le] using hx
      omega

/-- Settles O52: a step moves the queue as `QueueMove` says, and keeps the number of voices and the base. -/
theorem stepKeepsQueueAndPool : Obligations.StepKeepsQueueAndPool := by
  intro s t h
  obtain ⟨hq, hbase⟩ := step_queue_base h
  have hv := step_voices_length h
  refine ⟨fun hs => hs.of_move hq, fun hs => ?_, hv, hbase⟩
  unfold State.PoolInv at hs ⊢
  rwa [hv]

/-! ## The state after reset (spec/10_state.md R55) -/

theorem Params.reset_between (p : RealParam) :
    F32.Between p.lo p.hi (Params.reset.get p) ∧ Params.reset.get p ≠ F32.negZero := by
  cases p <;> refine ⟨⟨?_, ?_⟩, ?_⟩ <;> decide +kernel

theorem Envelope.reset_rangeInv : Envelope.reset.RangeInv := by
  refine ⟨⟨?_, ?_⟩, ⟨?_, ?_⟩, ⟨?_, ?_⟩, ⟨?_, ?_⟩, ⟨?_, ?_⟩, ⟨?_, ?_⟩, ?_, ?_, ?_⟩ <;> decide +kernel

theorem Oscillator.reset_rangeInv : Oscillator.reset.RangeInv := by
  refine ⟨⟨?_, ?_⟩, ⟨?_, ?_⟩, ⟨?_, ?_⟩, ⟨?_, ?_⟩, ⟨?_, ?_⟩, ⟨?_, ?_⟩⟩ <;> decide +kernel

/-- What the voice reset state has, every voice has after reset. -/
theorem forall_resetN_voices {P : Voice → Prop} (nv base : Nat) (h : P Voice.reset) :
    ∀ v ∈ (State.resetN nv base).voices, P v := by
  intro v hv
  rw [List.eq_of_mem_replicate hv]
  exact h

/-- Every word of OUT is +0.0 after reset (R55). -/
theorem State.out_resetN (nv base c i : Nat) : (State.resetN nv base).out c i = F32.zero := Memory.readWord_nil _

/-- Settles O59: the registers and OUT hold constants in range, and every voice is in the voice reset state. -/
theorem resetMeetsInvariants : Obligations.ResetMeetsInvariants := by
  intro nv base
  refine ⟨fun h1 h16 => ?pool, ⟨rfl, rfl, rfl, rfl⟩, ⟨Nat.zero_le _, fun i e h => ?queue⟩, Params.reset_between,
    forall_resetN_voices nv base ⟨rfl, rfl⟩, ?out, fun _ => ⟨forall_resetN_voices nv base rfl, fun i _ => ?stereo⟩,
    forall_resetN_voices nv base ⟨Envelope.reset_rangeInv, Envelope.reset_rangeInv⟩,
    forall_resetN_voices nv base Oscillator.reset_rangeInv⟩
  case pool => simpa [State.PoolInv] using And.intro h1 h16
  case queue => cases h
  case out => exact ⟨Memory.wf_nil, fun _ h => (nomatch h), fun c i _ _ _ => State.out_resetN nv base c i⟩
  case stereo => rw [State.out_resetN, State.out_resetN]

end Sys2Proof.Machine
end

section
/-! What a step does to the block's configuration, its last block and OUT, said once; with it PREPARED and the
configuration (O51) and the output memory (O55) under every step. -/

namespace Sys2Proof.Machine

/-! ## From an access to a step -/

/-- A property that does not depend on the port, and that every access keeps, every step keeps. -/
theorem step_keeps_of_perform {P : State → Prop} (hport : ∀ s rest, P s → P { s with port := rest })
    (hperform : ∀ a s t, P s → perform a s = .next t → P t) : ∀ s t, P s → step s = .next t → P t := by
  intro s t hs h
  rcases step_cases h with ⟨_, rfl⟩ | ⟨_, rest, _, _, rfl⟩ | ⟨a, rest, _, h⟩
  · exact hs
  · exact hport s rest hs
  · exact hperform a _ t (hport s rest hs) h

/-! ## The fields of a writeParam and of a RENDER -/

/-- A parameter write changes the parameters and ERR alone. -/
theorem State.writeParam_eq (s : State) (p : Param) (w : Word) :
    s.writeParam p w = { s with params := (s.writeParam p w).params, err := (s.writeParam p w).err } := by
  unfold State.writeParam
  split <;> rfl

/-- The frames of OUT that a RENDER mixes (spec/45_voice_pool.md R245, R246). -/
def State.mixed (sin tan : F32 → F32) (n : BitVec 16) (s : State) : Buffer :=
  (renderVoices sin tan s.fs s.curNch.toNat n.toNat s.dispatched.1 (Buffer.zeros n.toNat)).2

/-- A RENDER changes the voices, the queue, OUT, LAST_N and ERR alone (R245). -/
theorem State.renderBlock_eq (sin tan : F32 → F32) (n : BitVec 16) (s : State) :
    s.renderBlock sin tan n = { s with
      err := if s.dispatched.2 then setErr s.err .noFreeVoice else s.err
      voices := (s.renderBlock sin tan n).voices
      evq := []
      mem := Memory.ofChannels (s.mixed sin tan n).c0 (s.mixed sin tan n).c1
      lastN := n.zeroExtend 32 } := by
  unfold State.renderBlock
  dsimp only
  split <;> rfl

@[simp] theorem State.renderBlock_prepared (sin tan : F32 → F32) (n : BitVec 16) (s : State) :
    (s.renderBlock sin tan n).prepared = s.prepared := by rw [State.renderBlock_eq]

@[simp] theorem State.renderBlock_curSr (sin tan : F32 → F32) (n : BitVec 16) (s : State) :
    (s.renderBlock sin tan n).curSr = s.curSr := by rw [State.renderBlock_eq]

@[simp] theorem State.renderBlock_curBlock (sin tan : F32 → F32) (n : BitVec 16) (s : State) :
    (s.renderBlock sin tan n).curBlock = s.curBlock := by rw [State.renderBlock_eq]

@[simp] theorem State.renderBlock_curNch (sin tan : F32 → F32) (n : BitVec 16) (s : State) :
    (s.renderBlock sin tan n).curNch = s.curNch := by rw [State.renderBlock_eq]

/-- LAST_N holds the 16-bit length in full (R245). -/
@[simp] theorem State.renderBlock_lastN_toNat (sin tan : F32 → F32) (n : BitVec 16) (s : State) :
    (s.renderBlock sin tan n).lastN.toNat = n.toNat := by
  rw [State.renderBlock_eq]
  exact BitVec.toNat_setWidth_of_le (by decide)

@[simp] theorem State.renderBlock_mem (sin tan : F32 → F32) (n : BitVec 16) (s : State) :
    (s.renderBlock sin tan n).mem = Memory.ofChannels (s.mixed sin tan n).c0 (s.mixed sin tan n).c1 := by
  rw [State.renderBlock_eq]

/-- What an access does to PREPARED, CUR_SR, CUR_BLOCK, CUR_NCH, LAST_N and OUT: nothing; or it clears them all
(RELEASE, reset); or it takes legal arguments and clears the last block (PREPARE); or it renders a block of legal
length (RENDER). -/
inductive BlockMove (s t : State) : Prop where
  | kept (prepared : t.prepared = s.prepared) (curSr : t.curSr = s.curSr) (curBlock : t.curBlock = s.curBlock)
      (curNch : t.curNch = s.curNch) (lastN : t.lastN = s.lastN) (mem : t.mem = s.mem)
  | cleared (prepared : t.prepared = false) (curSr : t.curSr = 0#32) (curBlock : t.curBlock = 0#32)
      (curNch : t.curNch = 0#32) (lastN : t.lastN = 0#32) (mem : t.mem = [])
  | configured (prepared : t.prepared = true) (legal : configLegal t.curSr t.curBlock t.curNch = true)
      (lastN : t.lastN = 0#32) (mem : t.mem = [])
  | rendered (n : BitVec 16) (prepared : s.prepared = true) (fits : n.toNat ≤ s.curBlock.toNat)
      (next : t = s.renderBlock Config.sin32 Config.tan32 n)

theorem exec_blockMove {i : Instr} {s t : State} (h : exec i s = .next t) : BlockMove s t := by
  rcases exec_cases h with ⟨_, rfl, _⟩ | ⟨rfl, _⟩ | ⟨_, _, _, _, rfl⟩ | ⟨n, _, hp, _, hn, ht⟩ | ⟨_, hlegal, rfl⟩ |
    ⟨_, _, rfl⟩ | ⟨_, rfl⟩ | ⟨_, rfl⟩
  any_goals exact .kept rfl rfl rfl rfl rfl rfl
  · exact .rendered n hp hn ht
  · exact .configured rfl hlegal rfl rfl
  · exact .cleared rfl rfl rfl rfl rfl rfl

theorem perform_blockMove {a : Access} {s t : State} (h : perform a s = .next t) : BlockMove s t := by
  rcases perform_cases h with ⟨_, _, _, _, rfl⟩ | ⟨_, _, _, rfl⟩ | ⟨_, _, _, rfl⟩ | ⟨_, _, _, _, rfl⟩ |
    ⟨_, _, _, _, rfl⟩ | ⟨_, _, _, _, rfl⟩ | ⟨_, _, _, _, rfl⟩ | ⟨_, w, p, _, _, ht⟩ | ⟨_, _, _, _, _, rfl⟩ |
    ⟨_, _, _, _, _, _, hx⟩ | ⟨_, rfl⟩
  any_goals exact .kept rfl rfl rfl rfl rfl rfl
  · rw [ht, State.writeParam_eq]
    exact .kept rfl rfl rfl rfl rfl rfl
  · exact exec_blockMove hx
  · exact .cleared rfl rfl rfl rfl rfl rfl

/-! ## PREPARED and the configuration (spec/10_state.md R45) -/

/-- The arguments PREPARE takes (spec/46_host_commands.md R271). -/
theorem configLegal_iff {sr blk nch : Word} : configLegal sr blk nch = true ↔
    Config.srMin < sr.toNat ∧ sr.toNat ≤ Config.srMax ∧ 1 ≤ blk.toNat ∧ blk.toNat ≤ Config.maxBlock ∧
      (nch = 1#32 ∨ nch = 2#32) := by
  simp [configLegal, and_assoc, BitVec.toNat_eq]

theorem State.configInv_of_prepared {s : State} (h : s.prepared = true) : s.ConfigInv ↔
    configLegal s.curSr s.curBlock s.curNch = true ∧ s.lastN.toNat ≤ s.curBlock.toNat := by
  simp [State.ConfigInv, h, configLegal_iff, and_assoc]

theorem State.renderBlock_configInv {sin tan : F32 → F32} {n : BitVec 16} {s : State} (hs : s.ConfigInv)
    (hp : s.prepared = true) (hn : n.toNat ≤ s.curBlock.toNat) : (s.renderBlock sin tan n).ConfigInv := by
  obtain ⟨hlegal, -⟩ := (State.configInv_of_prepared hp).1 hs
  rw [State.configInv_of_prepared (by simpa using hp)]
  simpa using And.intro hlegal hn

theorem perform_configInv {a : Access} {s t : State} (hs : s.ConfigInv) (h : perform a s = .next t) :
    t.ConfigInv := by
  cases perform_blockMove h with
  | kept prepared curSr curBlock curNch lastN mem =>
    unfold State.ConfigInv at hs ⊢
    rwa [prepared, curSr, curBlock, curNch, lastN]
  | cleared prepared curSr curBlock curNch lastN mem =>
    simp [State.ConfigInv, prepared, curSr, curBlock, curNch, lastN]
  | configured prepared legal lastN mem =>
    exact (State.configInv_of_prepared prepared).2 ⟨legal, by simp [lastN]⟩
  | rendered n prepared fits next => exact next ▸ State.renderBlock_configInv hs prepared fits

/-- Settles O51: of the moves of `BlockMove`, only RENDER meets an old configuration with a new LAST_N, and it is at
most CUR_BLOCK. -/
theorem stepKeepsConfiguration : Obligations.StepKeepsConfiguration :=
  step_keeps_of_perform (fun _ _ h => h) fun _ _ _ => perform_configInv

/-! ## The output memory (spec/10_state.md R47, spec/70_reset_and_hazards.md R341) -/

/-- With no sample in a channel a filter puts none out. -/
theorem Voice.sound_c1_of_mono (sin tan : F32 → F32) (fs : F32) {nch : Nat} (n : Nat) (v : Voice) (h : nch ≤ 1) :
    (v.sound sin tan fs nch n).2.c1 = [] := by
  have hfill : ∀ w, (Buffer.fill nch w).c1 = [] := fun w => if_neg (by omega)
  simp [Voice.sound, Filter.process, Buffer.applyLevels, Buffer.applyGain, hfill, Filter.processChannel]

/-- With one channel the voices add nothing to the second (spec/44_voice.md R218, R222). -/
theorem renderVoices_c1_of_mono (sin tan : F32 → F32) (fs : F32) {nch : Nat} (n : Nat) (vs : List Voice)
    (out : Buffer) (h : nch ≤ 1) : (renderVoices sin tan fs nch n vs out).2.c1 = out.c1 := by
  induction vs generalizing out with
  | nil => rfl
  | cons v vs ih =>
    simp only [renderVoices, ih, Voice.renderBlock]
    split
    · rfl
    · simp [Buffer.mix, Voice.sound_c1_of_mono sin tan fs n v h, mixChannel_nil]

theorem State.mixed_length (sin tan : F32 → F32) (n : BitVec 16) (s : State) :
    (s.mixed sin tan n).c0.length = n.toNat ∧ (s.mixed sin tan n).c1.length = n.toNat := by
  simpa [State.mixed, Buffer.zeros] using
    renderVoices_out_length sin tan s.fs s.curNch.toNat n.toNat s.dispatched.1 (Buffer.zeros n.toNat)

theorem State.mixed_c1_of_mono (sin tan : F32 → F32) (n : BitVec 16) {s : State} (h : s.curNch.toNat ≤ 1) :
    (s.mixed sin tan n).c1 = List.replicate n.toNat F32.zero :=
  renderVoices_c1_of_mono sin tan s.fs n.toNat s.dispatched.1 (Buffer.zeros n.toNat) h

theorem State.out_renderBlock {sin tan : F32 → F32} {n : BitVec 16} {s : State} (hn : n.toNat ≤ Config.maxBlock)
    {i : Nat} (hi : i < Config.maxBlock) :
    (s.renderBlock sin tan n).out 0 i = (s.mixed sin tan n).c0.getD i 0#32 ∧
      (s.renderBlock sin tan n).out 1 i = (s.mixed sin tan n).c1.getD i 0#32 := by
  obtain ⟨h0, -⟩ := s.mixed_length sin tan n
  simpa [State.out] using Memory.readWord_ofChannels (c1 := (s.mixed sin tan n).c1) (h0 ▸ hn) hi

/-- An OUT with nothing listed is in canonical form and all +0.0. -/
theorem State.outInv_of_mem_nil {s : State} (h : s.mem = []) : s.OutInv := by
  refine ⟨h ▸ Memory.wf_nil, by simp [h], fun c i _ _ _ => ?_⟩
  rw [State.out, h]
  exact Memory.readWord_nil _

/-- A frame past the block is in neither channel's list, and with one channel the second stays as RENDER cleared it. -/
theorem State.renderBlock_outInv {sin tan : F32 → F32} {n : BitVec 16} {s : State} (hmax : n.toNat ≤ Config.maxBlock)
    (hch : 1 ≤ s.curNch.toNat) : (s.renderBlock sin tan n).OutInv := by
  obtain ⟨h0, h1⟩ := s.mixed_length sin tan n
  refine ⟨?wf, ?within, fun c i hc hi hunused => ?unused⟩
  case wf => exact State.renderBlock_mem sin tan n s ▸ Memory.wf_ofChannels (h0 ▸ hmax)
  case within => exact State.renderBlock_mem sin tan n s ▸ Memory.within_ofChannels (h0 ▸ hmax) (h1 ▸ hmax)
  case unused =>
    obtain ⟨hout0, hout1⟩ := State.out_renderBlock (sin := sin) (tan := tan) (s := s) hmax hi
    rw [State.renderBlock_curNch, State.renderBlock_lastN_toNat] at hunused
    rcases hunused with hmono | hpast
    · obtain rfl : c = 1 := by omega
      rw [hout1, State.mixed_c1_of_mono sin tan n hmono, List.getD_eq_getElem?_getD]
      exact List.getElem?_getD_replicate_default_eq _ _ _
    · obtain rfl | rfl : c = 0 ∨ c = 1 := by omega
      · exact hout0.trans (List.getD_eq_default _ _ (h0 ▸ hpast))
      · exact hout1.trans (List.getD_eq_default _ _ (h1 ▸ hpast))

theorem perform_outInv {a : Access} {s t : State} (hc : s.ConfigInv) (hs : s.OutInv) (h : perform a s = .next t) :
    t.OutInv := by
  cases perform_blockMove h with
  | kept prepared curSr curBlock curNch lastN mem =>
    simp only [State.OutInv, State.out] at hs ⊢
    rwa [curNch, lastN, mem]
  | cleared prepared curSr curBlock curNch lastN mem => exact State.outInv_of_mem_nil mem
  | configured prepared legal lastN mem => exact State.outInv_of_mem_nil mem
  | rendered n prepared fits next =>
    obtain ⟨hlegal, -⟩ := (State.configInv_of_prepared prepared).1 hc
    obtain ⟨-, -, -, hmax, hnch⟩ := configLegal_iff.1 hlegal
    rw [next]
    exact State.renderBlock_outInv (fits.trans hmax) (by rcases hnch with h | h <;> simp [h])

/-- Settles O55: RENDER writes OUT anew, within the block and the channels of the configuration; every other move keeps
it or clears it. -/
theorem stepKeepsOutputMemory : Obligations.StepKeepsOutputMemory := by
  intro s t hc hs h
  have hstep := step_keeps_of_perform (P := fun s => s.ConfigInv ∧ s.OutInv) (fun _ _ h => h)
    (fun _ _ _ ⟨hc, hs⟩ h => ⟨perform_configInv hc h, perform_outInv hc hs h⟩) s t ⟨hc, hs⟩ h
  exact hstep.2

end Sys2Proof.Machine
end

section
/-! What RENDER does to every voice, said once; with it the ranges of the envelopes (O57) and of the oscillators (O58)
under every step. -/

namespace Sys2Proof

/-! ## The words of RENDER (spec/30_encoding.md R102, R104) -/

/-- A word decodes when its opcode names a command and its fixed bits are its row's (R104). -/
theorem decode_eq_ok {w : Word} {i : Instr} : decode w = .ok i ↔
    opcodeInstr w = some i ∧ w &&& opcodeMask (fieldOp w) = opcodeMatch (fieldOp w) := by
  unfold decode
  cases opcodeInstr w with
  | none => simp
  | some j => by_cases hfixed : w &&& opcodeMask (fieldOp w) = opcodeMatch (fieldOp w) <;> simp [hfixed]

theorem opcodeInstr_eq_render {w : Word} {n : BitVec 16} (h : opcodeInstr w = some (.render n)) :
    fieldOp w = 3#4 ∧ fieldN w = n := by
  unfold opcodeInstr at h
  split at h <;> cases h
  exact ⟨BitVec.eq_of_toNat_eq (by assumption), rfl⟩

/-- A word that decodes to a RENDER is the encoding of that RENDER. -/
theorem eq_encode_of_decode_render {w : Word} {n : BitVec 16} (h : decode w = .ok (.render n)) :
    w = encode (.render n) := by
  obtain ⟨hinstr, hmask⟩ := decode_eq_ok.1 h
  obtain ⟨hop, rfl⟩ := opcodeInstr_eq_render hinstr
  have hhigh : w.extractLsb' 16 16 = 0x3000#16 := by
    have hfixed : (opcodeMask 3#4).extractLsb' 16 16 = BitVec.allOnes 16 := by decide
    have h := congrArg (BitVec.extractLsb' 16 16) hmask
    rw [hop, BitVec.extractLsb'_and, hfixed, BitVec.and_allOnes] at h
    exact h
  calc w = w.extractLsb' 16 16 ++ w.extractLsb' 0 16 := by
        have hsplit : 16 = 0 + 16 := rfl
        rw [BitVec.extractLsb'_append_extractLsb'_eq_extractLsb' hsplit]
        exact BitVec.extractLsb'_eq_self.symm
    _ = 0x3000#16 ++ fieldN w := by rw [hhigh]; rfl

end Sys2Proof

namespace Sys2Proof.Machine

/-! ## A property of every voice under a RENDER and under a step -/

/-- A property that the parameter update, the note events and the block keep, each where RENDER uses it, RENDER keeps
for every voice (spec/45_voice_pool.md R245). -/
theorem State.forall_renderBlock {P : Voice → Prop} {sin tan : F32 → F32} {n : BitVec 16} {s : State}
    (hP : ∀ v ∈ s.voices, P v) (hUpdate : ∀ v, P v → P (v.update s.fs s.params))
    (hOn : ∀ v note, P v → v.vstate = .idle → P (v.noteOn s.fs note))
    (hOff : ∀ v tail, P v → v.vstate = .sounding → P (v.noteOff s.fs tail))
    (hSound : ∀ v, P v → v.vstate ≠ .idle → P (v.sound sin tan s.fs s.curNch.toNat n.toNat).1) :
    ∀ v ∈ (s.renderBlock sin tan n).voices, P v := by
  have hUpdated : ∀ v ∈ s.voices.map (Voice.update s.fs s.params), P v :=
    List.forall_mem_map.2 fun v hv => hUpdate v (hP v hv)
  have hDispatched : ∀ v ∈ s.dispatched.1, P v := forall_dispatch hUpdated hOn hOff
  rw [State.renderBlock_voices]
  intro v hv
  obtain ⟨u, hu, rfl⟩ := List.mem_map.1 hv
  split
  case isTrue => exact hDispatched u hu
  case isFalse hidle => exact hSound u (hDispatched u hu) hidle

/-- A property that the voice reset state has, and that RESET_FILTERS keeps, every step keeps that is no RENDER of a
prepared block. -/
theorem step_forall_voices {P : Voice → Prop} {s t : State} (hP : ∀ v ∈ s.voices, P v) (h : step s = .next t)
    (hReset : P Voice.reset) (hClear : ∀ v, P v → P { v with filt := v.filt.clear })
    (hRender : ∀ w n rest, s.port = .write (s.base + 0x000C) w :: rest → decode w = .ok (.render n) →
      s.prepared = true →
      ∀ v ∈ (State.renderBlock Config.sin32 Config.tan32 n { s with port := rest }).voices, P v) :
    ∀ v ∈ t.voices, P v := by
  rcases step_voices_cases h with hv | hv | hv | ⟨w, n, rest, hport, hdec, hprep, -, -, rfl⟩
  · rwa [hv]
  · exact hv ▸ List.forall_mem_map.2 fun _ _ => hReset
  · exact hv ▸ List.forall_mem_map.2 fun v hv => hClear v (hP v hv)
  · exact hRender w n rest hport hdec hprep

/-- The sample rate of a prepared block (spec/10_state.md R45). -/
theorem State.ConfigInv.rate {s : State} (hs : s.ConfigInv) (hp : s.prepared = true) :
    40000 < s.curSr.toNat ∧ s.curSr.toNat ≤ 192000 := by
  obtain ⟨hlegal, -⟩ := (State.configInv_of_prepared hp).1 hs
  obtain ⟨hlo, hhi, -⟩ := configLegal_iff.1 hlegal
  exact ⟨hlo, hhi⟩

/-! ## What a block does to the units of a voice -/

@[simp] theorem Voice.endOfBlock_amp (v : Voice) : v.endOfBlock.amp = v.amp := by
  unfold Voice.endOfBlock; split <;> rfl

@[simp] theorem Voice.endOfBlock_mod (v : Voice) : v.endOfBlock.mod = v.mod := by
  unfold Voice.endOfBlock; split <;> rfl

@[simp] theorem Voice.endOfBlock_osc (v : Voice) : v.endOfBlock.osc = v.osc := by
  unfold Voice.endOfBlock; split <;> rfl

section Sound

variable (sin tan : F32 → F32) (fs : F32) (nch n : Nat) (v : Voice)

@[simp] theorem Voice.sound_amp : (v.sound sin tan fs nch n).1.amp = Envelope.skip fs n v.amp := by
  simp [Voice.sound, Envelope.samples_fst]

@[simp] theorem Voice.sound_mod : (v.sound sin tan fs nch n).1.mod = (Envelope.skip fs n v.mod).advance fs := by
  simp [Voice.sound, modulationStep]

@[simp] theorem Voice.sound_osc : (v.sound sin tan fs nch n).1.osc = (v.osc.render sin fs n).1 := by
  simp [Voice.sound]

end Sound

/-- A note-off leaves the oscillator as it is (spec/44_voice.md R214). -/
@[simp] theorem Voice.noteOff_osc (fs : F32) (tail : Bool) (v : Voice) : (v.noteOff fs tail).osc = v.osc := by
  unfold Voice.noteOff; dsimp only; split <;> rfl

/-! ## The envelopes (spec/10_state.md R51, spec/41_envelope.md R145) -/

theorem Envelope.RangeInv.held {e : Envelope} (h : e.RangeInv) : e.HeldInv := by
  obtain ⟨-, -, ha, hd, hs, hr, -⟩ := h
  exact ⟨ha, hd, hs, hr⟩

/-- The held times lie in [0, 3] seconds, the range of a segment's time. -/
theorem Envelope.HeldInv.times {e : Envelope} (h : e.HeldInv) :
    F32.Between F32.zero 0x40400000#32 e.a ∧ F32.Between F32.zero 0x40400000#32 e.d ∧
      F32.Between F32.zero 0x40400000#32 e.r := by
  obtain ⟨ha, hd, -, hr⟩ := h
  exact ⟨ha.widen (by decide +kernel) (by decide +kernel), hd.widen (by decide +kernel) (by decide +kernel),
    hr.widen (by decide +kernel) (by decide +kernel)⟩

/-- A segment that `configure` restarts runs for one of the three new times (R131). -/
theorem Envelope.restart?_eq_some {e : Envelope} {a d s r t : F32} (h : e.restart? a d s r = some t) :
    t = a ∨ t = d ∨ t = r := by
  unfold Envelope.restart? at h
  cases hst : e.stage <;> simp only [hst] at h
  case attack => split at h <;> simp_all
  case decay => split at h <;> simp_all
  case release => split at h <;> simp_all
  all_goals cases h

section Rate

variable {e : Envelope} {sr : Nat} (hsr : sr ≤ 192000)
include hsr

theorem Envelope.configure_range {a d s r : F32} (hnew : Envelope.HeldInv { e with a := a, d := d, s := s, r := r })
    (h : e.RangeInv) : (e.configure (F32.ofNat sr) a d s r).RangeInv := by
  have ⟨hta, htd, htr⟩ := hnew.times
  obtain ⟨ha, hd, hs, hr⟩ := hnew
  obtain ⟨hl, hl0, -, -, -, -, hk, hn, hst⟩ := h
  unfold Envelope.configure
  cases hq : e.restart? a d s r with
  | none => exact ⟨hl, hl0, ha, hd, hs, hr, hk, hn, hst⟩
  | some t =>
    have ht : F32.Between F32.zero 0x40400000#32 t := by
      rcases Envelope.restart?_eq_some hq with rfl | rfl | rfl <;> assumption
    exact Envelope.startSeg_range (e := { e with a := a, d := d, s := s, r := r }) hsr ht hl ⟨ha, hd, hs, hr⟩

theorem Envelope.noteOn_range (h : e.RangeInv) : (e.noteOn (F32.ofNat sr)).RangeInv :=
  Envelope.startSeg_range (e := { e with stage := .attack }) hsr h.held.times.1 h.1 h.held

theorem Envelope.noteOff_range (h : e.RangeInv) : (e.noteOff (F32.ofNat sr)).RangeInv := by
  unfold Envelope.noteOff
  split
  · exact h
  · exact Envelope.startSeg_range (e := { e with stage := .release }) hsr h.held.times.2.2 h.1 h.held

theorem Envelope.skip_range {n : Nat} (h : e.RangeInv) : (Envelope.skip (F32.ofNat sr) n e).RangeInv := by
  induction n generalizing e with
  | zero => exact h
  | succ n ih => exact ih (Envelope.advance_range hsr h)

end Rate

/-- The ranges of both envelopes of a voice. -/
def Voice.EnvelopeInv (v : Voice) : Prop := v.amp.RangeInv ∧ v.mod.RangeInv

theorem Voice.noteOff_envelopeInv {v : Voice} {sr : Nat} (tail : Bool) (hsr : sr ≤ 192000) (h : v.EnvelopeInv) :
    (v.noteOff (F32.ofNat sr) tail).EnvelopeInv := by
  obtain ⟨hamp, hmod⟩ := h
  have hamp' := Envelope.noteOff_range hsr hamp
  have hmod' := Envelope.noteOff_range hsr hmod
  unfold Voice.noteOff
  dsimp only
  split
  · exact ⟨Envelope.forceIdle_range hamp', Envelope.forceIdle_range hmod'⟩
  · exact ⟨hamp', hmod'⟩

theorem State.renderBlock_envelopeInv {sin tan : F32 → F32} {n : BitVec 16} {s : State} (hsr : s.curSr.toNat ≤ 192000)
    (hp : s.ParamInv) (hs : s.EnvelopeInv) : (s.renderBlock sin tan n).EnvelopeInv := by
  refine State.forall_renderBlock (P := Voice.EnvelopeInv) hs (fun v hv => ?update) (fun v note hv _ => ?on)
    (fun v tail hv _ => Voice.noteOff_envelopeInv tail hsr hv) (fun v hv _ => ?sound)
  case update =>
    exact ⟨Envelope.configure_range hsr ⟨(hp .attack).1, (hp .decay).1, (hp .sustain).1, (hp .release).1⟩ hv.1,
      Envelope.configure_range hsr ⟨(hp .modAttack).1, (hp .modDecay).1, (hp .modSustain).1, (hp .modRelease).1⟩ hv.2⟩
  case on => exact ⟨Envelope.noteOn_range hsr hv.1, Envelope.noteOn_range hsr hv.2⟩
  case sound =>
    refine ⟨?_, ?_⟩
    · rw [Voice.sound_amp]; exact Envelope.skip_range hsr hv.1
    · rw [Voice.sound_mod]; exact Envelope.advance_range hsr (Envelope.skip_range hsr hv.2)

/-- Settles O57: each operation of an envelope keeps its ranges at a legal sample rate with legal parameters, and RENDER
is made of these operations. -/
theorem stepKeepsEnvelopeRanges : Obligations.StepKeepsEnvelopeRanges := by
  intro s t hc hp hs h
  refine step_forall_voices hs h ⟨Envelope.reset_rangeInv, Envelope.reset_rangeInv⟩ (fun _ hv => hv) ?_
  intro w n rest _ _ hprep
  exact State.renderBlock_envelopeInv (s := { s with port := rest }) (hc.rate hprep).2 hp hs

/-! ## The oscillators (spec/10_state.md R50, spec/42_oscillator.md R172) -/

/-- The update of the parameters keeps the phases and sets the frequency of the note and offset (R166). -/
theorem Oscillator.setFmParams_range {o : Oscillator} {note : BitVec 7} {freq depth : F32}
    (hf : F32.Between F32.zero (F32.ofNat 1000) freq) (hd : F32.Between F32.zero (F32.ofNat 1000) depth)
    (h : o.RangeInv) : (o.setFmParams note freq depth).RangeInv := by
  obtain ⟨hphi, hphiFm, -, -, hoff, -⟩ := h
  exact ⟨hphi, hphiFm, hf, hd, hoff, mainFreq_between hoff⟩

/-- A note-on starts both phases at +0.0 and sets the frequency of its note (R165, R167). -/
theorem Oscillator.noteOn_range {o : Oscillator} {note : BitVec 7} (h : o.RangeInv) :
    (o.setFrequency note).resetPhases.RangeInv := by
  obtain ⟨-, -, hf, hd, hoff, -⟩ := h
  have hzero : F32.lt F32.negPi F32.zero = true ∧ F32.le F32.zero F32.pi = true := by decide +kernel
  exact ⟨hzero, hzero, hf, hd, hoff, mainFreq_between hoff⟩

theorem State.renderBlock_oscillatorInv {sin tan : F32 → F32} {n : BitVec 16} {s : State} (hsin : SinBounded sin)
    (hlo : 40000 < s.curSr.toNat) (hhi : s.curSr.toNat ≤ 192000) (hp : s.ParamInv) (hs : s.OscillatorInv) :
    (s.renderBlock sin tan n).OscillatorInv := by
  have h1000 : F32.ofNat 1000 = 0x447A0000#32 := by decide +kernel
  refine State.forall_renderBlock hs (fun v hv => ?update) (fun v note hv _ => Oscillator.noteOn_range hv)
    (fun v tail hv _ => ?off) (fun v hv _ => ?sound)
  case update =>
    refine Oscillator.setFmParams_range (o := v.osc.setWaveform s.params.oscWaveType) ?_ ?_ hv
    · rw [h1000]; exact (hp .fmFreq).1
    · rw [h1000]; exact (hp .fmDepth).1
  case off => rw [Voice.noteOff_osc]; exact hv
  case sound => rw [Voice.sound_osc]; exact Oscillator.render_range hsin hlo hhi hv

/-- Settles O58: each operation of an oscillator keeps its ranges, a block under a bounded sine; a step that renders is
excluded from the second clause by the word that decodes to RENDER. -/
theorem stepKeepsOscillatorRanges : Obligations.StepKeepsOscillatorRanges := by
  refine ⟨fun sin tan n s t hsin hc hp hs h => ?render, fun s t hs hno h => ?other, fun n s => rfl⟩
  case render =>
    cases hprep : s.prepared with
    | false => simp [renderWith_unprepared hprep] at h
    | true =>
      obtain ⟨hlo, hhi⟩ := hc.rate hprep
      by_cases hn : n.toNat = 0 ∨ s.curBlock.toNat < n.toNat
      · rw [renderWith_badLen hprep hn, Host.Outcome.next.injEq] at h
        exact h ▸ hs
      · rw [renderWith_legal hprep hn, Host.Outcome.next.injEq] at h
        exact h ▸ State.renderBlock_oscillatorInv hsin hlo hhi hp hs
  case other =>
    refine step_forall_voices hs h Oscillator.reset_rangeInv (fun _ hv => hv) ?_
    intro w n rest hport hdec
    exact absurd (eq_encode_of_decode_render hdec ▸ hport) (hno n rest)

end Sys2Proof.Machine
end

section
/-! The registers the host writes: ERR and PREP (O11), the real parameter registers (O12) and that every step keeps them
legal (O53), and the enum parameter registers (O13). -/

namespace Sys2Proof.Machine

/-! ## A read and a write of a mapped word (spec/20_memory.md R81, R82) -/

theorem perform_read {addr : Addr} {r : Reg} (h : target addr = some r) (s : State) :
    perform (.read addr) s = .next (s.respond (s.readReg r)) := by simp [perform, busRead, h]

theorem perform_write {addr : Addr} {r : Reg} (h : target addr = some r) (w : Word) (s : State) :
    perform (.write addr w) s = writeReg r w s := by simp [perform, busWrite, h]

theorem perform_write_param {addr : Addr} {p : Param} (h : target addr = some (.param p)) (w : Word) (s : State) :
    perform (.write addr w) s = .next (s.writeParam p w) := perform_write h w s

/-! ## ERR and PREP (spec/10_state.md R36, R38) -/

/-- Write-one-to-clear, bit by bit (R36). -/
theorem clearErr_getLsbD (err : BitVec 8) (w : Word) {k : Nat} (hk : k < 8) :
    (clearErr err w).getLsbD k = (err.getLsbD k && !w.getLsbD k) := by
  simp [clearErr, hk]

/-- Settles O11: the write of each of the four registers, ERR bit by bit. -/
theorem errAndPrepWrites : Obligations.ErrAndPrepWrites := fun w s =>
  ⟨⟨clearErr s.err w, perform_write (r := .err) (by decide) w s, fun _ => clearErr_getLsbD s.err w⟩,
    perform_write (r := .prepSr) (by decide) w s, perform_write (r := .prepBlock) (by decide) w s,
    perform_write (r := .prepNch) (by decide) w s⟩

/-! ## The enum parameter registers (spec/10_state.md R42, R43) -/

theorem Waveform.ofCode_eq_none {w : Word} (h : 2 < w.toNat) : Waveform.ofCode w = none := by
  obtain ⟨k, hk⟩ := Nat.exists_eq_add_of_le' h
  simp [Waveform.ofCode, hk]

theorem FilterType.ofCode_eq_none {w : Word} (h : 2 < w.toNat) : FilterType.ofCode w = none := by
  obtain ⟨k, hk⟩ := Nat.exists_eq_add_of_le' h
  simp [FilterType.ofCode, hk]

theorem Waveform.code_le (k : Waveform) : k.code.toNat ≤ 2 := by cases k <;> decide

theorem FilterType.code_le (k : FilterType) : k.code.toNat ≤ 2 := by cases k <;> decide

/-- Settles O13: the three legal words by the table of codes, any other by the table's last row. -/
theorem enumParameterWrite : Obligations.EnumParameterWrite := by
  intro w s
  have hwave : target 0x0040#16 = some (.param .oscWaveType) := by decide
  have hfilt : target 0x006C#16 = some (.param .filterType) := by decide
  have refused {addr : Addr} {p : Param} (ht : target addr = some (.param p)) (hnone : s.params.write w p = none) :
      perform (.write addr w) s = .next (s.flag .badParam) := by
    rw [perform_write_param ht, State.writeParam_of_none hnone]
  refine ⟨perform_write_param hwave _ s, perform_write_param hwave _ s, perform_write_param hwave _ s,
    perform_write_param hfilt _ s, perform_write_param hfilt _ s, perform_write_param hfilt _ s, rfl, rfl,
    fun hw => ⟨refused hwave ?_, refused hfilt ?_⟩, perform_read hwave s, perform_read hfilt s,
    Waveform.code_le _, FilterType.code_le _⟩
  · simp [Params.write, Waveform.ofCode_eq_none hw]
  · simp [Params.write, FilterType.ofCode_eq_none hw]

/-! ## The real parameter registers (spec/10_state.md R40, R41) -/

/-- A value equals +0.0 when its magnitude bits are 0: it is +0.0 or -0.0 (spec/00_scope.md R12). -/
theorem F32.eq_zero_iff (x : F32) : F32.eq x F32.zero = true ↔ F32.mag x = 0 := by
  have hzero : F32.isNaN F32.zero = false ∧ F32.key F32.zero = 0 := by decide +kernel
  have hkey : F32.key x = 0 ↔ F32.mag x = 0 := by unfold F32.key; split <;> omega
  have hnum : F32.mag x = 0 → F32.isNaN x = false := fun h => by simp [F32.isNaN, h]
  simpa [F32.eq, hzero, hkey] using hnum

theorem RealParam.stored_of_nan {w : Word} (p : RealParam) (h : F32.isNaN w = true) : p.stored w = none := by
  simp [RealParam.stored, h]

theorem RealParam.stored_of_not_nan {w : Word} (p : RealParam) (h : F32.isNaN w = false) :
    p.stored w = some (if F32.mag (F32.clamp w p.lo p.hi) = 0 then F32.zero else F32.clamp w p.lo p.hi) := by
  simp [RealParam.stored, h, F32.eq_zero_iff]

theorem Params.write_real (ps : Params) (w : Word) (p : RealParam) :
    ps.write w (.real p) = (p.stored w).map fun x => ps.set x p := rfl

/-- Settles O12: each row is a register with its address and bounds, and what a write stores in it `stored` says. -/
theorem realParameterWrite : Obligations.RealParameterWrite := by
  intro row hrow w s
  obtain ⟨ht, hlo, hhi⟩ : target row.1 = some (.param (.real row.2.1)) ∧ row.2.1.lo = row.2.2.1 ∧
      row.2.1.hi = row.2.2.2 := by
    revert row
    decide
  obtain ⟨a, p, lo, hi⟩ := row
  dsimp only at ht hlo hhi ⊢
  subst hlo hhi
  rw [perform_write_param ht]
  refine ⟨fun hnan => ?_, fun hnum => ?_, perform_read ht s⟩
  · rw [State.writeParam_of_none (by simp [Params.write_real, p.stored_of_nan hnan])]
    rfl
  · have hstored := (s.params.write_real w p).trans (congrArg _ (p.stored_of_not_nan hnum))
    exact ⟨_, congrArg _ (State.writeParam_of_some hstored), Params.get_set_same .., fun q => Params.get_set_other _ _,
      Params.oscWaveType_set .., Params.filterType_set ..⟩

/-- The bounds of a real register are in order (R40). -/
theorem RealParam.bounds (p : RealParam) :
    F32.isFinite p.lo = true ∧ F32.isFinite p.hi = true ∧ F32.le p.lo p.hi = true := by
  cases p <;> decide +kernel

/-- A value in the order of a zero is in the order of the other zero too. -/
theorem F32.Between.zero_of_mag {lo hi x : F32} (h : F32.Between lo hi x) (hx : F32.mag x = 0) :
    F32.Between lo hi F32.zero := by
  have hzero : F32.isNaN F32.zero = false ∧ F32.key F32.zero = 0 := by decide +kernel
  have hkey : F32.key x = 0 := by simp [F32.key, hx]
  simp only [F32.Between, F32.le, hzero, hkey, Bool.and_eq_true] at h ⊢
  exact ⟨⟨⟨h.1.1.1, rfl⟩, h.1.2⟩, ⟨rfl, h.2.1.2⟩, h.2.2⟩

/-- What a write stores lies in the register's range, and is no -0.0 (R41). -/
theorem RealParam.stored_legal {p : RealParam} {w : Word} {x : F32} (h : p.stored w = some x) :
    F32.Between p.lo p.hi x ∧ x ≠ F32.negZero := by
  cases hnan : F32.isNaN w with
  | true => rw [p.stored_of_nan hnan] at h; cases h
  | false =>
    rw [p.stored_of_not_nan hnan, Option.some.injEq] at h
    obtain ⟨hlo, hhi, hle⟩ := p.bounds
    have hclamp : F32.Between p.lo p.hi (F32.clamp w p.lo p.hi) := F32.clamp_mem hnan hlo hhi hle
    have hneg : F32.mag F32.negZero = 0 := by decide +kernel
    subst h
    split
    case isTrue h0 => exact ⟨hclamp.zero_of_mag h0, by decide⟩
    case isFalse h0 => exact ⟨hclamp, fun h => h0 (h ▸ hneg)⟩

theorem State.writeParam_paramInv {s : State} (p : Param) (w : Word) (hs : s.ParamInv) : (s.writeParam p w).ParamInv := by
  cases hw : s.params.write w p with
  | none => rw [State.writeParam_of_none hw]; exact hs
  | some ps =>
    rw [State.writeParam_of_some hw]
    cases p with
    | oscWaveType => obtain ⟨_, _, rfl⟩ := Option.map_eq_some_iff.1 hw; exact hs
    | filterType => obtain ⟨_, _, rfl⟩ := Option.map_eq_some_iff.1 hw; exact hs
    | real p =>
      obtain ⟨x, hx, rfl⟩ := Option.map_eq_some_iff.1 hw
      intro q
      by_cases hq : q = p
      · subst hq
        simpa using RealParam.stored_legal hx
      · simpa [Params.get_set_other s.params x hq] using hs q

/-- No command writes a parameter register (spec/44_voice.md R212). -/
theorem exec_params {i : Instr} {s t : State} (h : exec i s = .next t) : t.params = s.params := by
  rcases exec_cases h with ⟨_, rfl, _⟩ | ⟨rfl, _⟩ | ⟨_, _, _, _, rfl⟩ | ⟨_, _, _, _, _, rfl⟩ | ⟨_, _, rfl⟩ |
    ⟨_, _, rfl⟩ | ⟨_, rfl⟩ | ⟨_, rfl⟩
  any_goals rfl
  rw [State.renderBlock_eq]

theorem perform_paramInv {a : Access} {s t : State} (hs : s.ParamInv) (h : perform a s = .next t) : t.ParamInv := by
  rcases perform_cases h with ⟨_, _, _, _, rfl⟩ | ⟨_, _, _, rfl⟩ | ⟨_, _, _, rfl⟩ | ⟨_, _, _, _, rfl⟩ |
    ⟨_, _, _, _, rfl⟩ | ⟨_, _, _, _, rfl⟩ | ⟨_, _, _, _, rfl⟩ | ⟨_, _, _, _, _, rfl⟩ | ⟨_, _, _, _, _, rfl⟩ |
    ⟨_, _, _, _, _, _, hx⟩ | ⟨_, rfl⟩
  any_goals exact hs
  · exact State.writeParam_paramInv _ _ hs
  · unfold State.ParamInv
    rwa [exec_params hx]
  · exact Params.reset_between

/-- Settles O53: a parameter write stores legal values alone, reset restores legal ones, and nothing else writes a
parameter register. -/
theorem stepKeepsParameters : Obligations.StepKeepsParameters :=
  step_keeps_of_perform (fun _ _ h => h) fun _ _ _ => perform_paramInv

end Sys2Proof.Machine
end

section
/-! The words computed from state, field by field: CAPS and STATUS (O14) and VSTAT (O15). A field starts above the
fields below it and ends under those above it, so reading it drops one neighbour at a time. -/

namespace Sys2Proof.Machine

/-! ## CAPS and STATUS (spec/10_state.md R34, R35) -/

theorem capsWord_fields (nv : Nat) :
    (capsWord nv).extractLsb' 0 8 = BitVec.ofNat 8 nv ∧ (capsWord nv).extractLsb' 8 8 = BitVec.ofNat 8 Config.evqDepth ∧
      (capsWord nv).extractLsb' 16 16 = BitVec.ofNat 16 Config.maxBlock := by
  unfold capsWord
  refine ⟨BitVec.extractLsb'_append_eq_right, ?_, ?_⟩
  · rw [BitVec.extractLsb'_append_eq_of_le (by decide)]
    exact BitVec.extractLsb'_append_eq_right
  · rw [BitVec.extractLsb'_append_eq_of_le (by decide)]
    exact BitVec.extractLsb'_append_eq_left

theorem statusWord_fields (prepared : Bool) (count : Nat) (vs : List Voice) :
    (statusWord prepared count vs).extractLsb' 0 1 = BitVec.ofBool prepared ∧
      (statusWord prepared count vs).extractLsb' 1 7 = 0#7 ∧
      (statusWord prepared count vs).extractLsb' 8 8 = BitVec.ofNat 8 count ∧
      (statusWord prepared count vs).extractLsb' 16 16 = activeBits vs := by
  unfold statusWord
  refine ⟨BitVec.extractLsb'_append_eq_right, ?_, ?_, ?_⟩
  · rw [BitVec.extractLsb'_append_eq_of_le (by decide)]
    exact BitVec.extractLsb'_append_eq_right
  · rw [BitVec.extractLsb'_append_eq_of_le (by decide), BitVec.extractLsb'_append_eq_of_le (by decide)]
    exact BitVec.extractLsb'_append_eq_right
  · rw [BitVec.extractLsb'_append_eq_of_le (by decide), BitVec.extractLsb'_append_eq_of_le (by decide)]
    exact BitVec.extractLsb'_append_eq_left

/-- A bit of a word is a bit of the field that holds it. -/
theorem getLsbD_of_extractLsb' {w : Word} {start len : Nat} {f : BitVec len} (h : w.extractLsb' start len = f) {k : Nat}
    (hk : k < len) : w.getLsbD (start + k) = f.getLsbD k := by
  rw [← h, BitVec.getLsbD_extractLsb', decide_eq_true hk, Bool.true_and]

/-- Settles O14: the fields of the two words, ACTIVE bit by bit. -/
theorem capsAndStatusFields : Obligations.CapsAndStatusFields := by
  refine ⟨fun nv _ h16 => ?caps, by decide, fun prepared count vs hcount _ => ?status⟩
  case caps =>
    obtain ⟨hnv, hdepth, hmax⟩ := capsWord_fields nv
    rw [hnv, hdepth, hmax]
    exact ⟨Nat.mod_eq_of_lt (by omega), rfl, rfl⟩
  case status =>
    obtain ⟨hprep, hzero, hcnt, hactive⟩ := statusWord_fields prepared count vs
    refine ⟨?_, hzero, ?_, fun v hv => ?_⟩
    · simpa using getLsbD_of_extractLsb' hprep one_pos
    · rw [hcnt]
      exact Nat.mod_eq_of_lt (by omega)
    · rw [getLsbD_of_extractLsb' hactive hv, activeBits_getLsbD vs v hv]

/-! ## VSTAT (spec/10_state.md R44) -/

theorem vstatWord_fields (v : Voice) :
    (vstatWord v).extractLsb' 0 2 = v.vstate.code ∧ (vstatWord v).extractLsb' 2 3 = v.amp.stage.code ∧
      (vstatWord v).extractLsb' 5 3 = v.mod.stage.code ∧ (vstatWord v).extractLsb' 8 7 = v.note ∧
      (vstatWord v).extractLsb' 15 17 = 0#17 := by
  unfold vstatWord
  refine ⟨BitVec.extractLsb'_append_eq_right, ?_, ?_, ?_, ?_⟩
  · rw [BitVec.extractLsb'_append_eq_of_le (by decide)]
    exact BitVec.extractLsb'_append_eq_right
  · rw [BitVec.extractLsb'_append_eq_of_le (by decide), BitVec.extractLsb'_append_eq_of_le (by decide)]
    exact BitVec.extractLsb'_append_eq_right
  · rw [BitVec.extractLsb'_append_eq_of_le (by decide), BitVec.extractLsb'_append_eq_of_le (by decide),
      BitVec.extractLsb'_append_eq_of_le (by decide)]
    exact BitVec.extractLsb'_append_eq_right
  · rw [BitVec.extractLsb'_append_eq_of_le (by decide), BitVec.extractLsb'_append_eq_of_le (by decide),
      BitVec.extractLsb'_append_eq_of_le (by decide)]
    exact BitVec.extractLsb'_append_eq_left

theorem State.vstat_of_voice {s : State} {v : Nat} {x : Voice} (h : s.voices[v]? = some x) :
    s.vstat v = vstatWord x := by simp [State.vstat, h]

theorem State.vstat_of_no_voice {s : State} {v : Nat} (h : s.voices.length ≤ v) : s.vstat v = 0#32 := by
  simp [State.vstat, List.getElem?_eq_none h]

theorem VState.code_ne (x : VState) : x.code ≠ 3#2 := by cases x <;> decide

theorem Stage.code_le (x : Stage) : x.code.toNat ≤ 4 := by cases x <;> decide

/-- The codes of VSTAT that never occur, whether the voice exists or not (R44). -/
theorem State.vstat_codes (s : State) (v : Nat) : (s.vstat v).extractLsb' 0 2 ≠ 3#2 ∧
    ((s.vstat v).extractLsb' 2 3).toNat ≤ 4 ∧ ((s.vstat v).extractLsb' 5 3).toNat ≤ 4 := by
  cases h : s.voices[v]? with
  | none =>
    rw [State.vstat_of_no_voice (List.getElem?_eq_none_iff.1 h)]
    decide
  | some x =>
    obtain ⟨hvstate, hamp, hmod, -⟩ := vstatWord_fields x
    rw [State.vstat_of_voice h, hvstate, hamp, hmod]
    exact ⟨x.vstate.code_ne, x.amp.stage.code_le, x.mod.stage.code_le⟩

/-- The address of VSTAT[v] (spec/10_state.md R33). -/
theorem target_vstat {v : Nat} (hv : v < 16) : target (BitVec.ofNat 16 (0x100 + 4 * v)) = some (.vstat v) := by
  revert v
  decide

/-- Settles O15: the fields of the word of a voice, the codes, and the two accesses to its address. -/
theorem voiceStatusFields : Obligations.VoiceStatusFields := by
  intro s v
  obtain ⟨hvstate, hamp, hmod⟩ := s.vstat_codes v
  refine ⟨fun x hx => State.vstat_of_voice hx ▸ vstatWord_fields x, State.vstat_of_no_voice, hvstate, hamp, hmod, rfl, rfl,
    fun hv => ⟨perform_read (target_vstat hv) s, fun w => perform_write (target_vstat hv) w s⟩⟩

end Sys2Proof.Machine
end

section
/-! The error bits: what clears them (O48), and that no command reads them (O49). -/

namespace Sys2Proof.Machine

/-! ## A mapped word stands at one address (spec/10_state.md R33) -/

theorem controlReg_addr {k : Nat} {r : Reg} (h : controlReg k = some r) : r.addr = 4 * k := by
  unfold controlReg at h
  split at h <;> cases h <;> rfl

theorem paramAt_index {k : Nat} {p : Param} (h : paramAt k = some p) : p.index = k := by
  unfold paramAt at h
  split at h <;> cases h <;> rfl

theorem regAt_addr {a : Nat} {r : Reg} (h4 : a % 4 = 0) (h : regAt a = some r) : r.addr = a := by
  unfold regAt at h
  split at h
  · have := controlReg_addr h
    omega
  split at h
  · obtain ⟨p, hp, rfl⟩ := Option.map_eq_some_iff.1 h
    have := paramAt_index hp
    simp only [Reg.addr]
    omega
  split at h
  · cases h
    simp only [Reg.addr]
    omega
  split at h
  · cases h
    simp only [Reg.addr, outAddr, Config.maxBlock]
    omega
  · cases h

theorem eq_addr_of_target {addr : Addr} {r : Reg} (h : target addr = some r) : addr = BitVec.ofNat 16 r.addr := by
  unfold target at h
  split at h
  case isTrue h4 => rw [regAt_addr h4 h, BitVec.ofNat_toNat, BitVec.setWidth_eq]
  case isFalse => cases h

/-! ## What a RENDER does to ERR (spec/60_exceptions.md R302) -/

/-- The bit a RENDER sets: NOFREEVOICE when it dropped a note-on. -/
def State.droppedBit (s : State) : BitVec 8 := if s.dispatched.2 then 1#8 <<< Err.noFreeVoice.code else 0#8

/-- A RENDER sets that bit and else does not depend on ERR. -/
theorem State.renderBlock_withErr (sin tan : F32 → F32) (n : BitVec 16) (s : State) (e : BitVec 8) :
    State.renderBlock sin tan n { s with err := e } = { s.renderBlock sin tan n with err := e ||| s.droppedBit } := by
  have hd : State.dispatched { s with err := e } = s.dispatched := rfl
  unfold State.renderBlock State.droppedBit
  dsimp only
  rw [hd]
  split
  · rfl
  · rw [BitVec.or_zero]
    rfl

theorem State.renderBlock_err (sin tan : F32 → F32) (n : BitVec 16) (s : State) :
    (s.renderBlock sin tan n).err = s.err ||| s.droppedBit :=
  congrArg State.err (State.renderBlock_withErr sin tan n s s.err)

/-! ## No command reads ERR (spec/10_state.md R53) -/

/-- What `f` answers does not depend on ERR: it sets the bits `d`, whatever ERR holds, and answers else the same. -/
def ErrBlind (f : State → Host.Outcome State Fault Refusal) : Prop :=
  ∀ s t, f s = .next t → ∃ d : BitVec 8, t.err = s.err ||| d ∧ ∀ e, f { s with err := e } = .next { t with err := e ||| d }

/-- An update that sets the bits `d`, and else makes the same of a state whatever ERR holds. -/
theorem errBlind_set {g : State → State} {d : State → BitVec 8} (hset : ∀ s, (g s).err = s.err ||| d s)
    (hblind : ∀ s e, g { s with err := e } = { g s with err := e ||| d s }) : ErrBlind fun s => .next (g s) := by
  intro s t h
  cases h
  exact ⟨d s, hset s, fun e => congrArg Host.Outcome.next (hblind s e)⟩

/-- Raising an error sets its bit. -/
theorem errBlind_raise (c : Err) : ErrBlind (raise c) :=
  errBlind_set (g := (State.flag · c)) (d := fun _ => 1#8 <<< c.code) (fun _ => rfl) fun _ _ => rfl

/-- An update that keeps ERR, whatever it holds. -/
theorem errBlind_keep {g : State → State} (hkeep : ∀ s, (g s).err = s.err)
    (hblind : ∀ s e, g { s with err := e } = { g s with err := e }) : ErrBlind fun s => .next (g s) :=
  errBlind_set (d := fun _ => 0#8) (fun s => by rw [hkeep, BitVec.or_zero]) fun s e => by rw [hblind, BitVec.or_zero]

/-- A choice that does not read ERR. -/
theorem errBlind_ite {c : State → Prop} [DecidablePred c] {f g : State → Host.Outcome State Fault Refusal}
    (hc : ∀ s e, c { s with err := e } ↔ c s) (hf : ErrBlind f) (hg : ErrBlind g) :
    ErrBlind fun s => if c s then f s else g s := by
  intro s t h
  simp only [hc] at h ⊢
  by_cases hs : c s
  · simp only [hs, if_true] at h ⊢
    exact hf s t h
  · simp only [hs, if_false] at h ⊢
    exact hg s t h

theorem errBlind_fault (r : State → Fault) : ErrBlind fun s => .fault (r s) := fun _ _ h => nomatch h

theorem errBlind_enqueue {ev : State → Event} (hev : ∀ s e, ev { s with err := e } = ev s) :
    ErrBlind fun s => enqueue (ev s) s :=
  errBlind_ite (c := fun s => s.evq.length = Config.evqDepth) (fun _ _ => Iff.rfl) (errBlind_raise .evqOvf)
    (errBlind_keep (g := fun s => { s with evq := s.evq ++ [ev s] }) (fun _ => rfl) fun s e => by rw [hev])

theorem errBlind_renderWith (sin tan : F32 → F32) (n : BitVec 16) : ErrBlind (renderWith sin tan n) :=
  errBlind_ite (c := fun s => s.prepared = false) (fun _ _ => Iff.rfl)
    (errBlind_fault fun s => .precond (s.flag .precond))
    (errBlind_ite (c := fun s => n.toNat = 0 ∨ s.curBlock.toNat < n.toNat) (fun _ _ => Iff.rfl) (errBlind_raise .badLen)
      (errBlind_set (g := State.renderBlock sin tan n) (d := State.droppedBit) (State.renderBlock_err sin tan n)
        (State.renderBlock_withErr sin tan n)))

theorem errBlind_exec (i : Instr) : ErrBlind (exec i) := by
  cases i with
  | noteOn ts vel note => exact errBlind_enqueue fun _ _ => rfl
  | noteOff ts tail vel note => exact errBlind_enqueue fun _ _ => rfl
  | render n => exact errBlind_renderWith Config.sin32 Config.tan32 n
  | prepare =>
    exact errBlind_ite (fun _ _ => Iff.rfl) (errBlind_keep (fun _ => rfl) fun _ _ => rfl) (errBlind_raise _)
  | resetFilters => exact errBlind_keep (fun _ => rfl) fun _ _ => rfl
  | release => exact errBlind_keep (fun _ => rfl) fun _ _ => rfl

/-- Settles O49: a command chooses between raising an error and an update, and no part of it reads ERR. -/
theorem errorBitsSteerNoCommand : Obligations.ErrorBitsSteerNoCommand := errBlind_exec

/-! ## What clears a bit (spec/60_exceptions.md R312) -/

/-- Settles O48: a command sets bits and clears none, any other access sets bits or keeps them; only the write to ERR
and the reset clear them. -/
theorem errorBitsAreSticky : Obligations.ErrorBitsAreSticky := by
  intro a s t h hreset hclear k hk
  have hflag (e : Err) : (s.flag e).err.getLsbD k = true := by simp [setErr_getLsbD, hk]
  rcases perform_cases h with ⟨_, _, _, _, rfl⟩ | ⟨_, _, _, rfl⟩ | ⟨_, _, _, rfl⟩ | ⟨addr, w, rfl, ht, _⟩ |
    ⟨_, _, _, _, rfl⟩ | ⟨_, _, _, _, rfl⟩ | ⟨_, _, _, _, rfl⟩ | ⟨_, w, p, _, _, rfl⟩ | ⟨_, _, _, _, _, rfl⟩ |
    ⟨_, _, i, _, _, _, hx⟩ | ⟨rfl, _⟩
  · exact hk
  · exact hflag .badAddr
  · exact hflag .badAddr
  · exact absurd (congrArg (Access.write · w) (eq_addr_of_target ht)) (hclear w)
  · exact hk
  · exact hk
  · exact hk
  · cases hw : s.params.write w p with
    | none => rw [State.writeParam_of_none hw]; exact hflag .badParam
    | some ps => rw [State.writeParam_of_some hw]; exact hk
  · exact hflag .badCmd
  · obtain ⟨d, hd, -⟩ := errBlind_exec i s t hx
    rw [hd, BitVec.getLsbD_or, hk, Bool.true_or]
  · exact absurd rfl hreset

end Sys2Proof.Machine
end

section
/-! The register map (spec/10_state.md R33): a read of every mapped word (O9), and the accesses that only flag BADADDR
(O10). -/

namespace Sys2Proof.Machine

/-! ## The ranges of the map (spec/10_state.md R33, spec/20_memory.md R83) -/

theorem regAt_vstat {a : Nat} (hlo : 0x100 ≤ a) (hhi : a < 0x140) : regAt a = some (.vstat ((a - 0x100) / 4)) := by
  unfold regAt
  rw [if_neg (by omega), if_neg (by omega), if_pos ⟨hlo, hhi⟩]

theorem regAt_out {a : Nat} (hlo : 0x1000 ≤ a) (hhi : a < 0x9000) :
    regAt a = some (.out ((a - 0x1000) / 4 / Config.maxBlock) ((a - 0x1000) / 4 % Config.maxBlock)) := by
  unfold regAt
  rw [if_neg (by omega), if_neg (by omega), if_neg (by omega), if_pos ⟨hlo, hhi⟩]

/-- Between the ranges stands no word; below 0x30 the one gap is the word at 0x1C. -/
theorem regAt_gap {a : Nat} (h4 : a % 4 = 0)
    (h : ¬(a < 0x1C ∨ (0x20 ≤ a ∧ a < 0x30) ∨ (0x40 ≤ a ∧ a < 0x78) ∨ (0x100 ≤ a ∧ a < 0x140) ∨
      (0x1000 ≤ a ∧ a < 0x9000))) : regAt a = none := by
  by_cases h30 : a < 0x30
  · obtain rfl : a = 0x1C := by omega
    rfl
  · unfold regAt
    rw [if_neg h30, if_neg (by omega), if_neg (by omega), if_neg (by omega)]

/-! ## Every mapped word stands at its address -/

/-- The words the map holds: 16 of VSTAT, 2 × 4096 of OUT, and each of the others. -/
def Reg.Mapped : Reg → Prop
  | .vstat v => v < 16
  | .out c i => c < 2 ∧ i < Config.maxBlock
  | _ => True

/-- The converse of `eq_addr_of_target`. -/
theorem target_addr {r : Reg} (h : r.Mapped) : target (BitVec.ofNat 16 r.addr) = some r := by
  cases r with
  | param p =>
    cases p with
    | real p => cases p <;> rfl
    | _ => rfl
  | vstat v => exact target_vstat h
  | out c i =>
    obtain ⟨hc, hi⟩ := h
    simp only [Config.maxBlock] at hi
    have haddr : (BitVec.ofNat 16 (Reg.out c i).addr).toNat = 0x1000 + 4 * (c * 4096 + i) :=
      Nat.mod_eq_of_lt (by simp only [Reg.addr, outAddr, Config.maxBlock]; omega)
    unfold target
    rw [haddr, if_pos (by omega), regAt_out (by omega) (by omega)]
    simp only [Config.maxBlock, Option.some.injEq, Reg.out.injEq]
    omega
  | _ => rfl

/-- Settles O9: each address is that of a mapped word, and a read of a mapped word returns it. -/
theorem mappedReadsReturnRegisters : Obligations.MappedReadsReturnRegisters := by
  intro s
  have hread (r : Reg) (h : r.Mapped) := perform_read (target_addr h) s
  exact ⟨hread .caps trivial, hread .status trivial, hread .err trivial, hread .cmd trivial, hread .prepSr trivial,
    hread .prepBlock trivial, hread .prepNch trivial, hread .curSr trivial, hread .curBlock trivial,
    hread .curNch trivial, hread .lastN trivial, hread (.param .oscWaveType) trivial,
    hread (.param (.real .fmFreq)) trivial, hread (.param (.real .fmDepth)) trivial,
    hread (.param (.real .attack)) trivial, hread (.param (.real .decay)) trivial,
    hread (.param (.real .sustain)) trivial, hread (.param (.real .release)) trivial,
    hread (.param (.real .modAttack)) trivial, hread (.param (.real .modDecay)) trivial,
    hread (.param (.real .modSustain)) trivial, hread (.param (.real .modRelease)) trivial,
    hread (.param .filterType) trivial, hread (.param (.real .filterFreq)) trivial,
    hread (.param (.real .filterRes)) trivial, fun v hv => hread (.vstat v) hv,
    fun c i hc hi => hread (.out c i) ⟨hc, hi⟩⟩

/-! ## Accesses that only flag BADADDR (spec/20_memory.md R82 to R84) -/

theorem perform_read_unmapped {addr : Addr} (h : target addr = none) (s : State) :
    perform (.read addr) s = .next ((s.flag .badAddr).respond 0#32) := by simp [perform, busRead, h]

theorem perform_write_unmapped {addr : Addr} (h : target addr = none) (w : Word) (s : State) :
    perform (.write addr w) s = .next (s.flag .badAddr) := by simp [perform, busWrite, h]

/-- The read-only ranges hold words whose write is ignored (R82). -/
theorem regAt_readOnly {a : Nat} (h4 : a % 4 = 0)
    (h : a = 0x0 ∨ a = 0x4 ∨ (0x20 ≤ a ∧ a < 0x30) ∨ (0x100 ≤ a ∧ a < 0x140) ∨ (0x1000 ≤ a ∧ a < 0x9000)) :
    ∃ r, regAt a = some r ∧ ∀ w s, writeReg r w s = .next (s.flag .badAddr) := by
  obtain rfl | rfl | hcur | ⟨hlo, hhi⟩ | ⟨hlo, hhi⟩ := h
  · exact ⟨.caps, rfl, fun _ _ => rfl⟩
  · exact ⟨.status, rfl, fun _ _ => rfl⟩
  · obtain rfl | rfl | rfl | rfl : a = 0x20 ∨ a = 0x24 ∨ a = 0x28 ∨ a = 0x2C := by omega
    · exact ⟨.curSr, rfl, fun _ _ => rfl⟩
    · exact ⟨.curBlock, rfl, fun _ _ => rfl⟩
    · exact ⟨.curNch, rfl, fun _ _ => rfl⟩
    · exact ⟨.lastN, rfl, fun _ _ => rfl⟩
  · exact ⟨_, regAt_vstat hlo hhi, fun _ _ => rfl⟩
  · exact ⟨_, regAt_out hlo hhi, fun _ _ => rfl⟩

/-- Settles O10: a misaligned address or a gap of the map reaches no word, and a read-only word ignores a write. -/
theorem badAccessesFlagBadAddr : Obligations.BadAccessesFlagBadAddr := by
  refine ⟨fun a w s h => ?_, fun a w s h4 h => ?_⟩
  · have hnone : target a = none := by
      unfold target
      split
      case isTrue h4 => exact regAt_gap h4 (h.resolve_left (not_not_intro h4))
      case isFalse => rfl
    exact ⟨perform_read_unmapped hnone s, perform_write_unmapped hnone w s⟩
  · obtain ⟨r, hat, hw⟩ := regAt_readOnly h4 h
    have hr : target a = some r := (if_pos h4).trans hat
    exact (perform_write hr w s).trans (hw w s)

end Sys2Proof.Machine
end

section
/-! Encoding and decoding (spec/30_encoding.md): the round trip of commands and words (O1, O2), the opcode map (O3), the
reserved words (O4), the worked words (O5), and the operands an assembler places (O6). -/

namespace Sys2Proof

open Laws.RowMatch

/-! ## A word as the fields of its format side by side (R101 to R103) -/

theorem extractLsb'_one_eq_ofBool (w : Word) (k : Nat) : w.extractLsb' k 1 = BitVec.ofBool (w.getLsbD k) := by
  ext i hi
  obtain rfl : i = 0 := by omega
  simp

/-- Format N (R101). -/
theorem word_eq_formatN (w : Word) : fieldOp w ++ fieldTs w ++ BitVec.ofBool (fieldT w) ++ fieldVel w ++
    BitVec.ofBool (w.getLsbD 7) ++ fieldNote w = w := by
  unfold fieldOp fieldTs fieldT fieldVel fieldNote
  rw [← extractLsb'_one_eq_ofBool, ← extractLsb'_one_eq_ofBool,
    BitVec.extractLsb'_append_extractLsb'_eq_extractLsb' (by decide),
    BitVec.extractLsb'_append_extractLsb'_eq_extractLsb' (by decide),
    BitVec.extractLsb'_append_extractLsb'_eq_extractLsb' (by decide),
    BitVec.extractLsb'_append_extractLsb'_eq_extractLsb' (by decide),
    BitVec.extractLsb'_append_extractLsb'_eq_extractLsb' (by decide)]
  exact BitVec.extractLsb'_eq_self

/-- Format R (R102). -/
theorem word_eq_formatR (w : Word) : fieldOp w ++ w.extractLsb' 16 12 ++ fieldN w = w := by
  unfold fieldOp fieldN
  rw [BitVec.extractLsb'_append_extractLsb'_eq_extractLsb' (by decide),
    BitVec.extractLsb'_append_extractLsb'_eq_extractLsb' (by decide)]
  exact BitVec.extractLsb'_eq_self

/-- Format Z (R103). -/
theorem word_eq_formatZ (w : Word) : fieldOp w ++ w.extractLsb' 0 28 = w := BitVec.extractLsb'_append_extractLsb'

theorem opcodeMatch_eq_of_formatZ {w : Word} {op : BitVec 4} (hop : fieldOp w = op) (hz : w.extractLsb' 0 28 = 0#28) :
    opcodeMatch op = w := by
  have hw := word_eq_formatZ w
  rwa [hop, hz] at hw

/-! ## What the fixed bits of a row say of the fields (R104) -/

section FixedBits

variable {w m c : Word}

theorem getLsbD_of_fixed {k : Nat} (h : w &&& m = c) (hm : m.getLsbD k = true) : w.getLsbD k = c.getLsbD k := by
  rw [← h, BitVec.getLsbD_and, hm, Bool.and_true]

theorem extractLsb'_of_fixed {start len : Nat} (h : w &&& m = c)
    (hm : m.extractLsb' start len = BitVec.allOnes len) : w.extractLsb' start len = c.extractLsb' start len := by
  rw [← h, BitVec.extractLsb'_and, hm, BitVec.and_allOnes]

end FixedBits

/-- Every row fixes the opcode. -/
theorem fieldOp_of_fixed {w : Word} {op : BitVec 4} (h : w &&& opcodeMask op = opcodeMatch op) : fieldOp w = op := by
  have hmask : (opcodeMask op).extractLsb' 28 4 = BitVec.allOnes 4 := by
    unfold opcodeMask
    split_ifs <;> rfl
  calc fieldOp w = (opcodeMatch op).extractLsb' 28 4 := extractLsb'_of_fixed h hmask
    _ = op := BitVec.extractLsb'_append_eq_left

theorem decode_of_fixed {w : Word} {op : BitVec 4} {i : Instr} (h : w &&& opcodeMask op = opcodeMatch op)
    (hi : fieldOp w = op → opcodeInstr w = some i) : decode w = .ok i :=
  decode_eq_ok.2 ⟨hi (fieldOp_of_fixed h), by rwa [fieldOp_of_fixed h]⟩

/-! ## The reserved words (R107) -/

/-- The reserved words of R107. -/
def Reserved (w : Word) : Prop :=
  let op := (fieldOp w).toNat
  op = 0 ∨ 7 ≤ op ∨ (op = 1 ∧ (w.getLsbD 15 = true ∨ w.getLsbD 7 = true)) ∨ (op = 2 ∧ w.getLsbD 7 = true) ∨
    (op = 3 ∧ w.extractLsb' 16 12 ≠ 0#12) ∨ (4 ≤ op ∧ op ≤ 6 ∧ w.extractLsb' 0 28 ≠ 0#28)

theorem opcodeInstr_eq_none {w : Word} (h : (fieldOp w).toNat = 0 ∨ 7 ≤ (fieldOp w).toNat) :
    opcodeInstr w = none := by
  unfold opcodeInstr
  split
  case h_7 => rfl
  all_goals omega

/-- The rows of format Z fix every bit. -/
theorem opcodeMask_formatZ {op : BitVec 4} (h : 4 ≤ op.toNat) : opcodeMask op = BitVec.allOnes 32 := by
  have hne (k : BitVec 4) (hk : k.toNat < 4) : op ≠ k := by rintro rfl; omega
  unfold opcodeMask
  rw [if_neg (hne 1#4 (by decide)), if_neg (hne 2#4 (by decide)), if_neg (hne 3#4 (by decide))]
  rfl

theorem not_reserved_of_decode {w : Word} {i : Instr} (h : decode w = .ok i) : ¬Reserved w := by
  obtain ⟨hi, hfixed⟩ := decode_eq_ok.1 h
  have hop {k : BitVec 4} (hk : (fieldOp w).toNat = k.toNat) : w &&& opcodeMask k = opcodeMatch k := by
    rwa [← BitVec.eq_of_toNat_eq hk]
  rintro (h0 | h7 | ⟨h1, hT | hz⟩ | ⟨h2, hz⟩ | ⟨h3, hz⟩ | ⟨h4, -, hz⟩)
  · cases (opcodeInstr_eq_none (.inl h0)).symm.trans hi
  · cases (opcodeInstr_eq_none (.inr h7)).symm.trans hi
  · cases hT.symm.trans (getLsbD_of_fixed (hop (k := 1#4) h1) rfl)
  · cases hz.symm.trans (getLsbD_of_fixed (hop (k := 1#4) h1) rfl)
  · cases hz.symm.trans (getLsbD_of_fixed (hop (k := 2#4) h2) rfl)
  · exact hz (extractLsb'_of_fixed (hop (k := 3#4) h3) rfl)
  · have hall : (opcodeMask (fieldOp w)).extractLsb' 0 28 = BitVec.allOnes 28 := by rw [opcodeMask_formatZ h4]; rfl
    exact hz ((extractLsb'_of_fixed hfixed hall).trans BitVec.extractLsb'_append_eq_right)

/-- A word with no reserved field set is the fields of a command side by side. -/
theorem exists_encode_of_not_reserved {w : Word} (h : ¬Reserved w) : ∃ i, encode i = w := by
  simp only [Reserved, not_or, not_and, Bool.not_eq_true, ne_eq, not_not] at h
  obtain ⟨h0, h7, hN, hNoff, hR, hZ⟩ := h
  have hop {k : BitVec 4} (hk : (fieldOp w).toNat = k.toNat) : fieldOp w = k := BitVec.eq_of_toNat_eq hk
  have hsplit : (fieldOp w).toNat = 1 ∨ (fieldOp w).toNat = 2 ∨ (fieldOp w).toNat = 3 ∨ (fieldOp w).toNat = 4 ∨
      (fieldOp w).toNat = 5 ∨ (fieldOp w).toNat = 6 := by omega
  rcases hsplit with h1 | h2 | h3 | h4 | h5 | h6
  · obtain ⟨hT, hz⟩ := hN h1
    have hw := word_eq_formatN w
    rw [hop (k := 1#4) h1, fieldT, hT, hz] at hw
    exact ⟨.noteOn (fieldTs w) (fieldVel w) (fieldNote w), hw⟩
  · have hw := word_eq_formatN w
    rw [hop (k := 2#4) h2, hNoff h2] at hw
    exact ⟨.noteOff (fieldTs w) (fieldT w) (fieldVel w) (fieldNote w), hw⟩
  · have hw := word_eq_formatR w
    rw [hop (k := 3#4) h3, hR h3] at hw
    exact ⟨.render (fieldN w), hw⟩
  · exact ⟨.prepare, opcodeMatch_eq_of_formatZ (hop (k := 4#4) h4) (hZ (by omega) (by omega))⟩
  · exact ⟨.resetFilters, opcodeMatch_eq_of_formatZ (hop (k := 5#4) h5) (hZ (by omega) (by omega))⟩
  · exact ⟨.release, opcodeMatch_eq_of_formatZ (hop (k := 6#4) h6) (hZ (by omega) (by omega))⟩

/-- A word that decodes is no reserved word, so it is the encoding of a command, and of the one it decodes to. -/
theorem encode_of_decode {w : Word} {i : Instr} (h : decode w = .ok i) : encode i = w := by
  obtain ⟨j, rfl⟩ := exists_encode_of_not_reserved (not_reserved_of_decode h)
  obtain rfl : j = i := by simpa [decode_encode] using h
  rfl

/-- The converse of `decode_of_fixed`: the word carries its command's row (R104). -/
theorem fixed_of_decode {w : Word} {op : BitVec 4} {i : Instr} (hrow : rowOp i = op) (h : decode w = .ok i) :
    w &&& opcodeMask op = opcodeMatch op := by
  obtain ⟨-, hfixed⟩ := encode_rowMatch i
  rwa [encode_of_decode h, hrow] at hfixed

/-! ## The fields as numbers (R109) -/

theorem toNat_append_add {m n : Nat} (x : BitVec m) (y : BitVec n) :
    (x ++ y).toNat = x.toNat * 2 ^ n + y.toNat := by
  rw [BitVec.toNat_append, ← Nat.shiftLeft_add_eq_or_of_lt y.isLt, Nat.shiftLeft_eq]

theorem toNat_encode_noteOn (ts : BitVec 12) (vel note : BitVec 7) : (encode (.noteOn ts vel note)).toNat =
    0x1 * 2 ^ 28 + ts.toNat * 2 ^ 16 + vel.toNat * 2 ^ 8 + note.toNat := by
  simp only [encode, toNat_append_add, BitVec.toNat_ofNat]
  omega

theorem toNat_encode_noteOff (ts : BitVec 12) (tail : Bool) (vel note : BitVec 7) :
    (encode (.noteOff ts tail vel note)).toNat =
      0x2 * 2 ^ 28 + ts.toNat * 2 ^ 16 + tail.toNat * 2 ^ 15 + vel.toNat * 2 ^ 8 + note.toNat := by
  simp only [encode, toNat_append_add, BitVec.toNat_ofNat, BitVec.toNat_ofBool]
  omega

theorem toNat_encode_render (n : BitVec 16) : (encode (.render n)).toNat = 0x3 * 2 ^ 28 + n.toNat := by
  simp only [encode, toNat_append_add, BitVec.toNat_ofNat]
  omega

theorem Command.instr?_of_wf {c : Command} (h : c.wf = true) : c.instr? = some c.fields := if_pos h

theorem Command.instr?_of_not_wf {c : Command} (h : ¬c.wf = true) : c.instr? = none := if_neg h

theorem Command.wf_noteOn {ts note vel : Nat} :
    (Command.noteOn ts note vel).wf = true ↔ ts ≤ 4095 ∧ note ≤ 127 ∧ vel ≤ 127 := by simp [Command.wf, and_assoc]

theorem Command.wf_noteOff {ts note tail vel : Nat} : (Command.noteOff ts note tail vel).wf = true ↔
    ts ≤ 4095 ∧ note ≤ 127 ∧ tail ≤ 1 ∧ vel ≤ 127 := by simp [Command.wf, and_assoc]

theorem Command.wf_render {n : Nat} : (Command.render n).wf = true ↔ n ≤ 65535 := by simp [Command.wf]

end Sys2Proof

namespace Sys2Proof.Machine

open Laws.RowMatch

/-- Settles O1: the encoding keeps every field, and its fixed bits are its row's. -/
theorem encodedCommandsDecode : Obligations.EncodedCommandsDecode := decode_encode

/-- Settles O2: the fields of a word that decodes are those of its command. -/
theorem decodedWordsAreEncodings : Obligations.DecodedWordsAreEncodings := fun _ _ => encode_of_decode

/-- Settles O3: a row's fixed bits give its opcode, hence its command, and two rows have two opcodes. -/
theorem opcodeMapSelectsCommands : Obligations.OpcodeMapSelectsCommands := by
  refine ⟨fun w => ⟨⟨fun h => ⟨fieldTs w, fieldVel w, fieldNote w, ?_⟩, fun ⟨ts, vel, note, h⟩ => ?_⟩,
    ⟨fun h => ⟨fieldTs w, fieldT w, fieldVel w, fieldNote w, ?_⟩, fun ⟨ts, tail, vel, note, h⟩ => ?_⟩,
    ⟨fun h => ⟨fieldN w, ?_⟩, fun ⟨n, h⟩ => ?_⟩, ⟨fun h => ?_, fixed_of_decode rfl⟩,
    ⟨fun h => ?_, fixed_of_decode rfl⟩, ⟨fun h => ?_, fixed_of_decode rfl⟩⟩, ?_⟩
  · exact decode_of_fixed (op := 1#4) h fun hop => by simp [opcodeInstr, hop]
  · exact fixed_of_decode (op := 1#4) rfl h
  · exact decode_of_fixed (op := 2#4) h fun hop => by simp [opcodeInstr, hop]
  · exact fixed_of_decode (op := 2#4) rfl h
  · exact decode_of_fixed (op := 3#4) h fun hop => by simp [opcodeInstr, hop]
  · exact fixed_of_decode (op := 3#4) rfl h
  · exact decode_of_fixed (op := 4#4) h fun hop => by simp [opcodeInstr, hop]
  · exact decode_of_fixed (op := 5#4) h fun hop => by simp [opcodeInstr, hop]
  · exact decode_of_fixed (op := 6#4) h fun hop => by simp [opcodeInstr, hop]
  · have hdistinct : [1#4, 2#4, 3#4, 4#4, 5#4, 6#4].Pairwise (· ≠ ·) := by decide
    refine List.Pairwise.map (fun op => (opcodeMatch op, opcodeMask op)) ?_ hdistinct
    rintro op op' hne w ⟨h, h'⟩
    exact hne ((fieldOp_of_fixed h).symm.trans (fieldOp_of_fixed h'))

/-- Settles O4: a reserved word does not decode, and any other is the encoding of a command. -/
theorem reservedWordsRaiseBadCmd : Obligations.ReservedWordsRaiseBadCmd := by
  refine fun w s => ⟨fun (hres : Reserved w) => ?_, fun (hres : ¬Reserved w) => ?_⟩
  · cases hd : decode w with
    | ok i => exact absurd hres (not_reserved_of_decode hd)
    | error r =>
      rw [perform_write_cmd, runCommand, hd]
      rfl
  · obtain ⟨i, rfl⟩ := exists_encode_of_not_reserved hres
    exact ⟨i, decode_encode i⟩

/-- Settles O5: each of the twelve words is decoded. -/
theorem workedEncodingsDecode : Obligations.WorkedEncodingsDecode := by
  unfold Obligations.WorkedEncodingsDecode
  decide

/-- Settles O6: an operand that fits is the number its field holds; one that does not makes the statement ill-formed. -/
theorem assemblerPlacesOperands : Obligations.AssemblerPlacesOperands := by
  refine ⟨fun ts note vel hts hnote hvel => ⟨_, Command.instr?_of_wf (Command.wf_noteOn.2 ⟨hts, hnote, hvel⟩), ?_⟩,
    fun ts note tail vel hts hnote htail hvel =>
      ⟨_, Command.instr?_of_wf (Command.wf_noteOff.2 ⟨hts, hnote, htail, hvel⟩), ?_⟩,
    fun n hn => ⟨_, Command.instr?_of_wf (Command.wf_render.2 hn), ?_⟩,
    fun ts note tail vel n => ⟨fun h => ?_, fun h => ?_, fun h => ?_⟩⟩
  · rw [Command.fields, toNat_encode_noteOn, BitVec.toNat_ofNat, BitVec.toNat_ofNat, BitVec.toNat_ofNat]
    omega
  · have htoNat : (tail == 1).toNat = tail := by interval_cases tail <;> rfl
    rw [Command.fields, toNat_encode_noteOff, BitVec.toNat_ofNat, BitVec.toNat_ofNat, BitVec.toNat_ofNat, htoNat]
    omega
  · rw [Command.fields, toNat_encode_render, BitVec.toNat_ofNat]
    omega
  · exact Command.instr?_of_not_wf fun hwf => by rw [Command.wf_noteOn] at hwf; omega
  · exact Command.instr?_of_not_wf fun hwf => by rw [Command.wf_noteOff] at hwf; omega
  · exact Command.instr?_of_not_wf fun hwf => by rw [Command.wf_render] at hwf; omega

end Sys2Proof.Machine
end

section
/-! The envelope generator (spec/41_envelope.md): what each operation does, case by case, and with it the stage transitions
(O35), the per-sample steps (O36), a configure (O39), and that a segment ends within its length (O37, O38). -/

namespace Sys2Proof.Machine

/-! ## A note-off (R134) and the stages (R130) -/

theorem Envelope.noteOff_of_idle {e : Envelope} (h : e.stage = .idle) (fs : F32) : e.noteOff fs = e := if_pos h

theorem Envelope.noteOff_of_active {e : Envelope} (h : e.stage ≠ .idle) (fs : F32) :
    e.noteOff fs = Envelope.startSeg fs e.r { e with stage := .release } := if_neg h

/-- Settles O35: by the stages an advance can lead to, and the stage each other operation sets or keeps. -/
theorem envelopeStageTransitions : Obligations.EnvelopeStageTransitions := by
  refine fun fs a d s r e => ⟨rfl, rfl, fun h => congrArg Envelope.stage (Envelope.noteOff_of_active h fs),
    fun h => Envelope.noteOff_of_idle h fs, (Envelope.configure_spec fs a d s r e).1, ?_⟩
  rcases e.advance_stage fs with hkeep | hattack | hdecay | ⟨hrelease, hidle, -⟩
  · exact .inl hkeep
  · exact .inr (.inl hattack)
  · exact .inr (.inr (.inl hdecay))
  · exact .inr (.inr (.inr ⟨hrelease, hidle⟩))

/-! ## One sample in each stage (R137, R139 to R143) -/

/-- The level that the next sample of the running segment has on its way to `t` (R138). -/
def Envelope.nextSeg (e : Envelope) (t : F32) : F32 := Envelope.seg { e with k := e.k + 1 } t

section Sample

variable (fs : F32) {e : Envelope}

theorem Envelope.nextSample_idle (h : e.stage = .idle) : e.nextSample fs = (e, F32.zero) := by
  simp [Envelope.nextSample, Envelope.advance, h]

theorem Envelope.nextSample_active (h : e.stage ≠ .idle) : e.nextSample fs = (e.advance fs, (e.advance fs).level) := by
  simp [Envelope.nextSample, h]

theorem Envelope.nextSample_attack (h : e.stage = .attack) :
    e.nextSample fs =
      if e.n ≤ e.k + 1 ∨ F32.le F32.one (e.nextSeg F32.one) = true then
        ({ e with stage := .decay, level := F32.one, level0 := F32.one, k := 0, n := nsamp fs e.d }, F32.one)
      else ({ e with k := e.k + 1, level := e.nextSeg F32.one }, e.nextSeg F32.one) := by
  rw [Envelope.nextSample_active fs (by simp [h])]
  simp only [Envelope.advance, h, Envelope.attackStep, Envelope.nextSeg]
  split <;> rfl

theorem Envelope.nextSample_decay (h : e.stage = .decay) :
    e.nextSample fs =
      if e.n ≤ e.k + 1 ∨ F32.le (e.nextSeg e.s) e.s = true then
        ({ e with stage := .sustain, level := e.s, k := e.k + 1 }, e.s)
      else ({ e with k := e.k + 1, level := e.nextSeg e.s }, e.nextSeg e.s) := by
  rw [Envelope.nextSample_active fs (by simp [h])]
  simp only [Envelope.advance, h, Envelope.decayStep, Envelope.nextSeg]
  split <;> rfl

theorem Envelope.nextSample_sustain (h : e.stage = .sustain) : e.nextSample fs = ({ e with level := e.s }, e.s) := by
  rw [Envelope.nextSample_active fs (by simp [h])]
  simp [Envelope.advance, h]

theorem Envelope.nextSample_release (h : e.stage = .release) :
    e.nextSample fs =
      if e.n ≤ e.k + 1 ∨ F32.le (e.nextSeg F32.zero) F32.zero = true then
        ({ e with stage := .idle, level := F32.zero, k := e.k + 1 }, F32.zero)
      else ({ e with k := e.k + 1, level := e.nextSeg F32.zero }, e.nextSeg F32.zero) := by
  rw [Envelope.nextSample_active fs (by simp [h])]
  simp only [Envelope.advance, h, Envelope.releaseStep, Envelope.nextSeg]
  split <;> rfl

end Sample

/-- Settles O36: a sample in each stage, whose segment ends or goes on. -/
theorem envelopeSampleSteps : Obligations.EnvelopeSampleSteps := fun fs _ =>
  ⟨Envelope.nextSample_idle fs,
    fun h => ⟨fun hend => (Envelope.nextSample_attack fs h).trans (if_pos hend),
      fun hon => (Envelope.nextSample_attack fs h).trans (if_neg hon)⟩,
    fun h => ⟨fun hend => (Envelope.nextSample_decay fs h).trans (if_pos hend),
      fun hon => (Envelope.nextSample_decay fs h).trans (if_neg hon)⟩,
    Envelope.nextSample_sustain fs,
    fun h => ⟨fun hend => (Envelope.nextSample_release fs h).trans (if_pos hend),
      fun hon => (Envelope.nextSample_release fs h).trans (if_neg hon)⟩⟩

/-! ## A segment ends within its length (R145 items 2 and 4) -/

/-- A sample in stage `st` ends its segment in stage `next`, at exactly `x`, or takes one sample of a segment that has more
than this one left. -/
def Envelope.SegmentStep (fs : F32) (st next : Stage) (x : F32) : Prop :=
  ∀ e : Envelope, e.stage = st →
    ((e.nextSample fs).1.stage = next ∧ (e.nextSample fs).2 = x) ∨
      (e.k + 1 < e.n ∧ (e.nextSample fs).1.stage = st ∧ (e.nextSample fs).1.k = e.k + 1 ∧ (e.nextSample fs).1.n = e.n)

theorem Envelope.attack_segmentStep (fs : F32) : Envelope.SegmentStep fs .attack .decay F32.one := by
  intro e h
  rw [Envelope.nextSample_attack fs h]
  split
  case isTrue => exact .inl ⟨rfl, rfl⟩
  case isFalse hon => exact .inr ⟨Nat.lt_of_not_le fun hend => hon (.inl hend), h, rfl, rfl⟩

theorem Envelope.release_segmentStep (fs : F32) : Envelope.SegmentStep fs .release .idle F32.zero := by
  intro e h
  rw [Envelope.nextSample_release fs h]
  split
  case isTrue => exact .inl ⟨rfl, rfl⟩
  case isFalse hon => exact .inr ⟨Nat.lt_of_not_le fun hend => hon (.inl hend), h, rfl, rfl⟩

/-- Sample `j` returns `x` and leaves the envelope in stage `next`; until then its stage is `st`. -/
def Envelope.EndsAt (fs : F32) (st next : Stage) (x : F32) (e : Envelope) (j : Nat) : Prop :=
  (Envelope.samples fs j e).2[j - 1]? = some x ∧ (Envelope.samples fs j e).1.stage = next ∧
    ∀ m, m < j → (Envelope.samples fs m e).1.stage = st

section Segment

variable {fs : F32} {st next : Stage} {x : F32} {e : Envelope}

theorem Envelope.endsAt_one (hst : e.stage = st) (h : (e.nextSample fs).1.stage = next)
    (hx : (e.nextSample fs).2 = x) : Envelope.EndsAt fs st next x e 1 := by
  refine ⟨congrArg some hx, h, fun m hm => ?_⟩
  obtain rfl : m = 0 := by omega
  exact hst

/-- A segment that ends `j` samples after the next one ends at sample `j + 1`. -/
theorem Envelope.endsAt_succ {j : Nat} (hj : 1 ≤ j) (hst : e.stage = st)
    (h : Envelope.EndsAt fs st next x (e.nextSample fs).1 j) : Envelope.EndsAt fs st next x e (j + 1) := by
  obtain ⟨hx, hnext, hbefore⟩ := h
  obtain ⟨i, rfl⟩ := Nat.exists_eq_succ_of_ne_zero (Nat.one_le_iff_ne_zero.1 hj)
  refine ⟨hx, hnext, fun m hm => ?_⟩
  cases m with
  | zero => exact hst
  | succ m => exact hbefore m (by omega)

/-- A segment with at most `len + 1` samples left ends within them. -/
theorem Envelope.SegmentStep.ends_within (h : Envelope.SegmentStep fs st next x) (hst : e.stage = st) {len : Nat}
    (hlen : e.n ≤ e.k + (len + 1)) : ∃ j, 1 ≤ j ∧ j ≤ len + 1 ∧ Envelope.EndsAt fs st next x e j := by
  induction len generalizing e with
  | zero =>
    obtain ⟨hnext, hx⟩ | ⟨hleft, -⟩ := h e hst
    · exact ⟨1, le_rfl, le_rfl, Envelope.endsAt_one hst hnext hx⟩
    · omega
  | succ len ih =>
    obtain ⟨hnext, hx⟩ | ⟨-, hstage, hk, hn⟩ := h e hst
    · exact ⟨1, le_rfl, by omega, Envelope.endsAt_one hst hnext hx⟩
    · obtain ⟨j, hj, hjlen, hends⟩ := ih hstage (by omega)
      exact ⟨j + 1, by omega, by omega, Envelope.endsAt_succ hj hst hends⟩

/-- A segment of `t` seconds ends within `nsamp(t)` samples of its start (R133). -/
theorem Envelope.SegmentStep.startSeg_ends (h : Envelope.SegmentStep fs st next x) (hst : e.stage = st) (t : F32) :
    ∃ j, 1 ≤ j ∧ j ≤ nsamp fs t ∧ Envelope.EndsAt fs st next x (e.startSeg fs t) j := by
  have hpos := nsamp_pos fs t
  have hlen : (e.startSeg fs t).n ≤ (e.startSeg fs t).k + (nsamp fs t - 1 + 1) := by
    simp only [Envelope.startSeg_eq]
    omega
  obtain ⟨j, hj, hjlen, hends⟩ := h.ends_within (e := e.startSeg fs t) hst hlen
  exact ⟨j, hj, by omega, hends⟩

end Segment

/-- Settles O37: a note-on starts a segment of `A` seconds in attack. -/
theorem attackReachesPeak : Obligations.AttackReachesPeak := fun fs e =>
  (Envelope.attack_segmentStep fs).startSeg_ends (e := { e with stage := .attack }) rfl e.a

theorem Envelope.isActive_eq_false {e : Envelope} (h : e.stage = .idle) : e.isActive = false := by
  simp [Envelope.isActive, h]

theorem Envelope.isActive_of_release {e : Envelope} (h : e.stage = .release) : e.isActive = true := by
  simp [Envelope.isActive, h]

/-- Settles O38: a note-off of an active envelope starts a segment of `R` seconds in release. -/
theorem releaseReachesIdle : Obligations.ReleaseReachesIdle := by
  intro fs e hactive
  rw [Envelope.noteOff_of_active hactive]
  obtain ⟨j, hj, hjn, hx, hidle, hbefore⟩ :=
    (Envelope.release_segmentStep fs).startSeg_ends (e := { e with stage := .release }) rfl e.r
  exact ⟨j, hj, hjn, hx, Envelope.isActive_eq_false hidle, fun m hm => Envelope.isActive_of_release (hbefore m hm)⟩

/-! ## A configure (R131) and the length of a segment (R133) -/

section Configure

variable {a d s r : F32} {e : Envelope}

theorem Envelope.configure_of_restart {t : F32} (h : e.restart? a d s r = some t) (fs : F32) :
    e.configure fs a d s r =
      { e with a := a, d := d, s := s, r := r, level0 := e.level, k := 0, n := nsamp fs t } := by
  simp only [Envelope.configure, h, Envelope.startSeg_eq]

theorem Envelope.configure_of_no_restart (h : e.restart? a d s r = none) (fs : F32) :
    e.configure fs a d s r = { e with a := a, d := d, s := s, r := r } := by
  simp only [Envelope.configure, h]

theorem Envelope.restart?_attack (h : e.stage = .attack) (ha : F32.eq a e.a = false) : e.restart? a d s r = some a := by
  simp [Envelope.restart?, h, ha]

theorem Envelope.restart?_decay (h : e.stage = .decay) (hds : F32.eq d e.d = false ∨ F32.eq s e.s = false) :
    e.restart? a d s r = some d := by
  rcases hds with hd | hs
  · simp [Envelope.restart?, h, hd]
  · simp [Envelope.restart?, h, hs]

theorem Envelope.restart?_release (h : e.stage = .release) (hr : F32.eq r e.r = false) :
    e.restart? a d s r = some r := by
  simp [Envelope.restart?, h, hr]

/-- No segment restarts while the parameters of the current stage keep their values. -/
theorem Envelope.restart?_eq_none (ha : e.stage = .attack → F32.eq a e.a = true)
    (hds : e.stage = .decay → F32.eq d e.d = true ∧ F32.eq s e.s = true)
    (hr : e.stage = .release → F32.eq r e.r = true) : e.restart? a d s r = none := by
  cases h : e.stage with
  | idle | sustain => simp [Envelope.restart?, h]
  | attack => simp [Envelope.restart?, h, ha h]
  | decay => simp [Envelope.restart?, h, hds h]
  | release => simp [Envelope.restart?, h, hr h]

end Configure

theorem nsamp_eq_max (fs t : F32) : (nsamp fs t : Int) = max 1 (F32.rint (F32.mul t fs)) := by
  unfold nsamp
  omega

/-- Settles O39: by the segment each stage restarts, if any. -/
theorem configureRestartsOwnSegment : Obligations.ConfigureRestartsOwnSegment := fun fs a _ _ _ _ =>
  ⟨fun h ha => Envelope.configure_of_restart (Envelope.restart?_attack h ha) fs,
    fun h hds => Envelope.configure_of_restart (Envelope.restart?_decay h hds) fs,
    fun h hr => Envelope.configure_of_restart (Envelope.restart?_release h hr) fs,
    fun ha hds hr => Envelope.configure_of_no_restart (Envelope.restart?_eq_none ha hds hr) fs,
    nsamp_eq_max fs a, by decide +kernel, by decide +kernel⟩

end Sys2Proof.Machine
end

section
/-! The oscillator (spec/42_oscillator.md): the note frequencies (O40), the phase wrap (O41), a block in closed form
(O42), the main frequency (O43), and the waveform functions with their range (O60). -/

namespace Sys2Proof.Machine

/-! ## The binary32 order and exact results (spec/00_scope.md R12) -/

theorem F32.not_isNaN_of_lt {x y : F32} (h : F32.lt x y = true) : F32.isNaN y = false := by
  simp only [F32.lt, Bool.and_eq_true, Bool.not_eq_true'] at h
  exact h.1.2

theorem F32.le_eq_false_of_lt {x y : F32} (h : F32.lt x y = true) : F32.le y x = false := by
  simp only [F32.lt, Bool.and_eq_true, decide_eq_true_eq] at h
  simp [F32.le, h.2]

theorem F32.lt_eq_false_of_le {x y : F32} (h : F32.le x y = true) : F32.lt y x = false :=
  Bool.eq_false_iff.2 fun hlt => by rw [F32.le_eq_false_of_lt hlt] at h; cases h

theorem F32.lt_of_not_le {x y : F32} (hx : F32.isNaN x = false) (hy : F32.isNaN y = false) (h : ¬F32.le x y = true) :
    F32.lt y x = true := by
  simpa [F32.lt, F32.le, hx, hy] using h

theorem F32.lt_of_lt_of_le {x y z : F32} (h : F32.lt x y = true) (h' : F32.le y z = true) : F32.lt x z = true := by
  simp only [F32.lt, F32.le, Bool.and_eq_true, decide_eq_true_eq] at h h' ⊢
  exact ⟨⟨h.1.1, h'.1.2⟩, h.2.trans_le h'.2⟩

/-- No value lies between two neighbours: what is above one is at least the next. -/
theorem F32.le_of_lt_of_key_succ {x y t : F32} (hy : F32.isNaN y = false) (hkey : F32.key y = F32.key x + 1)
    (h : F32.lt x t = true) : F32.le y t = true := by
  simp only [F32.lt, F32.le, hy, hkey, Bool.and_eq_true, decide_eq_true_eq] at h ⊢
  exact ⟨⟨rfl, h.1.2⟩, h.2⟩

/-- An operation whose exact result is a finite value other than zero gives that value. -/
theorem F32.ofMag_roundMag_eq {z : Int} {den : Nat} {s : Bool} {b : F32} (hd : 0 < den) (hs : s = true → z ≤ 0)
    (hs' : s = false → 0 ≤ z) (hb : F32.isFinite b = true) (h0 : F32.mag b ≠ 0) (h : z = F32.toInt b * den) :
    F32.ofMag s (F32.roundMag z.natAbs den) = b := by
  have hpos : 0 < F32.unitsOf (F32.mag b) := Nat.pos_of_ne_zero (mt F32.unitsOf_eq_zero.1 h0)
  have hmag : F32.roundMag z.natAbs den = F32.mag b := by
    rw [h, Int.natAbs_mul, Int.natAbs_natCast, F32.natAbs_toInt]
    exact F32.roundMag_unitsOf hd ((F32.isFinite_iff b).1 hb).le
  have hsign : s = F32.neg? b := by
    cases hn : F32.neg? b with
    | false =>
      rw [F32.toInt_of_pos hn] at h
      have hz : 0 < z := by rw [h]; positivity
      exact Bool.eq_false_iff.2 fun hs1 => absurd (hs hs1) (by omega)
    | true =>
      rw [F32.toInt_of_neg hn, Int.neg_mul] at h
      have hz : 0 < -z := by rw [h, neg_neg]; positivity
      exact (Bool.eq_false_or_eq_true s).resolve_right fun hs0 => absurd (hs' hs0) (by omega)
  rw [hmag, hsign, F32.ofMag_neg?_mag]

theorem F32.toInt_eq_zero_of_mag {x : F32} (h : F32.mag x = 0) : F32.toInt x = 0 := by
  simp [F32.toInt, h]

/-- Adding +0.0 or -0.0 changes no value other than a zero (R12). -/
theorem F32.add_of_mag_zero {x y : F32} (hx : F32.isFinite x = true) (h0 : F32.mag x ≠ 0) (hy : F32.mag y = 0) :
    F32.add x y = x := by
  have hyfin : F32.isFinite y = true := (F32.isFinite_iff y).2 (hy ▸ by decide)
  obtain ⟨s, hadd, hs, hs'⟩ := F32.add_eq_round hx hyfin
  rw [hadd]
  exact F32.ofMag_roundMag_eq one_pos hs hs' hx h0 (by simp [F32.toInt_eq_zero_of_mag hy])

/-- A finite value times +0.0 or -0.0 is a zero. -/
theorem F32.mag_mul_of_mag_zero {x y : F32} (hx : F32.isFinite x = true) (hy : F32.mag y = 0) :
    F32.mag (F32.mul x y) = 0 := by
  have hyfin : F32.isFinite y = true := (F32.isFinite_iff y).2 (hy ▸ by decide)
  obtain ⟨s, hmul, -, -⟩ := F32.mul_eq_round hx hyfin
  rw [hmul, F32.mag_ofMag _ (F32.roundMag_lt ..)]
  exact Nat.le_zero.1 (F32.roundMag_le (by positivity) (by simp [F32.toInt_eq_zero_of_mag hy]))

/-- The absolute value of a value without a sign bit is the value. -/
theorem F32.abs_of_pos {x : F32} (h : F32.neg? x = false) : F32.abs x = x :=
  F32.ext_mag (by rw [F32.neg?_abs, h]) (F32.mag_abs x)

/-- An absolute value of at most 1.0 puts the value in [-1, 1]. -/
theorem F32.between_of_abs_le_one {y : F32} (h : F32.le (F32.abs y) F32.one = true) :
    F32.Between F32.negOne F32.one y := by
  obtain ⟨hone, hnegOne, hkey⟩ : F32.isNaN F32.one = false ∧ F32.isNaN F32.negOne = false ∧
      F32.key F32.negOne = -F32.key F32.one := by decide +kernel
  have hnan : F32.isNaN (F32.abs y) = F32.isNaN y := by simp [F32.isNaN]
  have hy : F32.isNaN y = false := by
    cases hy : F32.isNaN y with
    | false => rfl
    | true => simp [F32.le, hnan, hy] at h
  have hmag : (F32.mag y : Int) ≤ F32.key F32.one := by
    rw [F32.le_iff_key (hnan.trans hy) hone] at h
    simpa [F32.key] using h
  have hsigned : F32.key y = -(F32.mag y : Int) ∨ F32.key y = F32.mag y := ite_eq_or_eq ..
  rw [F32.Between, F32.le_iff_key hnegOne hy, F32.le_iff_key hy hone, hkey]
  omega

/-! ## The note frequencies (R162) -/

/-- Doubling a normal value adds one to its exponent. -/
theorem F32.two_mul_ofMag {m : Nat} (hlo : 2 ^ 23 ≤ m) (hhi : m + 2 ^ 23 < F32.infMag) :
    F32.mul 0x40000000#32 (F32.ofMag false m) = F32.ofMag false (m + 2 ^ 23) := by
  have htwo : F32.isFinite 0x40000000#32 = true ∧ F32.toInt 0x40000000#32 = 2 * 2 ^ 149 := by decide +kernel
  have hinf : F32.infMag < 2 ^ 31 := by decide
  have hm := F32.mag_ofMag false (m := m) (by omega)
  have hm' := F32.mag_ofMag false (m := m + 2 ^ 23) (by omega)
  have hunits : F32.unitsOf (m + 2 ^ 23) = 2 * F32.unitsOf m := by
    obtain ⟨k, n, rfl, hk, hn⟩ := F32.exists_code m
    rw [F32.unitsOf_code hk hn.le, show k * 2 ^ 23 + n + 2 ^ 23 = (k + 1) * 2 ^ 23 + n by ring,
      F32.unitsOf_code (by omega) hn.le, pow_succ]
    ring
  obtain ⟨s, hmul, hs, hs'⟩ := F32.mul_eq_round htwo.1 (y := F32.ofMag false m)
    ((F32.isFinite_iff _).2 (by rw [hm]; omega))
  rw [hmul]
  refine F32.ofMag_roundMag_eq (by positivity) hs hs' ((F32.isFinite_iff _).2 (by rwa [hm'])) (by omega) ?_
  rw [htwo.2, F32.toInt_of_pos (F32.neg?_ofMag _ (by omega)), F32.toInt_of_pos (F32.neg?_ofMag _ (by omega)), hm, hm',
    hunits]
  push_cast
  ring

/-- The magnitude bits of `noteHz n`: those of the lowest octave, one added to the exponent for each octave. -/
def noteHzMag (n : Nat) : Nat := noteHzBase (n % 12) + 2 ^ 23 * (n / 12)

theorem noteHz_eq_ofMag (n : BitVec 7) : noteHz n = F32.ofMag false (noteHzMag n.toNat) := by
  unfold F32.ofMag
  rfl

/-- The lowest octave is made of normal values below 16 Hz. -/
theorem noteHzBase_bounds (r : Nat) : 2 ^ 23 ≤ noteHzBase r ∧ noteHzBase r < 0x41800000 := by
  unfold noteHzBase
  split <;> decide

theorem noteHzMag_bounds {n : Nat} (h : n < 128) : 2 ^ 23 ≤ noteHzMag n ∧ noteHzMag n < F32.infMag := by
  have hbase := noteHzBase_bounds (n % 12)
  unfold noteHzMag F32.infMag
  omega

theorem noteHzMag_octave (n : Nat) : noteHzMag (n + 12) = noteHzMag n + 2 ^ 23 := by
  unfold noteHzMag
  rw [Nat.add_mod_right, Nat.add_div_right n (by decide)]
  ring

theorem noteHz_fields (n : BitVec 7) :
    F32.isFinite (noteHz n) = true ∧ F32.mag (noteHz n) ≠ 0 ∧ F32.neg? (noteHz n) = false := by
  obtain ⟨hlo, hhi⟩ := noteHzMag_bounds n.isLt
  have hlt : noteHzMag n.toNat < 2 ^ 31 := hhi.trans (by decide)
  rw [noteHz_eq_ofMag, F32.isFinite_iff, F32.mag_ofMag _ hlt]
  exact ⟨hhi, by omega, F32.neg?_ofMag _ hlt⟩

/-- Settles O40: the table's own values, and one more in the exponent for each octave. -/
theorem noteFrequencies : Obligations.NoteFrequencies := by
  refine ⟨by decide, by decide, fun n hn => ?_⟩
  have hnote : ∀ k, k < 128 → noteHz (BitVec.ofNat 7 k) = F32.ofMag false (noteHzMag k) := fun k hk => by
    rw [noteHz_eq_ofMag, BitVec.toNat_ofNat, Nat.mod_eq_of_lt hk]
  have hhi := (noteHzMag_bounds hn).2
  rw [noteHzMag_octave] at hhi
  rw [hnote _ hn, hnote n (by omega), noteHzMag_octave, F32.two_mul_ofMag (noteHzMag_bounds (by omega)).1 hhi]

/-! ## The phase wrap (R163) -/

/-- The values next above PI and next above -PI. -/
theorem F32.pi_next : F32.isFinite 0x40490FDC#32 = true ∧ F32.key 0x40490FDC#32 = F32.key F32.pi + 1 ∧
    F32.isFinite 0xC0490FDA#32 = true ∧ F32.key 0xC0490FDA#32 = F32.key F32.negPi + 1 := by
  decide +kernel

/-- One turn back from (PI, TWO_PI] lands in (-PI, PI]: at least the value next above -PI, and at most +0.0. -/
theorem sub_twoPi_mem {t : F32} (h1 : F32.lt F32.pi t = true) (h2 : F32.le t F32.twoPi = true) :
    F32.lt F32.negPi (F32.sub t F32.twoPi) = true ∧ F32.le (F32.sub t F32.twoPi) F32.pi = true := by
  obtain ⟨hfin, hkey, hfin', -⟩ := F32.pi_next
  have htwo : F32.isFinite F32.twoPi = true ∧
      F32.toInt 0xC0490FDA#32 = F32.toInt 0x40490FDC#32 - F32.toInt F32.twoPi := by decide +kernel
  obtain ⟨htwo, hdiff⟩ := htwo
  have hnext : F32.le 0x40490FDC#32 t = true :=
    F32.le_of_lt_of_key_succ (F32.not_isNaN_of_isFinite hfin) hkey h1
  obtain ⟨ht, hlo, hhi⟩ := F32.Between.units hfin htwo ⟨hnext, h2⟩
  have hge : F32.le 0xC0490FDA#32 (F32.sub t F32.twoPi) = true := F32.le_sub ht htwo hfin' (by omega)
  have hle : F32.le (F32.sub t F32.twoPi) F32.zero = true :=
    F32.sub_le ht htwo F32.zero_units.1 (by rw [F32.zero_units.2]; omega)
  exact ⟨F32.lt_of_lt_of_le (by decide +kernel) hge, F32.le_trans hle (by decide +kernel)⟩

/-- The wrap of a phase in (-PI, TWO_PI]: no turn up to PI, one above it. -/
theorem wrap_eq_ite {t : F32} (h1 : F32.lt F32.negPi t = true) (h2 : F32.le t F32.twoPi = true) :
    wrap t = if F32.le t F32.pi then t else F32.sub t F32.twoPi := by
  split
  case isTrue hle => exact wrap_of_mem (F32.lt_eq_false_of_le hle) (F32.le_eq_false_of_lt h1)
  case isFalse hgt =>
    have hlt : F32.lt F32.pi t = true := F32.lt_of_not_le (F32.not_isNaN_of_lt h1) (by decide +kernel) hgt
    obtain ⟨hlo, hhi⟩ := sub_twoPi_mem hlt h2
    exact wrap_of_turn hlt (F32.lt_eq_false_of_le hhi) (F32.le_eq_false_of_lt hlo)

/-- Settles O41: PI + 2.1275 is at most TWO_PI, so one turn back is enough. -/
theorem wrapStaysInDomain : Obligations.WrapStaysInDomain := by
  intro t hlo hhi
  have htwo : F32.le t F32.twoPi = true := F32.le_trans hhi (by decide +kernel)
  obtain ⟨hgt, hle⟩ := wrap_between hlo htwo
  exact ⟨hgt, hle, wrap_eq_ite hlo htwo⟩

/-! ## A block (R164, R168, R169) -/

/-- One advance of a phase by an increment (R168). -/
def advancePhase (inc x : F32) : F32 := wrap (F32.add x inc)

/-- The samples of a block: the waveform at each phase of the primary accumulator. -/
theorem Oscillator.frames_samples (sin : F32 → F32) (incM incFm : F32) (n : Nat) (o : Oscillator) :
    (o.frames sin incM incFm n).2 = (List.range n).map fun i => wave sin o.kind ((advancePhase incM)^[i] o.phi) := by
  induction n generalizing o with
  | zero => rfl
  | succ n ih =>
    rw [List.range_succ_eq_map, List.map_cons, List.map_map]
    exact congrArg (wave sin o.kind o.phi :: ·) (ih _)

/-- The oscillator after a block: both phases advanced once for each frame, the FM offset of the last frame. -/
theorem Oscillator.frames_state (sin : F32 → F32) (incM incFm : F32) (n : Nat) (o : Oscillator) :
    (o.frames sin incM incFm n).1 = { o with
      phi := (advancePhase incM)^[n] o.phi
      phiFm := (advancePhase incFm)^[n] o.phiFm
      fmOffset := if n = 0 then o.fmOffset else F32.mul (sin ((advancePhase incFm)^[n - 1] o.phiFm)) o.fmDepth } := by
  induction n generalizing o with
  | zero => rfl
  | succ n ih =>
    refine (ih _).trans ?_
    cases n with
    | zero => rfl
    | succ n => rfl

/-- Settles O42: the closed form of the frames, at the block's own increments. -/
theorem oscillatorBlock : Obligations.OscillatorBlock := fun sin fs n o =>
  ⟨Oscillator.frames_samples sin (phaseInc fs o.f) (phaseInc fs o.fmFreq) n o,
    Oscillator.frames_state sin (phaseInc fs o.f) (phaseInc fs o.fmFreq) n o⟩

/-! ## The main frequency (R165, R166, R170, R171) -/

theorem msb_abs (x : F32) : (F32.abs x).msb = false := by
  have h := F32.neg?_abs x
  unfold F32.neg? at h
  exact h

/-- With no offset the main frequency is the note's own (R170). -/
theorem mainFreq_of_mag_zero {note : BitVec 7} {off : F32} (h : F32.mag off = 0) : mainFreq note off = noteHz note := by
  obtain ⟨hfin, h0, hpos⟩ := noteHz_fields note
  rw [mainFreq, F32.add_of_mag_zero hfin h0 h, F32.abs_of_pos hpos]

theorem SinBounded.between {sin : F32 → F32} (h : SinBounded sin) (x : F32) :
    F32.Between F32.negOne F32.one (sin x) := F32.between_of_abs_le_one (h x)

/-- Settles O43: the fold by its definition, and the offset of the last frame of a block without depth. -/
theorem mainFrequencyFolds : Obligations.MainFrequencyFolds := by
  refine ⟨fun o note freq depth => ⟨rfl, rfl, msb_abs _, mainFreq_of_mag_zero⟩,
    fun sin fs n o hsin hdepth hn => ?_⟩
  have hmag : F32.mag o.fmDepth = 0 := by rw [hdepth]; decide +kernel
  rw [(oscillatorBlock sin fs n o).2]
  dsimp only
  rw [if_neg (by omega)]
  exact F32.mag_mul_of_mag_zero ((hsin.between _).units F32.negOne_units.1 F32.one_units.1).1 hmag

/-! ## The waveforms (R161) -/

/-- The saw of a phase in (-PI, PI] lies in (-1, 1]: at the value next above -PI it is the value next above -1.0. -/
theorem saw_bounds {x : F32} (h1 : F32.lt F32.negPi x = true) (h2 : F32.le x F32.pi = true) :
    F32.le 0xBF7FFFFF#32 (F32.div x F32.pi) = true ∧ F32.le (F32.div x F32.pi) F32.one = true := by
  obtain ⟨-, -, hfin, hkey⟩ := F32.pi_next
  have hpi : F32.isFinite F32.pi = true ∧ 0 < F32.toInt F32.pi := by decide +kernel
  have hlow : F32.isFinite 0xBF7FFFFF#32 = true ∧
      F32.toInt 0xBF7FFFFF#32 * F32.toInt F32.pi ≤ F32.toInt 0xC0490FDA#32 * 2 ^ 149 := by decide +kernel
  have hnext : F32.le 0xC0490FDA#32 x = true := F32.le_of_lt_of_key_succ (F32.not_isNaN_of_isFinite hfin) hkey h1
  obtain ⟨hx, hlo, hhi⟩ := F32.Between.units hfin hpi.1 ⟨hnext, h2⟩
  constructor
  · exact F32.le_div hx hpi.1 hlow.1 hpi.2 (hlow.2.trans (by omega))
  · refine F32.div_le hx hpi.1 F32.one_units.1 hpi.2 ?_
    rw [F32.one_units.2]
    omega

theorem wave_saw (sin : F32 → F32) (x : F32) : wave sin .saw x = F32.div x F32.pi := rfl

theorem wave_square (sin : F32 → F32) (x : F32) :
    wave sin .square x = if F32.lt x F32.zero then F32.negOne else F32.one := rfl

theorem wave_square_between (sin : F32 → F32) (x : F32) :
    F32.Between F32.negOne F32.one (wave sin .square x) := by
  have hends : F32.Between F32.negOne F32.one F32.negOne ∧ F32.Between F32.negOne F32.one F32.one := by
    constructor <;> constructor <;> decide +kernel
  rw [wave_square]
  split
  · exact hends.1
  · exact hends.2

/-- Settles O60: the functions by their definition, the corner cases computed, then the range of each waveform. -/
theorem waveformFunctions : Obligations.WaveformFunctions := by
  refine ⟨fun _ _ => ⟨rfl, rfl, rfl⟩, fun sin => ?corners, fun sin kind x hsin hlo hhi => ?range⟩
  case corners =>
    rw [wave_square, wave_square, wave_saw, wave_saw]
    decide +kernel
  case range =>
    cases kind with
    | sine => exact ⟨hsin.between x, nofun⟩
    | saw =>
      obtain ⟨hge, hle⟩ := saw_bounds hlo hhi
      exact ⟨⟨F32.le_trans (by decide +kernel) hge, hle⟩, fun _ => F32.lt_of_lt_of_le (by decide +kernel) hge⟩
    | square => exact ⟨wave_square_between sin x, nofun⟩

end Sys2Proof.Machine
end

section
/-! The filter (spec/43_filter.md): its arithmetic (O44), the range of the effective cutoff (O45), and the filter at rest
with no input (O46). -/

namespace Sys2Proof.Machine

/-! ## Zeros and exact products (spec/00_scope.md R12) -/

/-- The two zeros are the only values with magnitude bits 0. -/
theorem F32.eq_zero_or_negZero {x : F32} (h : F32.mag x = 0) : x = F32.zero ∨ x = F32.negZero := by
  obtain ⟨hmag, hpos, hmag', hneg⟩ : F32.mag F32.zero = 0 ∧ F32.neg? F32.zero = false ∧ F32.mag F32.negZero = 0 ∧
      F32.neg? F32.negZero = true := by decide +kernel
  cases hx : F32.neg? x with
  | false => exact .inl (F32.ext_mag (hx.trans hpos.symm) (h.trans hmag.symm))
  | true => exact .inr (F32.ext_mag (hx.trans hneg.symm) (h.trans hmag'.symm))

/-- A sum of a zero and +0.0 is +0.0. -/
theorem F32.add_zero_of_mag_zero {x : F32} (h : F32.mag x = 0) : F32.add x F32.zero = F32.zero := by
  rcases F32.eq_zero_or_negZero h with rfl | rfl
  · decide +kernel
  · decide +kernel

/-- A zero subtracted from +0.0 leaves +0.0. -/
theorem F32.zero_sub_of_mag_zero {x : F32} (h : F32.mag x = 0) : F32.sub F32.zero x = F32.zero := by
  rcases F32.eq_zero_or_negZero h with rfl | rfl
  · decide +kernel
  · decide +kernel

/-- +0.0 times a finite value is a zero. -/
theorem F32.mag_zero_mul {y : F32} (hy : F32.isFinite y = true) : F32.mag (F32.mul F32.zero y) = 0 := by
  obtain ⟨hzero, hunits⟩ := F32.zero_units
  obtain ⟨s, hmul, -, -⟩ := F32.mul_eq_round hzero hy
  rw [hmul, F32.mag_ofMag _ (F32.roundMag_lt ..), hunits]
  exact Nat.le_zero.1 (F32.roundMag_le (by positivity) (by simp))

theorem F32.not_isNaN_mul {x y : F32} (hx : F32.isFinite x = true) (hy : F32.isFinite y = true) :
    F32.isNaN (F32.mul x y) = false := by
  obtain ⟨s, hmul, -, -⟩ := F32.mul_eq_round hx hy
  rw [hmul]
  exact F32.not_isNaN_round ..

theorem F32.neg?_mul {x y : F32} (hx : F32.isFinite x = true) (hy : F32.isFinite y = true) :
    F32.neg? (F32.mul x y) = (F32.neg? x != F32.neg? y) := by
  unfold F32.mul
  simp only [F32.not_isNaN_of_isFinite, F32.not_isInf_of_isFinite, hx, hy, Bool.or_self, Bool.false_eq_true, if_false]
  exact F32.neg?_ofMag _ (F32.roundMag_lt ..)

/-- A finite value other than a zero times 1.0 is the value. -/
theorem F32.mul_one_of_mag_ne_zero {x : F32} (hx : F32.isFinite x = true) (h0 : F32.mag x ≠ 0) :
    F32.mul x F32.one = x := by
  obtain ⟨hone, hunits⟩ := F32.one_units
  obtain ⟨s, hmul, hs, hs'⟩ := F32.mul_eq_round hx hone
  rw [hmul]
  exact F32.ofMag_roundMag_eq (by positivity) hs hs' hx h0 (by rw [hunits]; norm_num)

/-- A finite value without a sign bit times +0.0 is +0.0. -/
theorem F32.mul_zero_of_pos {x : F32} (hx : F32.isFinite x = true) (hpos : F32.neg? x = false) :
    F32.mul x F32.zero = F32.zero := by
  obtain ⟨hmag, hneg⟩ : F32.mag F32.zero = 0 ∧ F32.neg? F32.zero = false := by decide +kernel
  refine F32.ext_mag ?_ ((F32.mag_mul_of_mag_zero hx hmag).trans hmag.symm)
  rw [F32.neg?_mul hx F32.zero_units.1, hpos, hneg]
  rfl

/-- A clamp leaves a value between its bounds alone. -/
theorem F32.clamp_of_between {lo hi x : F32} (h : F32.Between lo hi x) : F32.clamp x lo hi = x := by
  simp [F32.clamp, F32.lt_eq_false_of_le h.1, F32.lt_eq_false_of_le h.2]

/-! ## The effective cutoff (R191) -/

theorem cutoff_ends : F32.isFinite F32.f20 = true ∧ F32.isFinite F32.f20000 = true ∧ F32.le F32.f20 F32.f20000 = true ∧
    0 < F32.toInt F32.f20 := by decide +kernel

section Cutoff
variable {fBase : F32}

theorem cutoff_between {m : F32} (hbase : F32.isFinite fBase = true) (hm : F32.isFinite m = true) :
    F32.Between F32.f20 F32.f20000 (cutoff fBase m) := by
  obtain ⟨hlo, hhi, hle, -⟩ := cutoff_ends
  exact F32.clamp_mem (F32.not_isNaN_mul hbase hm) hlo hhi hle

theorem cutoff_one (h : F32.Between F32.f20 F32.f20000 fBase) : cutoff fBase F32.one = fBase := by
  obtain ⟨hlo, hhi, -, hpos⟩ := cutoff_ends
  obtain ⟨hfin, hge, -⟩ := h.units hlo hhi
  have h0 : F32.mag fBase ≠ 0 := fun h0 => by rw [F32.toInt_eq_zero_of_mag h0] at hge; omega
  rw [cutoff, F32.mul_one_of_mag_ne_zero hfin h0, F32.clamp_of_between h]

theorem cutoff_zero (hfin : F32.isFinite fBase = true) : cutoff fBase F32.zero = F32.f20 := by
  have hmag : F32.mag (F32.mul fBase F32.zero) = 0 := F32.mag_mul_of_mag_zero hfin (by decide +kernel)
  rw [cutoff]
  rcases F32.eq_zero_or_negZero hmag with h | h
  · rw [h]; decide +kernel
  · rw [h]; decide +kernel

end Cutoff

/-- Settles O45: the product is no NaN, so the clamp bounds it; times 1.0 it is the base, times +0.0 a zero. -/
theorem cutoffStaysInRange : Obligations.CutoffStaysInRange := by
  intro fBase m hbase hm
  obtain ⟨hlo, hhi, -, -⟩ := cutoff_ends
  have hfin := (F32.Between.units hlo hhi hbase).1
  have hmfin := (F32.Between.units F32.zero_units.1 F32.one_units.1 hm).1
  exact ⟨cutoff_between hfin hmfin, cutoff_one hbase, cutoff_zero hfin⟩

/-! ## A sample of the recurrence and the block's coefficients (R192 to R194) -/

/-- Settles O44: `Filter.set` and `Filter.sample` as defined, the tap by the topology. -/
theorem filterArithmetic : Obligations.FilterArithmetic := by
  refine ⟨fun _ _ _ _ => rfl, fun q p x => ⟨rfl, fun hlow => ?_, fun hband => ?_, fun hhigh => ?_⟩⟩
  · simp only [Filter.sample, hlow]
  · simp only [Filter.sample, hband]
  · simp only [Filter.sample, hhigh]

/-! ## The filter at rest (R195, R196) -/

/-- A sample of +0.0 leaves a filter at rest there: the high-pass tap is +0.0 because `h` has no sign bit, and each later
value is a zero added to +0.0. -/
theorem Filter.sample_rest {q : Filter} (hg : F32.isFinite q.g = true) (hgr : F32.isFinite (F32.add q.g q.r2) = true)
    (hh : F32.isFinite q.h = true) (hpos : F32.neg? q.h = false) :
    q.sample Integrators.rest F32.zero = (Integrators.rest, F32.zero) := by
  have hfeed : F32.sub F32.zero (F32.mul F32.zero (F32.add q.g q.r2)) = F32.zero :=
    F32.zero_sub_of_mag_zero (F32.mag_zero_mul hgr)
  have hstep : F32.add (F32.mul F32.zero q.g) F32.zero = F32.zero := F32.add_zero_of_mag_zero (F32.mag_zero_mul hg)
  have hrest : Integrators.rest = { s1 := F32.zero, s2 := F32.zero } := rfl
  have hsub : F32.sub F32.zero F32.zero = F32.zero := by decide +kernel
  have hhigh := F32.mul_zero_of_pos hh hpos
  simp only [Filter.sample, hrest, hfeed, hsub, hhigh, hstep]
  cases q.fType <;> rfl

theorem Filter.processChannel_cons (q : Filter) (p : Integrators) (x : F32) (xs : List F32) :
    q.processChannel p (x :: xs) = ((q.processChannel (q.sample p x).1 xs).1,
      (q.sample p x).2 :: (q.processChannel (q.sample p x).1 xs).2) := rfl

/-- A filter that a sample of +0.0 leaves at rest stays there for any number of them, and puts out +0.0 for each. -/
theorem Filter.processChannel_rest {q : Filter}
    (h : q.sample Integrators.rest F32.zero = (Integrators.rest, F32.zero)) (n : Nat) :
    q.processChannel Integrators.rest (List.replicate n F32.zero) = (Integrators.rest, List.replicate n F32.zero) := by
  induction n with
  | zero => rfl
  | succ n ih => rw [List.replicate_succ, Filter.processChannel_cons, h, ih]

/-- Settles O46: one sample leaves the filter at rest, hence any number of them does. -/
theorem filterSilentAtRest : Obligations.FilterSilentAtRest := by
  intro q n hg hgr hh hmsb
  have hpos : F32.neg? q.h = false := by rwa [F32.neg?]
  exact Filter.processChannel_rest (q.sample_rest hg hgr hh hpos) n

end Sys2Proof.Machine
end

section
/-! The voice (spec/44_voice.md): its note events (O32), its block unit by unit (O33) and an Idle voice's block (O34); with
them the voice state beside the amplitude envelope (O54) and the equal channels (O56) under every step, and the registers
that no command writes (O47). -/

namespace Sys2Proof.Machine

/-! ## Note events (R213, R214) -/

theorem Envelope.isActive_eq_true {e : Envelope} (h : e.stage ≠ .idle) : e.isActive = true := by
  simp [Envelope.isActive, h]

theorem Envelope.isActive_noteOff (fs : F32) (e : Envelope) : (e.noteOff fs).isActive = e.isActive := by
  by_cases h : e.stage = .idle
  · rw [Envelope.noteOff_of_idle h]
  · rw [Envelope.noteOff_of_active h, Envelope.isActive_eq_true h]
    exact Envelope.isActive_of_release rfl

/-- What a note-off writes, a cut overwrites (spec/41_envelope.md R134, R135). -/
theorem Envelope.forceIdle_noteOff (fs : F32) (e : Envelope) : (e.noteOff fs).forceIdle = e.forceIdle := by
  unfold Envelope.noteOff
  split <;> rfl

theorem Voice.noteOff_of_tail {v : Voice} (fs : F32) (h : v.amp.stage ≠ .idle) :
    v.noteOff fs true = { v with vstate := .tailingOff, amp := v.amp.noteOff fs, mod := v.mod.noteOff fs } := by
  simp [Voice.noteOff, Envelope.isActive_noteOff, Envelope.isActive_eq_true h]

theorem Voice.noteOff_of_cut {tail : Bool} {v : Voice} (fs : F32) (h : tail = false ∨ v.amp.stage = .idle) :
    v.noteOff fs tail = { v with vstate := .idle, amp := v.amp.forceIdle, mod := v.mod.forceIdle } := by
  have hcut : (!tail || !v.amp.isActive) = true := by simpa [Envelope.isActive] using h
  simp [Voice.noteOff, Envelope.isActive_noteOff, Envelope.forceIdle_noteOff, hcut]

/-- Settles O32: a note-off releases or cuts the voice as its two lemmas say, and a note-on is an update of the units. -/
theorem voiceNoteEvents : Obligations.VoiceNoteEvents := by
  refine ⟨fun fs note v => rfl, fun fs e => ⟨fun h => Envelope.noteOff_of_idle h fs,
    fun h => Envelope.noteOff_of_active h fs⟩, fun fs tail v => ⟨fun htail hactive => ?_, fun hcut => ?_⟩⟩
  · rw [htail, Voice.noteOff_of_tail fs hactive, Envelope.noteOff_of_active hactive]
    rfl
  · exact Voice.noteOff_of_cut fs hcut

/-! ## An Idle voice's block (R211) -/

theorem Voice.renderBlock_of_idle {v : Voice} (h : v.vstate = .idle) (sin tan : F32 → F32) (fs : F32) (nch n : Nat)
    (out : Buffer) : v.renderBlock sin tan fs nch n out = (v, out) := if_pos h

theorem Voice.renderBlock_of_active {v : Voice} (h : v.vstate ≠ .idle) (sin tan : F32 → F32) (fs : F32) (nch n : Nat)
    (out : Buffer) : v.renderBlock sin tan fs nch n out =
      ((v.sound sin tan fs nch n).1, out.mix (v.sound sin tan fs nch n).2) := if_neg h

/-- Settles O34: a note-off without tail-off leaves the voice Idle. -/
theorem idleVoicesAreSilent : Obligations.IdleVoicesAreSilent := by
  intro sin tan fs nch n v out
  have hcut : (v.noteOff fs false).vstate = .idle := by rw [Voice.noteOff_of_cut fs (.inl rfl)]
  exact ⟨fun h => Voice.renderBlock_of_idle h .., Voice.renderBlock_of_idle hcut ..⟩

/-! ## A sounding voice's block (R215 to R223) -/

@[simp] theorem Voice.endOfBlock_filt (v : Voice) : v.endOfBlock.filt = v.filt := by
  unfold Voice.endOfBlock; split <;> rfl

@[simp] theorem Voice.endOfBlock_note (v : Voice) : v.endOfBlock.note = v.note := by
  unfold Voice.endOfBlock; split <;> rfl

theorem Voice.endOfBlock_vstate (v : Voice) :
    v.endOfBlock.vstate = if v.amp.stage = .idle then .idle else v.vstate := by
  by_cases h : v.amp.stage = .idle <;> simp [Voice.endOfBlock, Envelope.isActive, h]

/-- Levels applied to a signal in every channel are applied once (R218, R219). -/
theorem Buffer.applyLevels_fill (nch : Nat) (w levels : List F32) :
    (Buffer.fill nch w).applyLevels levels = Buffer.fill nch (List.zipWith F32.mul w levels) := by
  have hchannel (c : Nat) : List.zipWith F32.mul (if c < nch then w else []) levels =
      if c < nch then List.zipWith F32.mul w levels else [] := by split <;> rfl
  simp [Buffer.fill, Buffer.applyLevels, hchannel]

/-- The filter of a block, its coefficients set by the block's modulator (R216, R217). -/
def Voice.blockFilter (tan : F32 → F32) (fs : F32) (n : Nat) (v : Voice) : Filter :=
  v.filt.set tan fs (modulationStep fs n v.mod).2

/-- The signal that enters the filter in every channel of a block (R218, R219). -/
def Voice.filterInput (sin : F32 → F32) (fs : F32) (n : Nat) (v : Voice) : List F32 :=
  List.zipWith F32.mul (v.osc.render sin fs n).2 (Envelope.samples fs n v.amp).2

section Sound

variable (sin tan : F32 → F32) (fs : F32) (nch n : Nat) (v : Voice)

theorem Voice.sound_filt : (v.sound sin tan fs nch n).1.filt =
    ((v.blockFilter tan fs n).process (Buffer.fill nch (v.filterInput sin fs n))).1 := by
  simp [Voice.sound, Buffer.applyLevels_fill, Voice.blockFilter, Voice.filterInput]

theorem Voice.sound_out : (v.sound sin tan fs nch n).2 =
    ((v.blockFilter tan fs n).process (Buffer.fill nch (v.filterInput sin fs n))).2.applyGain := by
  simp [Voice.sound, Buffer.applyLevels_fill, Voice.blockFilter, Voice.filterInput]

@[simp] theorem Voice.sound_note : (v.sound sin tan fs nch n).1.note = v.note := by simp [Voice.sound]

/-- The voice is Idle after a block in which its amplitude envelope ends (R223). -/
theorem Voice.sound_vstate : (v.sound sin tan fs nch n).1.vstate =
    if (v.sound sin tan fs nch n).1.amp.stage = .idle then .idle else v.vstate := by
  simp [Voice.sound, Voice.endOfBlock_vstate]

end Sound

/-- Settles O33: the units of a block one by one; with one channel the second holds no sample, and its integrators stay. -/
theorem voiceBlock : Obligations.VoiceBlock := by
  intro sin tan fs nch n v hnch
  obtain ⟨hlast, hmod⟩ := modulationStep_eq_samples fs n v.mod
  refine ⟨_, hlast, ?_⟩
  dsimp only
  rw [Voice.sound_filt, Voice.sound_out, hmod, Envelope.samples_fst]
  refine ⟨Voice.sound_mod .., Voice.sound_osc .., Voice.sound_amp .., ?_, Voice.sound_note .., Voice.sound_vstate .., ?_⟩
  · rcases hnch with rfl | rfl <;> rfl
  · rcases hnch with rfl | rfl <;> exact ⟨rfl, rfl⟩

/-! ## The voice state and the amplitude envelope (R224 items 1 to 3) -/

/-- What every advance of an envelope keeps, any number of them keeps. -/
theorem Envelope.skip_keeps {P : Envelope → Prop} {fs : F32} (hadvance : ∀ e, P e → P (e.advance fs)) (n : Nat)
    {e : Envelope} (h : P e) : P (Envelope.skip fs n e) := by
  induction n generalizing e with
  | zero => exact h
  | succ n ih => exact ih (hadvance e h)

/-- The stages before a release. -/
def Envelope.Unreleased (e : Envelope) : Prop := e.stage = .attack ∨ e.stage = .decay ∨ e.stage = .sustain

/-- In release, or at its end. -/
def Envelope.Released (e : Envelope) : Prop := e.stage = .release ∨ (e.stage = .idle ∧ e.level = F32.zero)

theorem Envelope.Unreleased.stage_ne_idle {e : Envelope} (h : e.Unreleased) : e.stage ≠ .idle := by
  rcases h with h | h | h <;> simp [h]

theorem Envelope.Unreleased.advance {e : Envelope} (fs : F32) (h : e.Unreleased) : (e.advance fs).Unreleased := by
  unfold Envelope.Unreleased at h ⊢
  rcases e.advance_stage fs with hkeep | ⟨-, hdecay⟩ | ⟨-, hsustain⟩ | ⟨hrelease, -⟩
  · rwa [hkeep]
  · exact .inr (.inl hdecay)
  · exact .inr (.inr hsustain)
  · simp [hrelease] at h

theorem Envelope.advance_of_idle {e : Envelope} (fs : F32) (h : e.stage = .idle) : e.advance fs = e :=
  congrArg Prod.fst (Envelope.nextSample_idle fs h)

theorem Envelope.Released.advance {e : Envelope} (fs : F32) (h : e.Released) : (e.advance fs).Released := by
  rcases h with hrelease | ⟨hidle, hlevel⟩
  · rcases e.advance_stage fs with hkeep | ⟨hattack, -⟩ | ⟨hdecay, -⟩ | ⟨-, hend⟩
    · exact .inl (hkeep.trans hrelease)
    · simp [hrelease] at hattack
    · simp [hrelease] at hdecay
    · exact .inr hend
  · rw [Envelope.advance_of_idle fs hidle]
    exact .inr ⟨hidle, hlevel⟩

theorem Voice.controlInv_of_idle {v : Voice} (h : v.vstate = .idle) :
    v.ControlInv ↔ v.amp.stage = .idle ∧ v.amp.level = F32.zero := by simp [Voice.ControlInv, h]

theorem Voice.controlInv_of_sounding {v : Voice} (h : v.vstate = .sounding) : v.ControlInv ↔ v.amp.Unreleased := by
  simp [Voice.ControlInv, Envelope.Unreleased, h]

theorem Voice.controlInv_of_tailingOff {v : Voice} (h : v.vstate = .tailingOff) :
    v.ControlInv ↔ v.amp.stage = .release := by simp [Voice.ControlInv, h]

/-- The parameter update keeps the stage and the level of every envelope (R212). -/
theorem Voice.update_controlInv {v : Voice} (fs : F32) (ps : Params) (h : v.ControlInv) :
    (v.update fs ps).ControlInv := by
  obtain ⟨hstage, hlevel, -⟩ := v.amp.configure_spec fs ps.attack ps.decay ps.sustain ps.release
  simpa [Voice.ControlInv, Voice.update, hstage, hlevel] using h

theorem Voice.noteOff_controlInv {v : Voice} (fs : F32) (tail : Bool) (h : v.ControlInv) (hs : v.vstate = .sounding) :
    (v.noteOff fs tail).ControlInv := by
  cases tail with
  | false =>
    rw [Voice.noteOff_of_cut fs (.inl rfl)]
    exact ⟨rfl, rfl⟩
  | true =>
    have hactive : v.amp.stage ≠ .idle := ((Voice.controlInv_of_sounding hs).1 h).stage_ne_idle
    rw [Voice.noteOff_of_tail fs hactive, Envelope.noteOff_of_active hactive]
    rfl

/-- An unreleased envelope does not end in a block, so the voice stays Sounding; a released one may, and then the voice
is Idle. -/
theorem Voice.sound_controlInv {sin tan : F32 → F32} {fs : F32} {nch n : Nat} {v : Voice} (h : v.ControlInv)
    (hactive : v.vstate ≠ .idle) : (v.sound sin tan fs nch n).1.ControlInv := by
  have hvstate := v.sound_vstate sin tan fs nch n
  have hamp := v.sound_amp sin tan fs nch n
  cases hv : v.vstate with
  | idle => exact absurd hv hactive
  | sounding =>
    have hunreleased : (v.sound sin tan fs nch n).1.amp.Unreleased :=
      hamp ▸ Envelope.skip_keeps (fun _ h => h.advance fs) n ((Voice.controlInv_of_sounding hv).1 h)
    rw [if_neg hunreleased.stage_ne_idle, hv] at hvstate
    exact (Voice.controlInv_of_sounding hvstate).2 hunreleased
  | tailingOff =>
    have hreleased : (v.sound sin tan fs nch n).1.amp.Released :=
      hamp ▸ Envelope.skip_keeps (fun _ h => h.advance fs) n (.inl ((Voice.controlInv_of_tailingOff hv).1 h))
    rcases hreleased with hrelease | ⟨hidle, hlevel⟩
    · rw [if_neg (by rw [hrelease]; decide), hv] at hvstate
      exact (Voice.controlInv_of_tailingOff hvstate).2 hrelease
    · rw [if_pos hidle] at hvstate
      exact (Voice.controlInv_of_idle hvstate).2 ⟨hidle, hlevel⟩

/-- Settles O54: the update, the note events and the block of a voice keep its state in agreement, and RENDER is made of
these. -/
theorem stepKeepsVoiceControl : Obligations.StepKeepsVoiceControl := by
  intro s t hs h
  refine step_forall_voices hs h ⟨rfl, rfl⟩ (fun _ hv => hv) fun w n rest _ _ _ => ?_
  exact State.forall_renderBlock (s := { s with port := rest }) hs (fun _ => Voice.update_controlInv _ _)
    (fun _ _ _ _ => .inl rfl) (fun _ => Voice.noteOff_controlInv _) (fun _ => Voice.sound_controlInv)

/-! ## The two channels (R224 item 4, spec/43_filter.md R195) -/

/-- Both integrator pairs of the voice are equal. -/
def Voice.StereoInv (v : Voice) : Prop := v.filt.c0 = v.filt.c1

/-- A note-off leaves the filter as it is (R214). -/
@[simp] theorem Voice.noteOff_filt (fs : F32) (tail : Bool) (v : Voice) : (v.noteOff fs tail).filt = v.filt := by
  unfold Voice.noteOff; dsimp only; split <;> rfl

/-- Equal signals through equal integrators leave equal integrators and give equal samples (R195). -/
theorem Filter.process_stereo {q : Filter} {b : Buffer} (hq : q.c0 = q.c1) (hb : b.c0 = b.c1) :
    (q.process b).1.c0 = (q.process b).1.c1 ∧ (q.process b).2.c0 = (q.process b).2.c1 := by
  simp [Filter.process, hq, hb]

theorem Voice.sound_stereo (sin tan : F32 → F32) (fs : F32) (n : Nat) {v : Voice} (h : v.StereoInv) :
    (v.sound sin tan fs 2 n).1.StereoInv ∧ (v.sound sin tan fs 2 n).2.c0 = (v.sound sin tan fs 2 n).2.c1 := by
  obtain ⟨hfilt, hout⟩ := Filter.process_stereo (q := v.blockFilter tan fs n)
    (b := Buffer.fill 2 (v.filterInput sin fs n)) h rfl
  rw [Voice.StereoInv, Voice.sound_filt, Voice.sound_out]
  exact ⟨hfilt, by simp [Buffer.applyGain, hout]⟩

theorem Voice.renderBlock_stereo (sin tan : F32 → F32) (fs : F32) (n : Nat) {v : Voice} {out : Buffer}
    (h : v.StereoInv) (hout : out.c0 = out.c1) : (v.renderBlock sin tan fs 2 n out).1.StereoInv ∧
      (v.renderBlock sin tan fs 2 n out).2.c0 = (v.renderBlock sin tan fs 2 n out).2.c1 := by
  by_cases hidle : v.vstate = .idle
  · rw [Voice.renderBlock_of_idle hidle]
    exact ⟨h, hout⟩
  · obtain ⟨hv, hscr⟩ := Voice.sound_stereo sin tan fs n h
    rw [Voice.renderBlock_of_active hidle]
    exact ⟨hv, by simp [Buffer.mix, hout, hscr]⟩

theorem renderVoices_stereo (sin tan : F32 → F32) (fs : F32) (n : Nat) {vs : List Voice} {out : Buffer}
    (h : ∀ v ∈ vs, v.StereoInv) (hout : out.c0 = out.c1) :
    (∀ v ∈ (renderVoices sin tan fs 2 n vs out).1, v.StereoInv) ∧
      (renderVoices sin tan fs 2 n vs out).2.c0 = (renderVoices sin tan fs 2 n vs out).2.c1 := by
  induction vs generalizing out with
  | nil => exact ⟨h, hout⟩
  | cons v vs ih =>
    obtain ⟨hv, hvs⟩ := List.forall_mem_cons.1 h
    obtain ⟨hv', hout'⟩ := Voice.renderBlock_stereo sin tan fs n hv hout
    obtain ⟨hvs', hmix⟩ := ih hvs hout'
    exact ⟨List.forall_mem_cons.2 ⟨hv', hvs'⟩, hmix⟩

/-- The parameter update and the dispatch touch no integrator (R212 to R214). -/
theorem State.dispatched_stereo {s : State} (h : ∀ v ∈ s.voices, v.StereoInv) :
    ∀ v ∈ s.dispatched.1, v.StereoInv :=
  forall_dispatch (List.forall_mem_map.2 h) (fun _ _ hv _ => hv) fun v tail hv _ => by
    rwa [Voice.StereoInv, Voice.noteOff_filt]

/-- A state with equal integrators in every voice and nothing listed in OUT. -/
theorem State.stereoInv_of_cleared {s : State} (hv : ∀ v ∈ s.voices, v.StereoInv) (hm : s.mem = []) : s.StereoInv :=
  fun _ => ⟨hv, fun i _ => by simp [State.out, hm]⟩

/-- PREPARE and RELEASE put every voice in the voice reset state (spec/46_host_commands.md R271, R273). -/
theorem State.clearRun_stereo (s : State) : ∀ v ∈ s.clearRun.voices, v.StereoInv :=
  List.forall_mem_map.2 fun _ _ => rfl

theorem State.renderBlock_stereoInv {sin tan : F32 → F32} {n : BitVec 16} {s : State} (hp : s.prepared = true)
    (hmax : n.toNat ≤ Config.maxBlock) (hs : s.StereoInv) : (s.renderBlock sin tan n).StereoInv := by
  intro hstereo
  have hnch : s.curNch = 2#32 := by simpa [hp] using hstereo
  obtain ⟨hvoices, -⟩ := hs fun _ => hnch
  have hrender := renderVoices_stereo sin tan s.fs n.toNat (State.dispatched_stereo hvoices)
    (out := Buffer.zeros n.toNat) rfl
  have htwo : s.curNch.toNat = 2 := by rw [hnch]; rfl
  rw [← htwo] at hrender
  obtain ⟨hvoices', hmixed⟩ := hrender
  refine ⟨hvoices', fun i hi => ?_⟩
  obtain ⟨hout0, hout1⟩ := State.out_renderBlock (sin := sin) (tan := tan) (s := s) hmax hi
  rw [hout0, hout1]
  exact congrArg (List.getD · i 0#32) hmixed

theorem exec_stereoInv {i : Instr} {s t : State} (hc : s.ConfigInv) (hs : s.StereoInv) (h : exec i s = .next t) :
    t.StereoInv := by
  rcases exec_cases h with ⟨_, rfl, _⟩ | ⟨rfl, _⟩ | ⟨_, _, _, _, rfl⟩ | ⟨n, _, hp, _, hn, rfl⟩ | ⟨_, _, rfl⟩ |
    ⟨_, _, rfl⟩ | ⟨_, rfl⟩ | ⟨_, rfl⟩
  any_goals exact hs
  · obtain ⟨hlegal, -⟩ := (State.configInv_of_prepared hp).1 hc
    obtain ⟨-, -, -, hmax, -⟩ := configLegal_iff.1 hlegal
    exact State.renderBlock_stereoInv hp (hn.trans hmax) hs
  · exact State.stereoInv_of_cleared s.clearRun_stereo rfl
  · exact fun hstereo => ⟨List.forall_mem_map.2 fun _ _ => rfl, (hs hstereo).2⟩
  · exact State.stereoInv_of_cleared s.clearRun_stereo rfl

theorem perform_stereoInv {a : Access} {s t : State} (hc : s.ConfigInv) (hs : s.StereoInv)
    (h : perform a s = .next t) : t.StereoInv := by
  rcases perform_cases h with ⟨_, _, _, _, rfl⟩ | ⟨_, _, _, rfl⟩ | ⟨_, _, _, rfl⟩ | ⟨_, _, _, _, rfl⟩ |
    ⟨_, _, _, _, rfl⟩ | ⟨_, _, _, _, rfl⟩ | ⟨_, _, _, _, rfl⟩ | ⟨_, _, _, _, _, ht⟩ | ⟨_, _, _, _, _, rfl⟩ |
    ⟨_, _, _, _, _, _, hx⟩ | ⟨_, rfl⟩
  any_goals exact hs
  · rw [ht, State.writeParam_eq]
    exact hs
  · exact exec_stereoInv hc hs hx
  · exact State.stereoInv_of_cleared (forall_resetN_voices _ s.base rfl) rfl

/-- Settles O56: RENDER on two channels treats both alike, and every other access keeps OUT and the integrators or
makes the two alike. -/
theorem stepKeepsStereoIdentical : Obligations.StepKeepsStereoIdentical := by
  intro s t hc hs h
  have hstep := step_keeps_of_perform (P := fun s => s.ConfigInv ∧ s.StereoInv) (fun _ _ h => h)
    (fun _ _ _ ⟨hc, hs⟩ h => ⟨perform_configInv hc h, perform_stereoInv hc hs h⟩) s t ⟨hc, hs⟩ h
  exact hstep.2

/-! ## What no command writes (R212, R249, R271, R273, R314) -/

/-- Settles O47: each command's next state, a RENDER's by the fields it changes. -/
theorem commandsKeepHostRegisters : Obligations.CommandsKeepHostRegisters := by
  intro i s t h
  refine ⟨exec_params h, ?_⟩
  rcases exec_cases h with ⟨_, rfl, _⟩ | ⟨rfl, _⟩ | ⟨_, _, _, _, rfl⟩ | ⟨n, _, _, _, _, rfl⟩ | ⟨_, _, rfl⟩ |
    ⟨_, _, rfl⟩ | ⟨_, rfl⟩ | ⟨_, rfl⟩
  any_goals exact ⟨rfl, rfl, rfl, by simp, rfl, rfl, rfl⟩
  have hlen := s.renderBlock_voices_length Config.sin32 Config.tan32 n
  rw [State.renderBlock_eq] at hlen ⊢
  exact ⟨rfl, rfl, rfl, hlen, rfl, rfl, rfl⟩

end Sys2Proof.Machine
end

section
/-! Note events (spec/45_voice_pool.md): queuing one (O18, O19), what one does to the pool when it is dispatched (O20,
O21), the order of dispatch (O22), and that velocity is read by none of it (O23). -/

namespace Sys2Proof.Machine

/-! ## Queuing (R240, R241) -/

/-- Settles O18: the command's word reads back as the command, and the queue has room for its event or is full. -/
theorem noteOnQueuesEvent : Obligations.NoteOnQueuesEvent := fun ts vel note _ =>
  ⟨decode_encode (.noteOn ts vel note), enqueue_room, enqueue_full⟩

/-- Settles O19: as for NOTE_ON. -/
theorem noteOffQueuesEvent : Obligations.NoteOffQueuesEvent := fun ts tail vel note _ =>
  ⟨decode_encode (.noteOff ts tail vel note), enqueue_room, enqueue_full⟩

/-! ## One event (R242, R243) -/

theorem dispatchEvent_of_taken {fs : F32} {e : Event} {vs vs' : List Voice} (he : e.kind = .noteOn)
    (h : poolNoteOn fs e.note vs = some vs') : dispatchEvent fs e vs = (vs', false) := by
  simp [dispatchEvent, he, h]

theorem dispatchEvent_of_dropped {fs : F32} {e : Event} {vs : List Voice} (he : e.kind = .noteOn)
    (h : poolNoteOn fs e.note vs = none) : dispatchEvent fs e vs = (vs, true) := by
  simp [dispatchEvent, he, h]

theorem dispatchEvent_noteOff {e : Event} (he : e.kind = .noteOff) (fs : F32) (vs : List Voice) :
    dispatchEvent fs e vs = (poolNoteOff fs e.note e.tail vs, false) := by
  simp [dispatchEvent, he]

/-- Settles O20: pool note-on takes the first Idle voice, or finds none. -/
theorem noteOnTakesLowestIdleVoice : Obligations.NoteOnTakesLowestIdleVoice := fun fs e vs he =>
  ⟨fun i v hv hidle hlowest => dispatchEvent_of_taken he (poolNoteOn_of_lowest fs e.note vs i v hv hidle hlowest),
    fun hnone => dispatchEvent_of_dropped he (poolNoteOn_eq_none fs e.note vs hnone)⟩

/-- Settles O21: pool note-off meets each voice at its own index. -/
theorem noteOffReachesBoundVoices : Obligations.NoteOffReachesBoundVoices := by
  intro fs e vs he
  rw [dispatchEvent_noteOff he]
  refine ⟨rfl, poolNoteOff_length .., fun i v hv => ?_⟩
  have hat : (poolNoteOff fs e.note e.tail vs)[i]? =
      some (if v.vstate = .sounding ∧ v.note = e.note then v.noteOff fs e.tail else v) := by
    simp [poolNoteOff, hv]
  exact ⟨fun hbound => hat.trans (by rw [if_pos hbound]), fun hother => hat.trans (by rw [if_neg hother])⟩

/-! ## The order of events (R244) -/

theorem Event.before_iff {a b : Event} :
    a.before b = true ↔ a.ts.toNat < b.ts.toNat ∨ (a.ts = b.ts ∧ a.seq ≤ b.seq) := by
  simp [Event.before]

theorem sortEvents_sorted (es : List Event) : (sortEvents es).Pairwise fun a b => a.before b = true := by
  induction es with
  | nil => exact .nil
  | cons e es ih => exact insertEvent_sorted e _ ih

/-- Events dispatched after others see the voices as those left them (R244), and a drop by either is a drop (R302). -/
theorem dispatch_append (fs : F32) (es es' : List Event) (vs : List Voice) :
    dispatch fs (es ++ es') vs = ((dispatch fs es' (dispatch fs es vs).1).1,
      (dispatch fs es vs).2 || (dispatch fs es' (dispatch fs es vs).1).2) := by
  induction es generalizing vs with
  | nil => simp [dispatch]
  | cons e es ih => simp [dispatch, ih, Bool.or_assoc]

/-- Settles O22: the sort is a sorted permutation, and the dispatch goes through the list from its head. -/
theorem eventsDispatchInOrder : Obligations.EventsDispatchInOrder :=
  ⟨fun es => ⟨sortEvents_perm es, (sortEvents_sorted es).imp Event.before_iff.1⟩,
    fun fs vs => ⟨rfl, fun _ _ => rfl, fun es es' => dispatch_append fs es es' vs⟩⟩

/-! ## What the dispatch does not read (decision D18) -/

section Changed

variable {g : Event → Event}

/-- A change of the events that their order does not see commutes with the sort. -/
theorem insertEvent_map (hg : ∀ a b, (g a).before (g b) = a.before b) (e : Event) (es : List Event) :
    insertEvent (g e) (es.map g) = (insertEvent e es).map g := by
  induction es with
  | nil => rfl
  | cons x xs ih =>
    simp only [List.map_cons, insertEvent, hg, ih]
    split <;> rfl

theorem sortEvents_map (hg : ∀ a b, (g a).before (g b) = a.before b) (es : List Event) :
    sortEvents (es.map g) = (sortEvents es).map g := by
  induction es with
  | nil => rfl
  | cons e es ih => rw [List.map_cons, sortEvents, ih, insertEvent_map hg, sortEvents]

/-- A change of the events that the pool does not see leaves the dispatch as it is. -/
theorem dispatch_map {fs : F32} (hg : ∀ e vs, dispatchEvent fs (g e) vs = dispatchEvent fs e vs) (es : List Event)
    (vs : List Voice) : dispatch fs (es.map g) vs = dispatch fs es vs := by
  induction es generalizing vs with
  | nil => rfl
  | cons e es ih => simp only [List.map_cons, dispatch, hg, ih]

/-- Such a change in the queue leaves the dispatch of a block as it is. -/
theorem State.dispatched_map_evq (hg : ∀ a b, (g a).before (g b) = a.before b)
    (hpool : ∀ fs e vs, dispatchEvent fs (g e) vs = dispatchEvent fs e vs) (s : State) :
    State.dispatched { s with evq := s.evq.map g } = s.dispatched := by
  simp only [State.dispatched, State.fs, sortEvents_map hg, dispatch_map (hpool _)]

end Changed

/-- A block reads the queue only through the dispatch of its events (R245). -/
theorem State.renderBlock_congr_evq (sin tan : F32 → F32) (n : BitVec 16) {s : State} {q : List Event}
    (h : State.dispatched { s with evq := q } = s.dispatched) :
    State.renderBlock sin tan n { s with evq := q } = s.renderBlock sin tan n := by
  unfold State.renderBlock
  rw [h]
  dsimp only
  split <;> rfl

/-- A RENDER of a legal length on a prepared block completes (R245). -/
theorem exec_render_legal {n : BitVec 16} {s : State} (hp : s.prepared = true) (h1 : 1 ≤ n.toNat)
    (hn : n.toNat ≤ s.curBlock.toNat) :
    exec (.render n) s = .next (s.renderBlock Config.sin32 Config.tan32 n) :=
  renderWith_legal hp (by omega)

/-- Settles O23: neither the order of the events nor what one does to the pool reads its velocity. -/
theorem velocityHasNoEffect : Obligations.VelocityHasNoEffect := by
  intro n s f hp h1 hn
  have hdispatched := State.dispatched_map_evq (g := fun e => { e with vel := f e }) (fun _ _ => rfl)
    (fun _ _ _ => rfl) s
  calc exec (.render n) { s with evq := s.evq.map fun e => { e with vel := f e } }
    _ = .next (State.renderBlock Config.sin32 Config.tan32 n _) := exec_render_legal hp h1 hn
    _ = .next (s.renderBlock Config.sin32 Config.tan32 n) :=
      congrArg _ (State.renderBlock_congr_evq _ _ n hdispatched)
    _ = exec (.render n) s := (exec_render_legal hp h1 hn).symm

end Sys2Proof.Machine
end

section
/-! RENDER (spec/45_voice_pool.md): that it completes with the parameter update and the frame (O25), what it mixes into
OUT (O26), and that two active voices superpose (O27). -/

namespace Sys2Proof.Machine

/-! ## The update and the frame (R245, R212) -/

/-- Settles O25: the update is the model's field by field, and what a RENDER changes `renderBlock_eq` lists. -/
theorem renderCompletes : Obligations.RenderCompletes := by
  intro n s hp h1 hn
  have hframe := s.renderBlock_eq Config.sin32 Config.tan32 n
  refine ⟨rfl, _, exec_render_legal hp h1 hn, State.renderBlock_evq .., State.renderBlock_lastN_toNat ..,
    State.renderBlock_voices .., ?_, ?_⟩
  · rw [hframe]
    rfl
  · rw [hframe]
    exact ⟨rfl, rfl, rfl, rfl, rfl, rfl, rfl, rfl, rfl, rfl, rfl⟩

/-! ## The mix (R246, R222) -/

theorem Buffer.channel_mix (out scr : Buffer) (c : Nat) :
    (out.mix scr).channel c = mixChannel (out.channel c) (scr.channel c) := by
  unfold Buffer.channel
  split <;> rfl

theorem Buffer.channel_zeros (n c : Nat) : (Buffer.zeros n).channel c = List.replicate n F32.zero := ite_self ..

/-- A voice adds its contribution, if it has one, to each frame of OUT (R211, R222). -/
theorem Voice.renderBlock_channel (s : State) (n c i : Nat) (v : Voice) (out : Buffer) :
    ((v.renderBlock Config.sin32 Config.tan32 s.fs s.curNch.toNat n out).2.channel c)[i]? =
      ((out.channel c)[i]?).map fun o => (v.contribution? s n c i).toList.foldl F32.add o := by
  by_cases hidle : v.vstate = .idle
  · simp [Voice.renderBlock_of_idle hidle, Voice.contribution?, hidle]
  · rw [Voice.renderBlock_of_active hidle, Buffer.channel_mix, mixChannel_getElem?]
    simp only [Voice.contribution?, if_neg hidle]
    congr 1
    funext o
    cases ((v.sound Config.sin32 Config.tan32 s.fs s.curNch.toNat n).2.channel c)[i]? <;> rfl

/-- The voices add their contributions to each frame of OUT in ascending order (R246). -/
theorem renderVoices_channel (s : State) (n c i : Nat) (vs : List Voice) (out : Buffer) :
    ((renderVoices Config.sin32 Config.tan32 s.fs s.curNch.toNat n vs out).2.channel c)[i]? =
      ((out.channel c)[i]?).map ((vs.filterMap (Voice.contribution? s n c i)).foldl F32.add) := by
  induction vs generalizing out with
  | nil => simp [renderVoices]
  | cons v vs ih =>
    simp only [renderVoices, ih, Voice.renderBlock_channel, Option.map_map]
    congr 1
    funext o
    cases hc : v.contribution? s n c i <;> simp [hc]

/-- A frame of a block is the mix of the voices after the dispatch. -/
theorem State.mixed_channel (s : State) {n : BitVec 16} {c i : Nat} (hi : i < n.toNat) :
    ((s.mixed Config.sin32 Config.tan32 n).channel c)[i]? = some (mixOf s n.toNat c i s.dispatched.1) := by
  simp [State.mixed, renderVoices_channel, Buffer.channel_zeros, hi, mixOf]

/-- The words of OUT after a RENDER are the frames of the block, by channel. -/
theorem State.out_renderBlock_channel {sin tan : F32 → F32} {n : BitVec 16} {s : State}
    (hn : n.toNat ≤ Config.maxBlock) {c i : Nat} (hc : c < 2) (hi : i < Config.maxBlock) :
    (s.renderBlock sin tan n).out c i = ((s.mixed sin tan n).channel c).getD i 0#32 := by
  obtain ⟨h0, h1⟩ := State.out_renderBlock (sin := sin) (tan := tan) (s := s) hn hi
  obtain rfl | rfl : c = 0 ∨ c = 1 := by omega
  · exact h0
  · exact h1

/-- OUT after a RENDER of a legal length: the mix in the block's frames and channels, +0.0 elsewhere (R245, R246). -/
theorem State.out_renderBlock_eq_mixOf {n : BitVec 16} {s : State} (hs : s.ConfigInv) (hp : s.prepared = true)
    (hn : n.toNat ≤ s.curBlock.toNat) {c i : Nat} (hc : c < 2) (hi : i < 4096) :
    (s.renderBlock Config.sin32 Config.tan32 n).out c i =
      if c < s.curNch.toNat ∧ i < n.toNat then mixOf s n.toNat c i s.dispatched.1 else F32.zero := by
  obtain ⟨hlegal, -⟩ := (State.configInv_of_prepared hp).1 hs
  obtain ⟨-, -, -, hmax, hnch⟩ := configLegal_iff.1 hlegal
  split
  case isTrue h =>
    rw [State.out_renderBlock_channel (hn.trans hmax) hc hi, List.getD_eq_getElem?_getD, s.mixed_channel h.2]
    rfl
  case isFalse h =>
    obtain ⟨-, -, hunused⟩ : (s.renderBlock Config.sin32 Config.tan32 n).OutInv :=
      State.renderBlock_outInv (hn.trans hmax) (by rcases hnch with h | h <;> simp [h])
    exact hunused c i hc hi (by simp only [State.renderBlock_curNch, State.renderBlock_lastN_toNat]; omega)

/-- Settles O26: OUT after the one next state that a legal RENDER answers. -/
theorem renderMixesVoicesInOrder : Obligations.RenderMixesVoicesInOrder := by
  intro n s t hs hp h1 hn ht c i hc hi
  obtain rfl : _ = t := Host.Outcome.next.inj ((exec_render_legal hp h1 hn).symm.trans ht)
  exact State.out_renderBlock_eq_mixOf hs hp hn hc hi

/-! ## Sums with a zero and with a NaN (spec/00_scope.md R12) -/

theorem F32.isNaN_nan (op : Config.ArithOp) (x y : F32) : F32.isNaN (F32.nan op x y) = true := by
  have hbits : 0x7FC00000 ≤ F32.mag (F32.nan op x y) := by
    unfold F32.mag F32.nan
    rw [BitVec.toNat_or, Nat.or_mod_two_pow]
    exact Nat.right_le_or
  exact decide_eq_true (Nat.lt_of_lt_of_le (by decide) hbits)

theorem F32.isNaN_add {x y : F32} (h : F32.isNaN x = true ∨ F32.isNaN y = true) :
    F32.isNaN (F32.add x y) = true := by
  unfold F32.add
  rw [if_pos (by simpa using h)]
  exact F32.isNaN_nan ..

theorem F32.isFinite_of_mag_zero {x : F32} (h : F32.mag x = 0) : F32.isFinite x = true :=
  (F32.isFinite_iff x).2 (h ▸ by decide)

/-- A zero added on the right changes no number other than a zero; `add_of_mag_zero` says so of the finite ones. -/
theorem F32.add_zero_right {x z : F32} (hx : F32.isNaN x = false) (h0 : F32.mag x ≠ 0) (hz : F32.mag z = 0) :
    F32.add x z = x := by
  have hzfin := F32.isFinite_of_mag_zero hz
  cases hinf : F32.isInf x with
  | true => simp [F32.add, F32.addNum, hx, hinf, F32.not_isNaN_of_isFinite hzfin, F32.not_isInf_of_isFinite hzfin]
  | false =>
    refine F32.add_of_mag_zero ((F32.isFinite_iff x).2 ?_) h0 hz
    simp only [F32.isNaN, F32.isInf, decide_eq_false_iff_not] at hx hinf
    omega

/-- A zero added on the left is a zero added on the right. -/
theorem F32.add_zero_left {x : F32} (hx : F32.isNaN x = false) : F32.add F32.zero x = F32.add x F32.zero := by
  obtain ⟨hfin, -⟩ := F32.zero_units
  simp [F32.add, F32.addNum, hx, F32.not_isNaN_of_isFinite hfin, F32.not_isInf_of_isFinite hfin, Int.add_comm,
    Bool.and_comm]

/-- What a sum from +0.0 makes of its first term: a NaN stays one, a zero becomes +0.0, and any other value stays. -/
theorem F32.zero_add_cases (x : F32) :
    (F32.isNaN x = true ∧ F32.isNaN (F32.add F32.zero x) = true) ∨
      (F32.mag x = 0 ∧ F32.add F32.zero x = F32.zero) ∨ (F32.mag x ≠ 0 ∧ F32.add F32.zero x = x) := by
  cases hx : F32.isNaN x with
  | true => exact .inl ⟨rfl, F32.isNaN_add (.inr hx)⟩
  | false =>
    rw [F32.add_zero_left hx]
    by_cases h0 : F32.mag x = 0
    · exact .inr (.inl ⟨h0, F32.add_zero_of_mag_zero h0⟩)
    · exact .inr (.inr ⟨h0, F32.add_zero_right hx h0 (by decide +kernel)⟩)

/-- A sum from +0.0 is never -0.0. -/
theorem F32.zero_add_ne_negZero (x : F32) : F32.add F32.zero x ≠ F32.negZero := by
  have hneg : F32.isNaN F32.negZero = false ∧ F32.mag F32.negZero = 0 := by decide +kernel
  intro h
  rcases F32.zero_add_cases x with ⟨-, hnan⟩ | ⟨-, hzero⟩ | ⟨h0, hself⟩
  · simp [h, hneg] at hnan
  · exact absurd (hzero.symm.trans h) (by decide)
  · exact h0 (hself.symm.trans h ▸ hneg.2)

/-! ## Two voices superpose (R247) -/

/-- Equal, or both NaN: a NaN's payload is open (log 6). -/
def F32.Agree (x y : F32) : Prop := x = y ∨ (F32.isNaN x = true ∧ F32.isNaN y = true)

/-- A zero added to a number other than -0.0 changes nothing. -/
theorem F32.add_zero_of_ne_negZero {x z : F32} (hnan : F32.isNaN x = false) (hx : x ≠ F32.negZero)
    (hz : F32.mag z = 0) : F32.add x z = x := by
  by_cases h0 : F32.mag x = 0
  · obtain rfl := (F32.eq_zero_or_negZero h0).resolve_right hx
    rw [F32.add_zero_left (F32.not_isNaN_of_isFinite (F32.isFinite_of_mag_zero hz)), F32.add_zero_of_mag_zero hz]
  · exact F32.add_zero_right hnan h0 hz

/-- To a value other than -0.0, +0.0 may be added. -/
theorem F32.agree_add_zero {x : F32} (hx : x ≠ F32.negZero) : F32.Agree x (F32.add x F32.zero) := by
  cases hnan : F32.isNaN x with
  | true => exact .inr ⟨hnan, F32.isNaN_add (.inl hnan)⟩
  | false => exact .inl (F32.add_zero_of_ne_negZero hnan hx (by decide +kernel)).symm

/-- To a value other than -0.0, a term may be added as it is or as a sum from +0.0. -/
theorem F32.agree_add_zero_add {x : F32} (hx : x ≠ F32.negZero) (y : F32) :
    F32.Agree (F32.add x y) (F32.add x (F32.add F32.zero y)) := by
  rcases F32.zero_add_cases y with ⟨hnan, hnan'⟩ | ⟨h0, hzero⟩ | ⟨-, hself⟩
  · exact .inr ⟨F32.isNaN_add (.inr hnan), F32.isNaN_add (.inr hnan')⟩
  · rw [hzero]
    cases hnan : F32.isNaN x with
    | true => exact .inr ⟨F32.isNaN_add (.inl hnan), F32.isNaN_add (.inl hnan)⟩
    | false =>
      refine .inl ((F32.add_zero_of_ne_negZero hnan hx h0).trans ?_)
      exact (F32.add_zero_of_ne_negZero hnan hx (by decide +kernel)).symm
  · exact .inl (by rw [hself])

/-- The last voice adds its contribution, if it has one, to what the voices before it mix (R246). -/
theorem mixOf_concat (s : State) (n c i : Nat) (vs : List Voice) (v : Voice) :
    mixOf s n c i (vs ++ [v]) = (v.contribution? s n c i).elim (mixOf s n c i vs) (F32.add (mixOf s n c i vs)) := by
  cases hv : v.contribution? s n c i <;> simp [mixOf, hv]

theorem mixOf_singleton (s : State) (n c i : Nat) (v : Voice) :
    mixOf s n c i [v] = (v.contribution? s n c i).elim F32.zero (F32.add F32.zero) := mixOf_concat s n c i [] v

/-- The mix of two voices is the sum of the mixes of each. -/
theorem mixOf_pair_agree (s : State) (n c i : Nat) (v w : Voice) :
    F32.Agree (mixOf s n c i [v, w]) (F32.add (mixOf s n c i [v]) (mixOf s n c i [w])) := by
  have hv : mixOf s n c i [v] ≠ F32.negZero := by
    rw [mixOf_singleton]
    cases v.contribution? s n c i with
    | none => decide
    | some y => exact F32.zero_add_ne_negZero y
  rw [mixOf_singleton s n c i w, show [v, w] = [v] ++ [w] from rfl, mixOf_concat]
  cases w.contribution? s n c i with
  | none => exact F32.agree_add_zero hv
  | some y => exact F32.agree_add_zero_add hv y

/-- Whether a voice is not Idle, the complement of R211. -/
def Voice.active (v : Voice) : Bool := v.vstate ≠ .idle

theorem Voice.active_eq_false {v : Voice} : v.active = false ↔ v.vstate = .idle := by simp [Voice.active]

theorem Voice.active_eq_true {v : Voice} : v.active = true ↔ v.vstate ≠ .idle := by simp [Voice.active]

/-- An Idle voice has no part in the mix (R211). -/
theorem mixOf_filter_active (s : State) (n c i : Nat) (vs : List Voice) :
    mixOf s n c i (vs.filter Voice.active) = mixOf s n c i vs := by
  have hidle : (fun v => if v.active then Voice.contribution? s n c i v else none) = Voice.contribution? s n c i := by
    funext v
    by_cases hv : v.vstate = .idle <;> simp [Voice.active, Voice.contribution?, hv]
  rw [mixOf, List.filterMap_filter, hidle, mixOf]

/-- With no event queued a block renders the updated voices. -/
theorem State.dispatched_of_no_events {s : State} (h : s.evq = []) :
    s.dispatched.1 = s.voices.map (Voice.update s.fs s.params) := by
  simp [State.dispatched, h, sortEvents, dispatch]

/-- The parameter update makes no voice active or Idle (R212). -/
theorem filter_active_map_update (fs : F32) (ps : Params) (vs : List Voice) :
    (vs.map (Voice.update fs ps)).filter Voice.active = (vs.filter Voice.active).map (Voice.update fs ps) :=
  List.filter_map

/-- With no event queued a block is the mix of its active voices alone. -/
theorem State.out_of_active {s : State} {n : BitVec 16} {vs act : List Voice} (hs : s.ConfigInv)
    (hp : s.prepared = true) (hn : n.toNat ≤ s.curBlock.toNat) (hevq : s.evq = [])
    (hact : vs.filter Voice.active = act) {c i : Nat} (hc : c < 2) (hi : i < 4096) :
    (State.renderBlock Config.sin32 Config.tan32 n { s with voices := vs }).out c i =
      if c < s.curNch.toNat ∧ i < n.toNat then mixOf s n.toNat c i (act.map (Voice.update s.fs s.params))
      else F32.zero := by
  have hmix : mixOf s n.toNat c i (State.dispatched { s with voices := vs }).1 =
      mixOf s n.toNat c i (act.map (Voice.update s.fs s.params)) := by
    rw [State.dispatched_of_no_events (s := { s with voices := vs }) hevq, ← mixOf_filter_active,
      filter_active_map_update, hact]
    rfl
  rw [← hmix]
  exact State.out_renderBlock_eq_mixOf (s := { s with voices := vs }) hs hp hn hc hi

/-- Settles O27: each of the three blocks is the mix of its active voices. -/
theorem twoVoicesSuperpose : Obligations.TwoVoicesSuperpose := by
  intro n s p q r a b idle hs hp h1 hn hevq hpool ha hb hidle
  refine ⟨_, _, _, exec_render_legal hp h1 hn, exec_render_legal hp h1 hn, exec_render_legal hp h1 hn,
    fun c i hc hi => ?_⟩
  rw [← Voice.active_eq_true] at ha hb
  rw [← Voice.active_eq_false] at hidle
  simp only [← Voice.active_eq_false, List.forall_mem_append] at hpool
  obtain ⟨⟨hpidle, hqidle⟩, hridle⟩ := hpool
  have hnone (l : List Voice) (h : ∀ v ∈ l, v.active = false) : l.filter Voice.active = [] := by simpa using h
  have hout (x y : Voice) := State.out_of_active (vs := p ++ x :: (q ++ y :: r)) hs hp hn hevq rfl hc hi
  simp only [hout, List.filter_append, List.filter_cons, hnone p hpidle, hnone q hqidle, hnone r hridle, ha, hb, hidle]
  split
  · exact mixOf_pair_agree ..
  · exact .inl (by decide +kernel)

end Sys2Proof.Machine
end

section
/-! The lifecycle commands (spec/46_host_commands.md R271 to R274): what PREPARE does and refuses (O28) and that doing it
twice is doing it once (O29), RELEASE (O30) and RESET_FILTERS (O31). -/

namespace Sys2Proof.Machine

/-- Clearing the run gives every voice of the pool the one voice reset state (spec/10_state.md R56). -/
theorem State.clearRun_eq (s : State) : s.clearRun =
    { s with evq := [], mem := [], lastN := 0#32, voices := List.replicate s.voices.length Voice.reset } := by
  rw [State.clearRun, List.map_const']

/-! ## PREPARE (R271, R272) -/

/-- The state a PREPARE with legal arguments leaves. -/
def State.prepare (s : State) : State :=
  { s.clearRun with prepared := true, curSr := s.prepSr, curBlock := s.prepBlock, curNch := s.prepNch }

theorem exec_prepare_legal {s : State} (h : configLegal s.prepSr s.prepBlock s.prepNch = true) :
    exec .prepare s = .next s.prepare := if_pos h

theorem exec_prepare_illegal {s : State} (h : ¬configLegal s.prepSr s.prepBlock s.prepNch = true) :
    exec .prepare s = .next (s.flag .badConfig) := if_neg h

theorem State.prepare_eq (s : State) : s.prepare =
    { s with
      curSr := s.prepSr, curBlock := s.prepBlock, curNch := s.prepNch, prepared := true, lastN := 0#32, evq := [],
      mem := [], voices := List.replicate s.voices.length Voice.reset } := by
  rw [State.prepare, State.clearRun_eq]

/-- What PREPARE sets depends on the arguments and the number of voices alone, and it keeps these. -/
theorem State.prepare_prepare (s : State) : s.prepare.prepare = s.prepare := by
  simp [State.prepare_eq]

/-- Settles O28: the bounds are those of `configLegal`, and each of the two outcomes is written out. -/
theorem prepareConfigures : Obligations.PrepareConfigures := by
  intro s legal
  have hlegal : configLegal s.prepSr s.prepBlock s.prepNch = true ↔ legal := configLegal_iff
  refine ⟨rfl, fun h => ?_, fun h => ?_⟩
  · rw [exec_prepare_legal (hlegal.2 h), State.prepare_eq]
  · rw [exec_prepare_illegal (mt hlegal.1 h)]
    rfl

/-- Settles O29: the first PREPARE keeps its arguments, so the second finds them legal and the block as it leaves it. -/
theorem prepareIsIdempotent : Obligations.PrepareIsIdempotent := by
  intro s h
  have hagain : exec .prepare s.prepare = .next s.prepare.prepare := exec_prepare_legal h
  rw [State.prepare_prepare] at hagain
  exact ⟨s.prepare, exec_prepare_legal h, hagain⟩

/-! ## RELEASE and RESET_FILTERS (R273, R274) -/

/-- Settles O30: RELEASE checks nothing, so its one outcome is that of every state. -/
theorem releaseClearsBlock : Obligations.ReleaseClearsBlock := by
  intro s
  refine ⟨rfl, ?_⟩
  rw [exec, execRelease, State.clearRun_eq]

/-- Settles O31: `Filter.clear` puts both channels at rest, which is +0.0 (spec/43_filter.md R196), and no more. -/
theorem resetFiltersClearsIntegrators : Obligations.ResetFiltersClearsIntegrators :=
  fun _ => ⟨rfl, rfl⟩

end Sys2Proof.Machine
end

section
/-! The errors (spec/60_exceptions.md): an illegal RENDER (O24), the one step that faults (O8), and that an access sets at
most one bit of ERR newly (O50). -/

namespace Sys2Proof.Machine

/-! ## RENDER while unprepared or of an illegal length (R301, R305) -/

theorem exec_render_unprepared {n : BitVec 16} {s : State} (h : s.prepared = false) :
    exec (.render n) s = .fault (.precond (s.flag .precond)) := renderWith_unprepared h

theorem exec_render_badLen {n : BitVec 16} {s : State} (h : s.prepared = true)
    (hn : n.toNat = 0 ∨ s.curBlock.toNat < n.toNat) : exec (.render n) s = .next (s.flag .badLen) :=
  renderWith_badLen h hn

/-- Settles O24: PRECOND and BADLEN are bits 0 and 4 of ERR. -/
theorem illegalRenders : Obligations.IllegalRenders := fun _ _ => ⟨exec_render_unprepared, exec_render_badLen⟩

/-! ## The one fault (R313) -/

theorem enqueue_completes (e : Event) (s : State) : ∃ t, enqueue e s = .next t := by
  by_cases hq : s.evq.length = Config.evqDepth
  · exact ⟨_, enqueue_full hq⟩
  · exact ⟨_, enqueue_room hq⟩

/-- A command answers a next state, or it is a RENDER of an unprepared block. -/
theorem exec_completes_or_unprepared (i : Instr) (s : State) :
    (∃ t, exec i s = .next t) ∨ s.prepared = false ∧ ∃ n, i = .render n := by
  cases i with
  | noteOn ts vel note => exact .inl (enqueue_completes _ s)
  | noteOff ts tail vel note => exact .inl (enqueue_completes _ s)
  | render n =>
    cases hp : s.prepared with
    | false => exact .inr ⟨rfl, n, rfl⟩
    | true =>
      by_cases hn : n.toNat = 0 ∨ s.curBlock.toNat < n.toNat
      · exact .inl ⟨_, exec_render_badLen hp hn⟩
      · exact .inl ⟨_, renderWith_legal hp hn⟩
  | prepare =>
    by_cases hc : configLegal s.prepSr s.prepBlock s.prepNch = true
    · exact .inl ⟨_, exec_prepare_legal hc⟩
    · exact .inl ⟨_, exec_prepare_illegal hc⟩
  | resetFilters => exact .inl ⟨_, rfl⟩
  | release => exact .inl ⟨_, rfl⟩

/-- The write of a RENDER's word to CMD. -/
def Access.IsRender (a : Access) : Prop := ∃ n, a = .write cmdAddr (encode (.render n))

theorem Access.isRender_of_decode {addr : Addr} {w : Word} {n : BitVec 16} (ht : target addr = some .cmd)
    (hd : decode w = .ok (.render n)) : (Access.write addr w).IsRender :=
  ⟨n, by rw [eq_addr_of_target ht, encode_of_decode hd]; rfl⟩

/-- A write to a mapped word completes, whatever the word, except to CMD, where the command decides. -/
theorem writeReg_completes {r : Reg} (hr : r ≠ .cmd) (w : Word) (s : State) : ∃ t, writeReg r w s = .next t := by
  cases r with
  | cmd => exact absurd rfl hr
  | _ => exact ⟨_, rfl⟩

/-- An access answers a next state, or it is a RENDER of an unprepared block. -/
theorem perform_completes_or_unprepared (a : Access) (s : State) :
    (∃ t, perform a s = .next t) ∨ s.prepared = false ∧ a.IsRender := by
  cases a with
  | read addr => exact .inl ⟨_, rfl⟩
  | reset => exact .inl ⟨_, rfl⟩
  | write addr w =>
    cases ht : target addr with
    | none => exact .inl ⟨_, perform_write_unmapped ht w s⟩
    | some r =>
      rw [perform_write ht]
      by_cases hr : r = .cmd
      · subst hr
        change (∃ t, runCommand w s = .next t) ∨ _
        cases hd : decode w with
        | error r => exact .inl ⟨s.flag .badCmd, by rw [runCommand, hd, raise_eq]⟩
        | ok i =>
          rw [runCommand_of_decode hd]
          refine (exec_completes_or_unprepared i s).imp_right fun ⟨hp, n, hi⟩ => ⟨hp, ?_⟩
          exact Access.isRender_of_decode ht (hi ▸ hd)
      · exact .inl (writeReg_completes hr w s)

/-- Settles O8: the step performs the waiting access, if one reaches the block, and of the accesses only a RENDER of an
unprepared block does not complete. -/
theorem onlyUnpreparedRenderFaults : Obligations.OnlyUnpreparedRenderFaults := by
  refine fun s => ⟨fun ⟨hp, n, rest, hport⟩ => ?_, fun hno => ?_⟩
  · exact ⟨_, (step_command hport (decode_encode _)).trans (exec_render_unprepared hp)⟩
  · cases hport : s.port with
    | nil => exact ⟨s, step_idle hport⟩
    | cons h rest =>
      cases ha : h.atPins? s.base with
      | none => exact ⟨_, step_outside hport ha⟩
      | some a =>
        rw [HostAccess.atPins?_eq_some] at ha
        subst ha
        rw [step_access hport]
        refine (perform_completes_or_unprepared a _).resolve_right fun ⟨hp, n, hrender⟩ => hno ⟨hp, n, rest, ?_⟩
        rw [hport, hrender]
        rfl

/-! ## At most one new error (R309) -/

/-- What an access does to ERR: it sets no bit newly, or it sets that of one cause, which is NOFREEVOICE only if
`isRender` holds. -/
inductive ErrMove (isRender : Prop) (err err' : BitVec 8) : Prop where
  | noNew (h : ∀ k, err'.getLsbD k = true → err.getLsbD k = true)
  | sets (c : Err) (h : err' = setErr err c) (hrender : c = .noFreeVoice → isRender)

theorem ErrMove.kept {isRender : Prop} (err : BitVec 8) : ErrMove isRender err err := .noNew fun _ => id

theorem ErrMove.imp {p q : Prop} {err err' : BitVec 8} (hpq : p → q) : ErrMove p err err' → ErrMove q err err'
  | .noNew h => .noNew h
  | .sets c h hrender => .sets c h fun hc => hpq (hrender hc)

theorem exec_errMove {i : Instr} {s t : State} (h : exec i s = .next t) :
    ErrMove (∃ n, i = .render n) s.err t.err := by
  rcases exec_cases h with ⟨_, rfl, _⟩ | ⟨rfl, _⟩ | ⟨_, _, _, _, rfl⟩ | ⟨n, hi, _, _, _, rfl⟩ | ⟨_, _, rfl⟩ |
    ⟨_, _, rfl⟩ | ⟨_, rfl⟩ | ⟨_, rfl⟩
  any_goals exact .kept _
  · exact .sets .evqOvf rfl nofun
  · exact .sets .badLen rfl nofun
  · rw [State.renderBlock_eq]
    dsimp only
    split
    · exact .sets .noFreeVoice rfl fun _ => ⟨n, hi⟩
    · exact .kept _
  · exact .sets .badConfig rfl nofun

theorem clearErr_errMove {isRender : Prop} (err : BitVec 8) (w : Word) : ErrMove isRender err (clearErr err w) := by
  refine .noNew fun k hk => ?_
  rw [clearErr, BitVec.getLsbD_and, Bool.and_eq_true] at hk
  exact hk.1

theorem State.writeParam_errMove {isRender : Prop} (s : State) (p : Param) (w : Word) :
    ErrMove isRender s.err (s.writeParam p w).err := by
  cases hw : s.params.write w p with
  | none => rw [State.writeParam_of_none hw]; exact .sets .badParam rfl nofun
  | some ps => rw [State.writeParam_of_some hw]; exact .kept _

theorem perform_errMove {a : Access} {s t : State} (h : perform a s = .next t) : ErrMove a.IsRender s.err t.err := by
  rcases perform_cases h with ⟨_, _, _, _, rfl⟩ | ⟨_, _, _, rfl⟩ | ⟨_, _, _, rfl⟩ | ⟨_, w, _, _, rfl⟩ |
    ⟨_, _, _, _, rfl⟩ | ⟨_, _, _, _, rfl⟩ | ⟨_, _, _, _, rfl⟩ | ⟨_, w, p, _, _, rfl⟩ | ⟨_, _, _, _, _, rfl⟩ |
    ⟨_, _, i, rfl, ht, hd, hx⟩ | ⟨_, rfl⟩
  any_goals exact .kept _
  · exact .sets .badAddr rfl nofun
  · exact .sets .badAddr rfl nofun
  · exact clearErr_errMove s.err w
  · exact s.writeParam_errMove p w
  · exact .sets .badCmd rfl nofun
  · exact (exec_errMove hx).imp fun ⟨n, hi⟩ => Access.isRender_of_decode ht (hi ▸ hd)
  · exact .noNew fun k hk => by simp [resetInput] at hk

theorem Err.ofNat_code (e : Err) : Err.ofNat e.code = e := by cases e <;> rfl

theorem Err.code_injective : Function.Injective Err.code := Function.LeftInverse.injective Err.ofNat_code

theorem mem_newErrors {s t : State} {e : Err} :
    e ∈ newErrors s t ↔ s.err.getLsbD e.code = false ∧ t.err.getLsbD e.code = true := by
  cases e <;> simp [newErrors]

theorem newErrors_nodup (s t : State) : (newErrors s t).Nodup := List.Nodup.filter _ (by decide)

/-- Setting the bit of a cause sets no other cause newly. -/
theorem newErrors_subset_of_setErr {s t : State} {c : Err} (h : t.err = setErr s.err c) : newErrors s t ⊆ [c] := by
  intro e he
  obtain ⟨hold, hnew⟩ := mem_newErrors.1 he
  have hcode : e.code = c.code := by simpa [h, setErr_getLsbD, hold] using hnew
  exact List.mem_singleton.2 (Err.code_injective hcode)

theorem newErrors_eq_nil {s t : State} (h : ∀ k, t.err.getLsbD k = true → s.err.getLsbD k = true) :
    newErrors s t = [] := by
  refine List.eq_nil_iff_forall_not_mem.2 fun e he => ?_
  obtain ⟨hold, hnew⟩ := mem_newErrors.1 he
  exact Bool.false_ne_true (hold.symm.trans (h _ hnew))

/-- Settles O50: an access moves ERR as `ErrMove` says, and each cause is listed once. -/
theorem oneErrorPerAccess : Obligations.OneErrorPerAccess := by
  intro a s t h
  cases perform_errMove h with
  | noNew hkeep => simp [newErrors_eq_nil hkeep]
  | sets c hset hrender =>
    have hsub := newErrors_subset_of_setErr hset
    exact ⟨((newErrors_nodup s t).subperm hsub).length_le,
      fun hfree => hrender (List.mem_singleton.1 (hsub hfree)).symm⟩

end Sys2Proof.Machine
end

section
/-! Reset (spec/70_reset_and_hazards.md R330, R332): what the block reads as after it (O16), and the reset input (O17). -/

namespace Sys2Proof.Machine

/-! ## The words read after reset (spec/10_state.md R35, R36, R44) -/

theorem activeBits_of_idle {vs : List Voice} (h : ∀ v ∈ vs, v.vstate = .idle) : activeBits vs = 0#16 := by
  induction vs with
  | nil => rfl
  | cons v vs ih =>
    obtain ⟨hv, hvs⟩ := List.forall_mem_cons.1 h
    simp [activeBits, hv, ih hvs]

theorem State.readReg_status_resetN (nv base : Nat) : (State.resetN nv base).readReg .status = 0#32 := by
  have hactive : activeBits (State.resetN nv base).voices = 0#16 := activeBits_of_idle (forall_resetN_voices nv base rfl)
  rw [State.readReg, statusWord, hactive, State.resetN_evq, State.resetN_prepared]
  decide

theorem State.readReg_err_resetN (nv base : Nat) : (State.resetN nv base).readReg .err = 0#32 := by
  rw [State.readReg, State.resetN_err]
  decide

theorem State.vstat_resetN (nv base v : Nat) : (State.resetN nv base).vstat v = 0#32 := by
  cases h : (State.resetN nv base).voices[v]? with
  | none => exact State.vstat_of_no_voice (List.getElem?_eq_none_iff.1 h)
  | some x =>
    obtain rfl : x = Voice.reset := List.eq_of_mem_replicate (List.mem_of_getElem? h)
    exact State.vstat_of_voice h

/-! ## The voice reset state after PREPARE and RELEASE (R271, R273) -/

theorem exec_prepare_voices {s : State} (h : configLegal s.prepSr s.prepBlock s.prepNch = true) :
    ∃ t, exec .prepare s = .next t ∧ t.voices = List.replicate s.voices.length Voice.reset :=
  ⟨s.prepare, exec_prepare_legal h, by rw [State.prepare_eq]⟩

theorem exec_release_voices (s : State) :
    ∃ t, exec .release s = .next t ∧ t.voices = List.replicate s.voices.length Voice.reset :=
  ⟨_, (releaseClearsBlock s).2, rfl⟩

/-! ## Reset -/

/-- Settles O16: the stored registers hold their reset constants, and the words computed from the pool and from OUT are
those of idle voices and of an OUT that is +0.0. -/
theorem resetReadsAsSpecified : Obligations.ResetReadsAsSpecified := by
  intro nv base _ _
  exact ⟨rfl, fun u => ⟨exec_prepare_voices, exec_release_voices u⟩, List.length_replicate,
    forall_resetN_voices nv base rfl, rfl, step_idle rfl, State.readReg_status_resetN nv base,
    State.readReg_err_resetN nv base, congrArg capsWord List.length_replicate, rfl, rfl, rfl, rfl, rfl, rfl, rfl,
    State.out_resetN nv base, State.vstat_resetN nv base, rfl⟩

/-- Settles O17: the reset input is `resetInput`, which takes the number of voices, the base address and the port's record
from the state it finds, and the rest from `State.resetN`. -/
theorem resetInputRestoresReset : Obligations.ResetInputRestoresReset := fun _ => rfl

end Sys2Proof.Machine
end
